-- ==== Sys2Proof/Word.lean ====
section
/-! DEFINITION. The word types of the unit: 32-bit words and binary32 encodings (R12, R14), binary64 encodings, bytes,
and complex pairs of binary32 words (R15). -/

namespace Sys2Proof

/-- A register, a memory word or a binary32 encoding (R12, R14). -/
abbrev Word := BitVec 32

/-- A binary64 encoding, used only for angles (R14, R166). -/
abbrev DWord := BitVec 64

/-- One byte of memory (R60). -/
abbrev Byte := BitVec 8

/-- A complex value: a pair of binary32 words (R15). -/
@[ext]
structure Cplx where
  re : Word
  im : Word
  deriving DecidableEq, Repr

end Sys2Proof
end

