-- ==== Sys2Proof/Syntax.lean ====
section
/-! DEFINITION. The commands of the unit: one constructor per row of the opcode table (R91), and their mnemonics
(R98). -/

namespace Sys2Proof

/-- The command words of rule R91. The operands of a command are registers (R95); the only immediate is S of STAGE
(R93). -/
inductive Instr where
  /-- NOP (R140). -/
  | nop
  /-- DFT.F (R263). -/
  | dftF
  /-- DFT.I (R264). -/
  | dftI
  /-- FFT2.F (R208). -/
  | fft2F
  /-- FFT2.I (R210). -/
  | fft2I
  /-- BLUE.F (R258). -/
  | blueF
  /-- BLUE.I (R260). -/
  | blueI
  /-- BITREV (R202). -/
  | bitrev
  /-- STAGE s (R205): s is the S field, 0 to 31. -/
  | stage (s : Nat)
  /-- CONJ (R212). -/
  | conj
  /-- SCALE (R214). -/
  | scale
  /-- CMUL (R241). -/
  | cmul
  /-- CHIRP.N (R243). -/
  | chirpN
  /-- CHIRP.P (R244). -/
  | chirpP
  deriving DecidableEq, Repr

/-- The mnemonic of a command (R98). -/
def Instr.mnemonic : Instr → String
  | .nop => "NOP"
  | .dftF => "DFT.F"
  | .dftI => "DFT.I"
  | .fft2F => "FFT2.F"
  | .fft2I => "FFT2.I"
  | .blueF => "BLUE.F"
  | .blueI => "BLUE.I"
  | .bitrev => "BITREV"
  | .stage s => "STAGE " ++ toString s
  | .conj => "CONJ"
  | .scale => "SCALE"
  | .cmul => "CMUL"
  | .chirpN => "CHIRP.N"
  | .chirpP => "CHIRP.P"

/-- The pseudo-commands of rule R100. -/
inductive Pseudo where
  | transform
  | inverseTransform
  | fft
  | ifft
  | transformAnyF
  | transformAnyI
  deriving DecidableEq, Repr

/-- The expansion of a pseudo-command (R100). -/
def Pseudo.expand : Pseudo → Instr
  | .transform => .dftF
  | .inverseTransform => .dftI
  | .fft => .fft2F
  | .ifft => .fft2I
  | .transformAnyF => .dftF
  | .transformAnyI => .dftI

end Sys2Proof
end

