-- ==== Sys2Proof/WellFormed.lean ====
section
/-! DEFINITION. The one check a command can fail as a term: the S field of STAGE has 5 bits (R93). -/

namespace Sys2Proof

/-- S of STAGE is an unsigned integer 0 to 31 (R93); no other command has a field. -/
def Instr.WellFormed : Instr → Bool
  | .stage s => decide (s < 32)
  | .nop | .dftF | .dftI | .fft2F | .fft2I | .blueF | .blueI | .bitrev | .conj | .scale | .cmul | .chirpN | .chirpP => true

end Sys2Proof
end

