-- ==== Sys2Proof/Decode.lean ====
section
/-! DEFINITION. The decoder of rule R94, total on every word and on every list of bytes, with the reason for each
rejection (R97), and the encoder of rules R90, R91 and R96. -/

namespace Sys2Proof

/-- Why a word is no command (R97). The unit records none of these: all give ILLEGAL_CMD (R281). -/
inductive DecodeError where
  /-- Fewer than four bytes. -/
  | truncated
  /-- A bit of 15:9 or 31:21 is set. -/
  | reservedBits
  /-- OP is not in the table of rule R91. -/
  | unassignedOp
  /-- MD = 1 on a command without a modifier (R92). -/
  | modifierSet
  /-- S is not 0 on a command other than STAGE (R93). -/
  | stageFieldSet
  deriving DecidableEq, Repr

/-- `w[hi:lo]` (R13). -/
def bitField (hi lo : Nat) (w : Word) : Nat := w.toNat / 2 ^ lo % 2 ^ (hi - lo + 1)

/-- OP of rule R90. -/
def opField (w : Word) : Nat := bitField 7 0 w

/-- MD of rule R90. -/
def mdField (w : Word) : Nat := bitField 8 8 w

/-- S of rule R90, zero-extended (R93). -/
def sField (w : Word) : Nat := bitField 20 16 w

/-- A command with neither modifier nor S. -/
def plainCommand (md s : Nat) (i : Instr) : Except DecodeError Instr :=
  if md ≠ 0 then .error .modifierSet else if s ≠ 0 then .error .stageFieldSet else .ok i

/-- A command whose MD selects one of two (R92). -/
def modifiedCommand (md s : Nat) (i0 i1 : Instr) : Except DecodeError Instr :=
  if s ≠ 0 then .error .stageFieldSet else if md = 0 then .ok i0 else .ok i1

/-- `decode(w)` of rule R94. -/
def decodeWord (w : Word) : Except DecodeError Instr :=
  if bitField 15 9 w ≠ 0 ∨ bitField 31 21 w ≠ 0 then .error .reservedBits
  else
    let md := mdField w
    let s := sField w
    match opField w with
    | 0x00 => plainCommand md s .nop
    | 0x01 => modifiedCommand md s .dftF .dftI
    | 0x02 => modifiedCommand md s .fft2F .fft2I
    | 0x03 => modifiedCommand md s .blueF .blueI
    | 0x10 => plainCommand md s .bitrev
    | 0x11 => if md = 0 then .ok (.stage s) else .error .modifierSet
    | 0x12 => plainCommand md s .conj
    | 0x13 => plainCommand md s .scale
    | 0x14 => plainCommand md s .cmul
    | 0x15 => modifiedCommand md s .chirpN .chirpP
    | _ => .error .unassignedOp

/-- The word whose bytes stand in the order of rule R60. -/
def wordOfBytes (b0 b1 b2 b3 : Byte) : Word :=
  BitVec.ofNat 32 (b0.toNat + 256 * b1.toNat + 65536 * b2.toNat + 16777216 * b3.toNat)

/-- The four bytes of a word, lowest address first (R60). -/
def bytesOfWord (w : Word) : List Byte :=
  [BitVec.ofNat 8 w.toNat, BitVec.ofNat 8 (w.toNat / 256), BitVec.ofNat 8 (w.toNat / 65536),
    BitVec.ofNat 8 (w.toNat / 16777216)]

/-- The command at the front of a list of bytes, and the bytes after it (R60, R90). -/
def decode : List Byte → Except DecodeError (Instr × List Byte)
  | b0 :: b1 :: b2 :: b3 :: rest =>
    match decodeWord (wordOfBytes b0 b1 b2 b3) with
    | .ok i => .ok (i, rest)
    | .error e => .error e
  | _ => .error .truncated

/-- OP of each command (R91). -/
def Instr.op : Instr → Nat
  | .nop => 0x00
  | .dftF | .dftI => 0x01
  | .fft2F | .fft2I => 0x02
  | .blueF | .blueI => 0x03
  | .bitrev => 0x10
  | .stage _ => 0x11
  | .conj => 0x12
  | .scale => 0x13
  | .cmul => 0x14
  | .chirpN | .chirpP => 0x15

/-- MD of each command (R91, R92). -/
def Instr.md : Instr → Nat
  | .dftI | .fft2I | .blueI | .chirpP => 1
  | .nop | .dftF | .fft2F | .blueF | .bitrev | .stage _ | .conj | .scale | .cmul | .chirpN => 0

/-- S of each command (R91, R93). -/
def Instr.s : Instr → Nat
  | .stage s => s
  | .nop | .dftF | .dftI | .fft2F | .fft2I | .blueF | .blueI | .bitrev | .conj | .scale | .cmul | .chirpN | .chirpP => 0

/-- The command word of a command (R90, R96). -/
def encode (i : Instr) : Word := BitVec.ofNat 32 (i.op + 2 ^ 8 * i.md + 2 ^ 16 * i.s)

/-- Every well-formed command, in the order of the opcode table (R91, R96). -/
def allCommands : List Instr :=
  [.nop, .dftF, .dftI, .fft2F, .fft2I, .blueF, .blueI, .bitrev] ++ (List.range 32).map .stage ++
    [.conj, .scale, .cmul, .chirpN, .chirpP]

/-- The command that a mnemonic names, capitals or not (R98). -/
def assemble (t : String) : Option Instr := allCommands.find? (fun i => i.mnemonic == t.toUpper)

/-- The command the decoder reads from an instruction whose bits are `w`, numbered as the opcode table numbers them;
bits at or above `nbits` are 0. -/
def decodeTableWord (nbits w : Nat) : Option Instr :=
  if 2 ^ 32 ≤ w % 2 ^ nbits then none
  else
    match decode (bytesOfWord (BitVec.ofNat 32 (w % 2 ^ nbits))) with
    | .ok (i, _) => some i
    | .error _ => none

end Sys2Proof
end

