-- ==== Sys2Proof/Config.lean ====
section
/-! DEFINITION. What this hardware fixes (R7, R8) and what the spec leaves open (R9, R10, R11): the open values are
constants without a body, so that a claim holds whatever they are. -/

namespace Sys2Proof.Config

open Sys2Proof

/-- ADDR_W (R7): this hardware takes 32. -/
def addrW : Nat := 32

/-- LOG2_NMAX (R8): this hardware takes 16. -/
def log2Nmax : Nat := 16

/-- One past the highest memory byte address (R7): the memory space is [0, 2^ADDR_W). -/
def memSize : Nat := 2 ^ addrW

/-- NMAX (R8), the largest radix-2 length. -/
def nMax : Nat := 2 ^ log2Nmax

/-- REG_BASE (R10): left OPEN; the byte address at which the host sees the register block. -/
opaque regBase : Nat

/-- Cos64 (R9): a total function from binary64 to binary64 of which nothing is assumed (log entry 4). -/
opaque cos64 : DWord → DWord

/-- Sin64 (R9): a total function from binary64 to binary64 of which nothing is assumed (log entry 4). -/
opaque sin64 : DWord → DWord

/-- NaNDraw (R11, R162): the sign and the fraction (less one) of a binary32 NaN produced at a draw. Every NaN word is
one of these values (log entry 3). -/
opaque nanDraw : List Nat → Bool × Fin 8388607

/-- The sign and the fraction (less one) of a binary64 NaN that mul64 or div64 produces at a draw (R162, R166). -/
opaque nanDraw64 : List Nat → Bool × Fin 4503599627370495

/-- A byte that a race or a reset during a command leaves at any value (R76, R312; log entries 11 and 17). -/
opaque anyByte : List Nat → Byte

/-- The trig provider as one value (R9): the meanings use `Config.trig`, and a test may use a table instead. -/
structure Trig where
  cos : DWord → DWord
  sin : DWord → DWord

/-- The provider of this hardware: Cos64 and Sin64. -/
def trig : Trig := ⟨cos64, sin64⟩

end Sys2Proof.Config
end

