-- ==== Sys2Proof/Machine/Numerics.lean ====
section
/-! DEFINITION. The arithmetic of 41_numerics.md: binary32 and binary64 operations as exact integer arithmetic followed
by one rounding, the complex multiplier, the twiddle ROM and the chirp generator. A magnitude is counted in units of
the format's least subnormal, so that every finite value is a natural number of units. The first argument of an
operation that may produce a NaN is the draw its NaN bits are taken at (R162; log entry 3). -/

namespace Sys2Proof.Machine

open Sys2Proof

/-- Where a free value is taken: a path that names one operation of one run (log entry 3). -/
abbrev Draw := List Nat

/-! ### Rounding (R160, R161, R163, R166, R168) -/

/-- The integer nearest to `num / den`, ties to even. -/
def roundEven (num den : Nat) : Nat :=
  let q := num / den
  let r := num % den
  if den < 2 * r ∨ (2 * r = den ∧ q % 2 = 1) then q + 1 else q

/-- The exponent shift of a value of `num / den` units in a format of `p` significand bits: 0 in the subnormal range
and the lowest normal binade. -/
def roundShift (p num den : Nat) : Nat := (num / den).log2 - (p - 1)

/-- The encoding (sign aside) of the value of `num / den` units rounded to `p` significand bits, nearest with ties to
even, exponent unbounded above: consecutive encodings are consecutive values, so a carry out of the significand moves
to the next exponent by itself. -/
def roundMag (p num den : Nat) : Nat :=
  let t := roundShift p num den
  t * 2 ^ (p - 1) + roundEven num (den * 2 ^ t)

/-! ### binary32 (R14) -/

/-- The encoding of +infinity, and the bound above which a rounded magnitude overflows to it (R160). -/
def inf32 : Nat := 0x7F800000

/-- The sign bit. -/
def sign32 (w : Word) : Bool := decide (2 ^ 31 ≤ w.toNat)

/-- The encoding without its sign. -/
def abs32 (w : Word) : Nat := w.toNat % 2 ^ 31

/-- A word with bits 30:23 all ones and bits 22:0 not all zero (R162). -/
def isNaN32 (w : Word) : Bool := decide (inf32 < abs32 w)

/-- A word that encodes an infinity. -/
def isInf32 (w : Word) : Bool := decide (abs32 w = inf32)

/-- A word that encodes a zero of either sign. -/
def isZero32 (w : Word) : Bool := decide (abs32 w = 0)

/-- The magnitude of a finite word in units of 2^-149. -/
def units32 (w : Word) : Nat :=
  let e := abs32 w / 2 ^ 23
  let f := abs32 w % 2 ^ 23
  if e = 0 then f else (2 ^ 23 + f) * 2 ^ (e - 1)

/-- The signed value of a finite word in units of 2^-149. -/
def value32 (w : Word) : Int := if sign32 w then -(units32 w : Int) else (units32 w : Int)

/-- The word of a sign and an encoding without sign; overflow becomes an infinity (R160). -/
def pack32 (neg : Bool) (mag : Nat) : Word :=
  BitVec.ofNat 32 ((if neg then 2 ^ 31 else 0) + min mag inf32)

/-- The NaN word a draw gives (R162). -/
def nan32 (d : Draw) : Word :=
  BitVec.ofNat 32 ((if (Config.nanDraw d).1 then 2 ^ 31 else 0) + inf32 + 1 + (Config.nanDraw d).2.val)

/-- `neg32` (R164): bit 31 inverted. -/
def neg32 (w : Word) : Word := w ^^^ 0x80000000

/-- `add32` (R161). -/
def add32 (d : Draw) (a b : Word) : Word :=
  if isNaN32 a || isNaN32 b then nan32 d
  else if isInf32 a then (if isInf32 b && (sign32 a != sign32 b) then nan32 d else a)
  else if isInf32 b then b
  else
    let x := value32 a + value32 b
    if x = 0 then pack32 (sign32 a && sign32 b) 0 else pack32 (decide (x < 0)) (roundMag 24 x.natAbs 1)

/-- `sub32` (R161): a - b is a + (-b), with the same signs of zero (log entry 20). -/
def sub32 (d : Draw) (a b : Word) : Word := add32 d a (neg32 b)

/-- `mul32` (R163). -/
def mul32 (d : Draw) (a b : Word) : Word :=
  let neg := sign32 a != sign32 b
  if isNaN32 a || isNaN32 b then nan32 d
  else if isInf32 a || isInf32 b then (if isZero32 a || isZero32 b then nan32 d else pack32 neg inf32)
  else pack32 neg (roundMag 24 (units32 a * units32 b) (2 ^ 149))

/-- `recip32` (R167): the binary32 nearest to 1/n. -/
def recip32 (n : Nat) : Word := pack32 false (roundMag 24 (2 ^ 149) n)

/-- +0.0 (R14). -/
def zero32 : Word := 0x00000000

/-- 1.0 (R14). -/
def one32 : Word := 0x3F800000

/-! ### binary64, for angles only (R165, R166) -/

/-- The encoding of +infinity in binary64. -/
def inf64 : Nat := 0x7FF0000000000000

/-- The sign bit of a binary64 word. -/
def sign64 (x : DWord) : Bool := decide (2 ^ 63 ≤ x.toNat)

/-- The encoding of a binary64 word without its sign. -/
def abs64 (x : DWord) : Nat := x.toNat % 2 ^ 63

/-- A binary64 NaN. -/
def isNaN64 (x : DWord) : Bool := decide (inf64 < abs64 x)

/-- A binary64 infinity. -/
def isInf64 (x : DWord) : Bool := decide (abs64 x = inf64)

/-- A binary64 zero. -/
def isZero64 (x : DWord) : Bool := decide (abs64 x = 0)

/-- The magnitude of a finite binary64 word in units of 2^-1074. -/
def units64 (x : DWord) : Nat :=
  let e := abs64 x / 2 ^ 52
  let f := abs64 x % 2 ^ 52
  if e = 0 then f else (2 ^ 52 + f) * 2 ^ (e - 1)

/-- The binary64 word of a sign and an encoding without sign; overflow becomes an infinity. -/
def pack64 (neg : Bool) (mag : Nat) : DWord :=
  BitVec.ofNat 64 ((if neg then 2 ^ 63 else 0) + min mag inf64)

/-- The binary64 NaN a draw gives (R162, R166). -/
def nan64 (d : Draw) : DWord :=
  BitVec.ofNat 64 ((if (Config.nanDraw64 d).1 then 2 ^ 63 else 0) + inf64 + 1 + (Config.nanDraw64 d).2.val)

/-- `rn32` (R160): a binary64 value rounded to binary32; 2^-149 is 2^925 units of 2^-1074. -/
def rn32 (d : Draw) (x : DWord) : Word :=
  if isNaN64 x then nan32 d
  else if isInf64 x then pack32 (sign64 x) inf32
  else pack32 (sign64 x) (roundMag 24 (units64 x) (2 ^ 925))

/-- `cvt64` (R165): the binary64 nearest to a non-negative integer. -/
def cvt64 (i : Nat) : DWord := pack64 false (roundMag 53 (i * 2 ^ 1074) 1)

/-- `mul64` (R166). -/
def mul64 (d : Draw) (a b : DWord) : DWord :=
  let neg := sign64 a != sign64 b
  if isNaN64 a || isNaN64 b then nan64 d
  else if isInf64 a || isInf64 b then (if isZero64 a || isZero64 b then nan64 d else pack64 neg inf64)
  else pack64 neg (roundMag 53 (units64 a * units64 b) (2 ^ 1074))

/-- `div64` (R166). -/
def div64 (d : Draw) (a b : DWord) : DWord :=
  let neg := sign64 a != sign64 b
  if isNaN64 a || isNaN64 b then nan64 d
  else if isInf64 a then (if isInf64 b then nan64 d else pack64 neg inf64)
  else if isInf64 b then pack64 neg 0
  else if isZero64 b then (if isZero64 a then nan64 d else pack64 neg inf64)
  else pack64 neg (roundMag 53 (units64 a * 2 ^ 1074) (units64 b))

/-! ### Complex multiplier (R170 to R172) -/

/-- `cmul` (R170): four rounded products, one rounded difference, one rounded sum; never fused (R169). -/
def cmul (d : Draw) (a b : Cplx) : Cplx where
  re := sub32 (4 :: d) (mul32 (0 :: d) a.re b.re) (mul32 (1 :: d) a.im b.im)
  im := add32 (5 :: d) (mul32 (2 :: d) a.re b.im) (mul32 (3 :: d) a.im b.re)

/-- `conj` (R172). -/
def conjC (z : Cplx) : Cplx := ⟨z.re, neg32 z.im⟩

/-- (1.0, +0.0), the start value of the rotation register (R176). -/
def oneC : Cplx := ⟨one32, zero32⟩

/-! ### Twiddle ROM and chirp generator (R174 to R182) -/

/-- PI64 (R174). -/
def pi64 : DWord := 0x400921FB54442D18

/-- The binary64 word 2.0. -/
def two64 : DWord := 0x4000000000000000

/-- The stage angle θ_s (R174). -/
def stageAngle (s : Nat) : DWord := div64 [0, s, 1] (mul64 [1, s, 1] two64 pi64) (cvt64 (2 ^ s))

/-- The twiddle ROM word TW[s] (R175). Its draws name the ROM entry alone: the ROM never changes (log entry 15). -/
def twiddle (t : Config.Trig) (s : Nat) : Cplx where
  re := rn32 [2, s, 1] (t.cos (stageAngle s))
  im := neg32 (rn32 [3, s, 1] (t.sin (stageAngle s)))

/-- The rotation sequence w_j of a block of a stage with base twiddle ω (R176); `d j` is the draw of the step from
w_j. -/
def rotation (d : Nat → Draw) (ω : Cplx) : Nat → Cplx
  | 0 => oneC
  | j + 1 => cmul (d j) (rotation d ω j) ω

/-- The chirp angle φ_n(k) (R181). -/
def chirpAngle (n k : Nat) : DWord := div64 [0, k, n, 2] (mul64 [1, k, n, 2] pi64 (cvt64 (k * k))) (cvt64 n)

/-- The chirp value W_n[k] (R180). Its draws name (n, k) alone: the generator is a function (R182; log entry 15). -/
def chirp (t : Config.Trig) (n k : Nat) : Cplx where
  re := rn32 [2, k, n, 2] (t.cos (chirpAngle n k))
  im := rn32 [3, k, n, 2] (t.sin (chirpAngle n k))

end Sys2Proof.Machine
end

