-- ==== Sys2Proof/Machine/State.lean ====
section
/-! DEFINITION. The state of the unit and of what it is connected to: the register block (R20 to R30), the internal
state (R40 to R44), the memory (R47, R62), and the pending actions of the host and the platform (R120). -/

namespace Sys2Proof.Machine

open Sys2Proof

/-- Memory (R47, R62): the listed bytes, addresses strictly rising; an unlisted byte reads as `Memory.unlisted` of
Machine/Ops.lean and is never listed with that value. -/
abbrev Memory := List Host.Cell

/-- Error codes (R280). Codes 10 to 15 are never produced and have no constructor. -/
inductive ErrCode where
  /-- 0: success. -/
  | ok
  /-- 1 (R281). -/
  | illegalCmd
  /-- 2 (R282). -/
  | invalidLength
  /-- 3 (R283). -/
  | notPow2
  /-- 4 (R284). -/
  | badStage
  /-- 5 (R285). -/
  | tooLong
  /-- 6 (R286). -/
  | misaligned
  /-- 7 (R287). -/
  | range
  /-- 8 (R288). -/
  | overlap
  /-- 9 (R289). -/
  | allocFail
  deriving DecidableEq, Repr

/-- The vectors a phase works on: X and Y (R27, R28) and the scratch buffers A, B, C (R250). -/
inductive Vec where
  | x
  | y
  | a
  | b
  | c
  deriving DecidableEq, Repr

/-- The phases of the sequencer (R40). A phase that a sequence names for several vectors carries its vector. -/
inductive Phase where
  /-- R133. -/
  | check
  /-- R211. -/
  | conj (v : Vec)
  /-- R201. -/
  | bitRev (v : Vec)
  /-- R203: stage s. -/
  | stage (v : Vec) (s : Nat)
  /-- R213: the divisor is the vector's length. -/
  | scale (v : Vec)
  /-- R251. -/
  | zero
  /-- R252. -/
  | chirpFill
  /-- R254: the first vector receives the product of the other two. -/
  | pointMul (d p q : Vec)
  /-- R256. -/
  | extract
  /-- R242: `neg` for exp(-iφ) (CHIRP.N), else exp(+iφ). -/
  | chirpMul (neg : Bool)
  /-- R136. -/
  | finish
  deriving DecidableEq, Repr

/-- PH (R40): Idle, or the current phase and the phases of the command still to come. -/
inductive PH where
  | idle
  | run (p : Phase) (rest : List Phase)
  /-- The current phase has met an access that the platform refuses (R68): its accesses before that one are performed,
  and the unit takes no further step. -/
  | stuck (p : Phase) (rest : List Phase)
  deriving DecidableEq, Repr

/-- The loop counters (R43) and datapath registers (R44). -/
structure Datapath where
  /-- Bit-reversal index i. -/
  bitI : Nat
  /-- Reversed-index counter r. -/
  bitR : Nat
  /-- Stage number s. -/
  stage : Nat
  /-- Block base blk. -/
  blk : Nat
  /-- Position j. -/
  pos : Nat
  /-- Elementwise index k. -/
  k : Nat
  /-- Stage base twiddle ω. -/
  omega : Cplx
  /-- Rotation register w. -/
  w : Cplx
  /-- Butterfly operand xu. -/
  xu : Cplx
  /-- Butterfly operand xv. -/
  xv : Cplx
  /-- Product temp. -/
  temp : Cplx
  /-- Chirp register Wk. -/
  wk : Cplx
  /-- Scale register R. -/
  scale : Word
  deriving DecidableEq, Repr

/-- A byte range of memory: [base, base + size) (R19, R66). -/
structure Region where
  base : Nat
  size : Nat
  deriving DecidableEq, Repr

/-- A range of byte addresses that the platform's memory does not answer, for reads or for writes or both (MemAdmit,
R11(c), R68): [lo, hi). Log entry 27 says what an access is that lies only in part in one. -/
structure Hole where
  lo : Nat
  hi : Nat
  reads : Bool
  writes : Bool
  deriving DecidableEq, Repr

/-- Where a host access goes (R10, R62, R120): a register by its offset in the block, a memory byte address, or an
address on the host's own bus, where the block stands at REG_BASE. -/
inductive Target where
  | reg (off : Byte)
  | mem (addr : Nat)
  | bus (addr : Nat)
  deriving DecidableEq, Repr

/-- What the host or the platform does next (R120; log entry 12). -/
inductive Event where
  /-- A read of `len` bytes. -/
  | read (t : Target) (len : Nat)
  /-- A write of bytes, lowest address first. -/
  | write (t : Target) (bytes : List Byte)
  /-- The host's loop `wait` (R99): read STATUS until DONE reads 1. -/
  | wait
  /-- One unit step (one phase) is taken here, before the events that follow. -/
  | unit
  /-- The platform asserts reset (R310, R312). -/
  | reset
  deriving DecidableEq, Repr

/-- The state of the machine. -/
structure State where
  /-- STATUS.BUSY (R24). -/
  busy : Bool
  /-- STATUS.DONE (R24). -/
  done : Bool
  /-- STATUS.OVR (R24). -/
  ovr : Bool
  /-- STATUS.ERRCODE (R24, R280). -/
  errcode : ErrCode
  /-- IRQEN.DONE_IE (R25). -/
  doneIe : Bool
  /-- LEN (R26). -/
  len : Word
  /-- XRE (R27). -/
  xre : Word
  /-- XIM (R27). -/
  xim : Word
  /-- YRE (R28). -/
  yre : Word
  /-- YIM (R28). -/
  yim : Word
  /-- SCR (R29). -/
  scr : Word
  /-- SCRSZ (R29). -/
  scrsz : Word
  /-- PH (R40). -/
  ph : PH
  /-- The latched command word (R41, R130; log entry 6). -/
  cmd : Word
  /-- n (R42). -/
  n : Word
  /-- M (R42). -/
  mlen : Word
  /-- L (R42). -/
  vlen : Word
  /-- Loop counters and datapath registers (R43, R44). -/
  dp : Datapath
  /-- The memory (R47, R62). -/
  mem : Memory
  /-- The addresses the platform does not answer (R68; log entry 9). -/
  holes : List Hole
  /-- The model's own: a host write has raced with the running command (R76(b); log entry 11). -/
  raced : Bool
  /-- The model's own: the read-write regions of the completed commands for which the host has not yet read DONE = 1
  (R71; log entry 24). -/
  unseen : List Region
  /-- The model's own: the counter free values are taken at (log entry 3). -/
  draws : Nat
  /-- The model's own: what the host and the platform do next (log entry 12). -/
  inputs : List Event
  /-- The model's own: the bytes the host's latest read returned (R121, R122; log entry 13). -/
  hostData : List Byte
  deriving DecidableEq, Repr

/-- What stops the machine. -/
inductive Fault where
  /-- Raised by a host memory access (never by a command) whose address the platform does not answer or which lies
  outside the memory space; the spec gives such a host access no effect. Safe: the model stops where the platform may
  go on (log entry 10). -/
  | hostAccessUnanswered (addr : Nat)
  deriving DecidableEq, Repr

/-- Why an instruction has no meaning. -/
inductive Refusal where
  /-- Raised by an arm of exec whose instruction has no meaning in the model; no arm raises it now. Safe: the model
  stops where the hardware goes on. -/
  | notModelled (mnemonic : String)
  deriving DecidableEq, Repr

/-- The complex value of two zero words, the model's reset value of a datapath pair (log entry 1). -/
def zeroC : Cplx := ⟨0, 0⟩

/-- Counters and datapath registers after reset: unspecified by R43, R44 and R48; the model takes zeros (log entry 1). -/
def Datapath.reset : Datapath where
  bitI := 0
  bitR := 0
  stage := 0
  blk := 0
  pos := 0
  k := 0
  omega := zeroC
  w := zeroC
  xu := zeroC
  xv := zeroC
  temp := zeroC
  wk := zeroC
  scale := 0

/-- The machine right after reset (R48, R310): the values of rule R48, the unspecified internal registers zero (log
entry 1), nothing listed in memory (log entry 2), every address answered (log entry 9), nothing pending. -/
def State.reset : State where
  busy := false
  done := false
  ovr := false
  errcode := .ok
  doneIe := false
  len := 0
  xre := 0
  xim := 0
  yre := 0
  yim := 0
  scr := 0
  scrsz := 0
  ph := .idle
  cmd := 0
  n := 0
  mlen := 0
  vlen := 0
  dp := .reset
  mem := []
  holes := []
  raced := false
  unseen := []
  draws := 0
  inputs := []
  hostData := []

end Sys2Proof.Machine
end

