-- ==== Sys2Proof/Machine/Ops.lean ====
section
/-! DEFINITION. The named operations over memory and registers: the memory port (R16, R60, R64), bounded loops, the
launch (R130) and the completion (R134, R136), which is what this hardware has in place of taking an exception (R293),
with the acknowledgement in place of a return (R294). -/

namespace Sys2Proof.Machine

open Sys2Proof

/-! ### Memory -/

/-- What a byte that nothing has written reads as (R48: the platform's; log entry 2). -/
def Memory.unlisted : Byte := 0

/-- The byte at an address. -/
def Memory.readByte : Memory → Nat → Byte
  | [], _ => Memory.unlisted
  | (x, b) :: m, a => if x = a then b else Memory.readByte m a

/-- The memory with an address no longer listed. -/
def Memory.erase : Memory → Nat → Memory
  | [], _ => []
  | (x, b) :: m, a => if x = a then Memory.erase m a else (x, b) :: Memory.erase m a

/-- The memory with a byte listed at its place in the rising order. -/
def Memory.insert : Memory → Nat → Byte → Memory
  | [], a, v => [(a, v)]
  | (x, b) :: m, a, v =>
    if x < a then (x, b) :: Memory.insert m a v
    else if x = a then (a, v) :: m
    else (a, v) :: (x, b) :: m

/-- The memory after a byte is written: the canonical form is kept. -/
def Memory.writeByte (m : Memory) (a : Nat) (v : Byte) : Memory :=
  if v = Memory.unlisted then Memory.erase m a else Memory.insert m a v

/-- Every address listed is above `lo`, rising, and no listed byte equals what an unlisted one reads as. -/
def Memory.wfAbove : Option Nat → Memory → Bool
  | _, [] => true
  | lo, (x, b) :: m =>
    (match lo with
      | none => true
      | some l => decide (l < x)) && decide (b ≠ Memory.unlisted) && Memory.wfAbove (some x) m

/-- The canonical form of a memory: addresses strictly rising, no entry equal to what an unlisted address reads as. -/
def Memory.wf (m : Memory) : Bool := Memory.wfAbove none m

/-- `MemRead32` (R16) in the byte order of rule R60. -/
def Memory.read32 (m : Memory) (a : Nat) : Word :=
  wordOfBytes (Memory.readByte m a) (Memory.readByte m (a + 1)) (Memory.readByte m (a + 2)) (Memory.readByte m (a + 3))

/-- Write bytes at rising addresses. -/
def Memory.writeBytes (m : Memory) (a : Nat) : List Byte → Memory
  | [] => m
  | b :: bs => Memory.writeBytes (Memory.writeByte m a b) (a + 1) bs

/-- `MemWrite32` (R16) in the byte order of rule R60. -/
def Memory.write32 (m : Memory) (a : Nat) (v : Word) : Memory := Memory.writeBytes m a (bytesOfWord v)

/-- The bytes at rising addresses. -/
def Memory.readBytes (m : Memory) (a : Nat) : Nat → List Byte
  | 0 => []
  | k + 1 => Memory.readByte m a :: Memory.readBytes m (a + 1) k

/-! ### Loops and vectors -/

/-- `for i in [lo, lo + cnt)` (R16): the body at lo, lo + 1, and so on, in that order. -/
def forRange {α : Type} (body : Nat → α → α) : Nat → Nat → α → α
  | _, 0, x => x
  | lo, cnt + 1, x => forRange body (lo + 1) cnt (body lo x)

/-- The bases of a vector's real and imaginary arrays (R15, R61). -/
structure Bases where
  re : Nat
  im : Nat
  deriving DecidableEq, Repr

/-- `X[k]` (R15). -/
def readC (m : Memory) (v : Bases) (k : Nat) : Cplx :=
  ⟨Memory.read32 m (v.re + 4 * k), Memory.read32 m (v.im + 4 * k)⟩

/-- `X[k] <- z` (R15): the real part, then the imaginary part. -/
def writeC (m : Memory) (v : Bases) (k : Nat) (z : Cplx) : Memory :=
  Memory.write32 (Memory.write32 m (v.re + 4 * k) z.re) (v.im + 4 * k) z.im

/-- What a phase works on: the datapath registers and the memory. -/
structure Work where
  dp : Datapath
  mem : Memory
  deriving DecidableEq, Repr

/-! ### Byte ranges -/

/-- Whether an address lies in a region. -/
def Region.has (r : Region) (a : Nat) : Bool := decide (r.base ≤ a) && decide (a < r.base + r.size)

/-- Whether an address lies in one of several regions. -/
def inRegions (rs : List Region) (a : Nat) : Bool := rs.any (fun r => r.has a)

/-- Every byte of a region at any value (R76, R312): each byte a free value of its own. -/
def Memory.havocRegion (d : Draw) (m : Memory) (r : Region) : Memory :=
  forRange (fun a m => Memory.writeByte m a (Config.anyByte (a :: d))) r.base r.size m

/-- Every byte of several regions at any value. -/
def Memory.havoc (d : Draw) (m : Memory) (rs : List Region) : Memory := rs.foldl (Memory.havocRegion d) m

/-! ### Memory admission (R68) -/

/-- A byte range the unit or the host accesses, and whether it writes it. -/
structure Access where
  base : Nat
  size : Nat
  writes : Bool
  deriving DecidableEq, Repr

/-- Whether a hole of the platform's memory refuses an access (MemAdmit, R11(c), R68). DESIGN CHOICE (log entry 27): an
access with one byte in the hole is refused whole; R11(c) speaks of byte addresses and R68 of the address of an access,
and neither says what an access is that is answered in part. -/
def Hole.refuses (h : Hole) (a : Access) : Bool :=
  (if a.writes then h.writes else h.reads) &&
    decide (max h.lo a.base < min h.hi (a.base + a.size))

/-- Whether the platform's memory answers every byte of an access: it lies in the memory space (R62) and no hole
refuses it (R68; log entry 27 for an access that is only in part in a hole). -/
def State.answers (s : State) (a : Access) : Bool :=
  (decide (a.size = 0) || decide (a.base + a.size ≤ Config.memSize)) && s.holes.all (fun h => !h.refuses a)

/-! ### Launch, completion, acknowledgement -/

/-- The sequencer at the start of a list of phases (R40). -/
def PH.ofList : List Phase → PH
  | [] => .idle
  | p :: rest => .run p rest

/-- Launch (R130): latch the word, BUSY <- 1, DONE <- 0, ERRCODE <- 0, PH <- Run(Check); OVR keeps its value. -/
def State.launch (s : State) (c : Word) : State :=
  { s with cmd := c, busy := true, done := false, errcode := .ok, ph := .run .check [] }

/-- Completion (R136), with code 0 on success and the error's code otherwise (R134): the one operation by which a
command's outcome reaches the host. It saves nothing and transfers control nowhere (R293); OVR keeps its value. DEDUCED
(log entry 22): R41 and R42 say nothing of the latched word, n, M and L after completion, and the model keeps them. -/
def State.complete (s : State) (code : ErrCode) : State :=
  { s with busy := false, done := true, errcode := code, ph := .idle }

/-- A write of STATUS (R126, R294): bit 1 clears DONE, bit 3 clears OVR, every other bit is ignored. DEDUCED (log entry 26):
ERRCODE stays, as R126, R294 and D28 say, although R311 says that such a write with 0 in IRQEN brings STATUS to its reset
value. -/
def State.acknowledge (s : State) (v : Word) : State :=
  { s with done := s.done && !v.getLsbD 1, ovr := s.ovr && !v.getLsbD 3 }

end Sys2Proof.Machine
end

