-- ==== Sys2Proof/Machine/Flags.lean ====
section
/-! DEFINITION. STATUS and IRQEN as the host sees them, and the interrupt line (R24, R25, R32, R33, R295). The unit has
no arithmetic flags (R32). -/

namespace Sys2Proof.Machine

open Sys2Proof

/-- The number of an error code (R280). -/
def ErrCode.toNat : ErrCode → Nat
  | .ok => 0
  | .illegalCmd => 1
  | .invalidLength => 2
  | .notPow2 => 3
  | .badStage => 4
  | .tooLong => 5
  | .misaligned => 6
  | .range => 7
  | .overlap => 8
  | .allocFail => 9

/-- STATUS.ERR (R24): ERRCODE is not 0. -/
def State.err (s : State) : Bool := s.errcode != .ok

/-- The STATUS word (R24, R122): ERRCODE at 11:8, OVR at 3, ERR at 2, DONE at 1, BUSY at 0, zeros elsewhere. -/
def State.statusWord (s : State) : Word :=
  BitVec.ofNat 32
    (s.errcode.toNat * 256 + s.ovr.toNat * 8 + s.err.toNat * 4 + s.done.toNat * 2 + s.busy.toNat)

/-- The IRQEN word (R25, R122). -/
def State.irqenWord (s : State) : Word := BitVec.ofNat 32 s.doneIe.toNat

/-- A write of IRQEN (R127). -/
def State.writeIrqen (s : State) (v : Word) : State := { s with doneIe := v.getLsbD 0 }

/-- The interrupt line (R295): IRQEN.DONE_IE AND STATUS.DONE. -/
def State.irq (s : State) : Bool := s.doneIe && s.done

/-- The dropped write of the busy rule (R125): STATUS.OVR <- 1. -/
def State.dropWrite (s : State) : State := { s with ovr := true }

end Sys2Proof.Machine
end

