-- ==== Sys2Proof/Machine/Operands.lean ====
section
/-! DEFINITION. Operand assembly (R95), the vectors and regions of a command (R61, R66, R250), the path of DFT (R262)
and the check procedure (R133, R280 to R290). -/

namespace Sys2Proof.Machine

open Sys2Proof

/-! ### Lengths and paths -/

/-- `(n & (n - 1)) = 0` (R133, R262). -/
def isPow2 (n : Nat) : Bool := n &&& (n - 1) == 0

/-- M (R250): the smallest power of two with M ≥ 2n - 1, for n ≥ 1 (log entry 7). -/
def paddedLength (n : Nat) : Nat := if 2 * n - 1 ≤ 1 then 1 else 2 ^ ((2 * n - 2).log2 + 1)

/-- FFT2.F, FFT2.I, BITREV, STAGE: `r2` of rule R133. -/
def isRadix2 : Instr → Bool
  | .fft2F | .fft2I | .bitrev | .stage _ => true
  | .nop | .dftF | .dftI | .blueF | .blueI | .conj | .scale | .cmul | .chirpN | .chirpP => false

/-- DFT.F, DFT.I (R262). -/
def isDft : Instr → Bool
  | .dftF | .dftI => true
  | .nop | .fft2F | .fft2I | .blueF | .blueI | .bitrev | .stage _ | .conj | .scale | .cmul | .chirpN | .chirpP => false

/-- BLUE.F, BLUE.I. -/
def isBlue : Instr → Bool
  | .blueF | .blueI => true
  | .nop | .dftF | .dftI | .fft2F | .fft2I | .bitrev | .stage _ | .conj | .scale | .cmul | .chirpN | .chirpP => false

/-- `blue` of rule R133: the command runs the Bluestein path at length n. -/
def onBluestein (i : Instr) (n : Nat) : Bool := isBlue i || (isDft i && !isPow2 n)

/-- `direct` of rule R133: the command runs the radix-2 path at length n. -/
def onRadix2 (i : Instr) (n : Nat) : Bool := isRadix2 i || (isDft i && isPow2 n)

/-- `c = STAGE(s) and (s = 0 or 2^s > n)` (R133, R284). -/
def badStage (i : Instr) (n : Nat) : Bool :=
  match i with
  | .stage s => decide (s = 0) || decide (n < 2 ^ s)
  | .nop | .dftF | .dftI | .fft2F | .fft2I | .blueF | .blueI | .bitrev | .conj | .scale | .cmul | .chirpN
  | .chirpP => false

/-! ### Regions -/

/-- The X regions (R66): `RX` of rule R133. -/
def State.xRegions (s : State) : List Region :=
  [⟨s.xre.toNat, 4 * s.len.toNat⟩, ⟨s.xim.toNat, 4 * s.len.toNat⟩]

/-- The Y regions (R66): `RY` of rule R133. -/
def State.yRegions (s : State) : List Region :=
  [⟨s.yre.toNat, 4 * s.len.toNat⟩, ⟨s.yim.toNat, 4 * s.len.toNat⟩]

/-- The scratch region (R66, R250): `RS` of rule R133. -/
def State.scratchRegion (s : State) : Region := ⟨s.scr.toNat, 24 * paddedLength s.len.toNat⟩

/-- Every region a command uses: `RX ++ RY ++ RS` of rule R133. -/
def State.usedRegions (s : State) (i : Instr) : List Region :=
  s.xRegions ++ (if i = .cmul then s.yRegions else []) ++
    (if onBluestein i s.len.toNat then [s.scratchRegion] else [])

/-- `ovl` (R133). -/
def Region.overlaps (r q : Region) : Bool := decide (r.base < q.base + q.size) && decide (q.base < r.base + r.size)

/-! ### The check procedure -/

/-- Two distinct arrays of X share a byte (R133, R288). -/
def State.xOverlap (s : State) : Bool :=
  Region.overlaps ⟨s.xre.toNat, 4 * s.len.toNat⟩ ⟨s.xim.toNat, 4 * s.len.toNat⟩

/-- The overlaps of CMUL's Y (R133, R288): its two arrays with each other, or with an X array of another base. -/
def State.yOverlap (s : State) : Bool :=
  Region.overlaps ⟨s.yre.toNat, 4 * s.len.toNat⟩ ⟨s.yim.toNat, 4 * s.len.toNat⟩ ||
    s.yRegions.any (fun y => s.xRegions.any (fun x => y.overlaps x && (y.base != x.base)))

/-- The scratch range shares a byte with an X array (R133, R288). -/
def State.scratchOverlap (s : State) : Bool := s.xRegions.any (fun x => s.scratchRegion.overlaps x)

/-- OVERLAP's condition for a command (R133, R288). -/
def State.overlapFails (s : State) (i : Instr) : Bool :=
  s.xOverlap || (decide (i = .cmul) && s.yOverlap) || (onBluestein i s.len.toNat && s.scratchOverlap)

/-- TOO_LONG's condition for a command (R133, R285). -/
def State.tooLongFails (s : State) (i : Instr) : Bool :=
  (onRadix2 i s.len.toNat && decide (Config.nMax < s.len.toNat)) ||
    (onBluestein i s.len.toNat && decide (Config.nMax < paddedLength s.len.toNat))

/-- `check()` of rule R133 for a decoded command: the code of the first check that fails, in the rule's order (R290),
or OK. It reads registers only. -/
def check (i : Instr) (s : State) : ErrCode :=
  let n := s.len.toNat
  if i = .nop then .ok
  else if n = 0 ∨ 2 ^ 31 ≤ n then .invalidLength
  else if isRadix2 i && !isPow2 n then .notPow2
  else if badStage i n then .badStage
  else if s.tooLongFails i then .tooLong
  else if (s.usedRegions i).any (fun r => decide (r.base % 4 ≠ 0)) then .misaligned
  else if (s.usedRegions i).any (fun r => decide (Config.memSize < r.base + r.size)) then .range
  else if s.overlapFails i then .overlap
  else if onBluestein i n && decide (s.scrsz.toNat < 24 * paddedLength n) then .allocFail
  else .ok

/-! ### What a command reads and writes -/

/-- The read-write regions of a command (R66): none for NOP and for a command that fails its check. -/
def State.rwRegions (s : State) (i : Instr) : List Region :=
  if i = .nop ∨ check i s ≠ .ok then []
  else s.xRegions ++ (if onBluestein i s.len.toNat then [s.scratchRegion] else [])

/-- The read-only regions of a command (R66): Y, for CMUL. -/
def State.roRegions (s : State) (i : Instr) : List Region :=
  if i = .cmul ∧ check i s = .ok then s.yRegions else []

/-- Take the operands (R42, R132): n is LEN, M the padded length of the Bluestein path. NOP takes none (R140). -/
def State.takeOperands (s : State) (i : Instr) : State :=
  if i = .nop then s
  else
    { s with
      n := s.len
      mlen := if onBluestein i s.len.toNat then BitVec.ofNat 32 (paddedLength s.len.toNat) else s.mlen }

/-- The bases of a vector: X and Y from their registers (R27, R28), A, B and C in the scratch region (R250). DEDUCED (log
entry 23): R265 puts the transformed A and B in [SCR, SCR + 8M), where R250's table and D9 put A alone; the model follows
R250 and D9, so that B is at [SCR + 8M, SCR + 16M). -/
def State.bases (s : State) : Vec → Bases
  | .x => ⟨s.xre.toNat, s.xim.toNat⟩
  | .y => ⟨s.yre.toNat, s.yim.toNat⟩
  | .a => ⟨s.scr.toNat, s.scr.toNat + 4 * s.mlen.toNat⟩
  | .b => ⟨s.scr.toNat + 8 * s.mlen.toNat, s.scr.toNat + 12 * s.mlen.toNat⟩
  | .c => ⟨s.scr.toNat + 16 * s.mlen.toNat, s.scr.toNat + 20 * s.mlen.toNat⟩

/-- The length register's value for a vector (R42): n for X and Y, M for the scratch buffers. -/
def State.lengthOf (s : State) : Vec → Word
  | .x | .y => s.n
  | .a | .b | .c => s.mlen

end Sys2Proof.Machine
end

