-- ==== Sys2Proof/Machine/Engine.lean ====
section
/-! DEFINITION. The operations of the engine and of the Bluestein controller as loops over the datapath registers and
the memory, each written from its pseudocode: BitRev (R201), Stage (R203, R204), Conj (R211), Scale (R213), ChirpMul
(R242), Zero (R251), ChirpFill (R252), PointMul (R254), Extract (R256). The draw `d` names the phase (log entry 3). -/

namespace Sys2Proof.Machine

open Sys2Proof

/-! ### BitRev (R201) -/

/-- The update of the reversed-index counter: clear the set bits from `bit` down, then set the next (R201). `fuel`
bounds the while loop. -/
def revNext : (fuel bit r : Nat) → Nat
  | 0, bit, r => r ^^^ bit
  | fuel + 1, bit, r => if r &&& bit ≠ 0 then revNext fuel (bit / 2) (r ^^^ bit) else r ^^^ bit

/-- The counter after the update for a vector of length `l`: the while loop runs at most once for each bit of the
index. -/
def revStep (l r : Nat) : Nat := revNext (l.log2 + 1) (l / 2) r

/-- Exchange two words of memory (R201). -/
def swap32 (m : Memory) (p q : Nat) : Memory :=
  let a := Memory.read32 m p
  let b := Memory.read32 m q
  Memory.write32 (Memory.write32 m p b) q a

/-- One index of the pass: each pair is exchanged once, at its smaller index (R201). -/
def bitRevStep (v : Bases) (l : Nat) (i : Nat) (x : Work) : Work :=
  let r := revStep l x.dp.bitR
  { dp := { x.dp with bitI := i, bitR := r }
    mem :=
      if i < r then
        swap32 (swap32 x.mem (v.re + 4 * i) (v.re + 4 * r)) (v.im + 4 * i) (v.im + 4 * r)
      else x.mem }

/-- `BitRev(V, L)` (R201). -/
def bitRevPass (v : Bases) (l : Nat) (x : Work) : Work :=
  forRange (bitRevStep v l) 1 (l - 1) { x with dp := { x.dp with bitR := 0 } }

/-! ### Stage (R203) -/

/-- The product `temp` of a butterfly (R204). -/
def bflyTemp (d : Draw) (xv w : Cplx) : Cplx := cmul (0 :: d) xv w

/-- `yu` of a butterfly (R204): the old x[u] plus temp. -/
def bflyU (d : Draw) (xu temp : Cplx) : Cplx := ⟨add32 (1 :: d) xu.re temp.re, add32 (2 :: d) xu.im temp.im⟩

/-- `yv` of a butterfly (R204): the old x[u] minus temp. -/
def bflyV (d : Draw) (xu temp : Cplx) : Cplx := ⟨sub32 (3 :: d) xu.re temp.re, sub32 (4 :: d) xu.im temp.im⟩

/-- One position of a block (R203): the butterfly of the pair (u, v), then the advance of the rotation register, but
for the last position (R176). DESIGN CHOICE (log entry 28): the advance draws the bits of a NaN part anew in each block
(R162), where R176 has the sequence of rotation values the same in every block of a stage. -/
def stagePosition (v : Bases) (half blk : Nat) (d : Draw) (j : Nat) (x : Work) : Work :=
  let d' := j :: blk :: d
  let xu := readC x.mem v (blk + j)
  let xv := readC x.mem v (blk + j + half)
  let temp := bflyTemp d' xv x.dp.w
  { dp :=
      { x.dp with
        pos := j
        xu := xu
        xv := xv
        temp := temp
        w := if j + 1 < half then cmul (5 :: d') x.dp.w x.dp.omega else x.dp.w }
    mem := writeC (writeC x.mem v (blk + j + half) (bflyV d' xu temp)) v (blk + j) (bflyU d' xu temp) }

/-- One block of a stage (R203): the rotation register restarts at (1.0, +0.0) (R176). -/
def stageBlock (v : Bases) (half : Nat) (d : Draw) (b : Nat) (x : Work) : Work :=
  forRange (stagePosition v half (b * (2 * half)) d) 0 half
    { x with dp := { x.dp with blk := b * (2 * half), w := oneC } }

/-- `Stage(V, L, s)` (R203) with base twiddle `tw`: the blocks in increasing address order. -/
def stagePass (v : Bases) (l s : Nat) (tw : Cplx) (d : Draw) (x : Work) : Work :=
  forRange (stageBlock v (2 ^ (s - 1)) d) 0 (l / 2 ^ s) { x with dp := { x.dp with stage := s, omega := tw } }

/-! ### Conj and Scale (R211, R213) -/

/-- One element of Conj: only the imaginary array is read and written (R211). -/
def conjStep (v : Bases) (k : Nat) (x : Work) : Work :=
  { dp := { x.dp with k := k }
    mem := Memory.write32 x.mem (v.im + 4 * k) (neg32 (Memory.read32 x.mem (v.im + 4 * k))) }

/-- `Conj(V, L)` (R211). -/
def conjPass (v : Bases) (l : Nat) (x : Work) : Work := forRange (conjStep v) 0 l x

/-- One element of Scale: read re, write re, read im, write im (R213). -/
def scaleStep (v : Bases) (r : Word) (d : Draw) (k : Nat) (x : Work) : Work :=
  let m := Memory.write32 x.mem (v.re + 4 * k) (mul32 (0 :: k :: d) (Memory.read32 x.mem (v.re + 4 * k)) r)
  { dp := { x.dp with k := k }
    mem := Memory.write32 m (v.im + 4 * k) (mul32 (1 :: k :: d) (Memory.read32 m (v.im + 4 * k)) r) }

/-- `Scale(V, L, d)` with divisor `l` (R213). -/
def scalePass (v : Bases) (l : Nat) (d : Draw) (x : Work) : Work :=
  forRange (scaleStep v (recip32 l) d) 0 l { x with dp := { x.dp with scale := recip32 l } }

/-! ### Elementwise operations (R240, R242, R254) -/

/-- One element of ChirpMul (R242): times W_n[k], or its conjugate for exp(-iφ). -/
def chirpMulStep (t : Config.Trig) (v : Bases) (n : Nat) (neg : Bool) (d : Draw) (k : Nat) (x : Work) : Work :=
  let wk := if neg then conjC (chirp t n k) else chirp t n k
  { dp := { x.dp with k := k, wk := wk }
    mem := writeC x.mem v k (cmul (k :: d) (readC x.mem v k) wk) }

/-- `ChirpMul(V, L, sgn)` (R242). -/
def chirpMulPass (t : Config.Trig) (v : Bases) (n : Nat) (neg : Bool) (d : Draw) (x : Work) : Work :=
  forRange (chirpMulStep t v n neg d) 0 n x

/-- One element of PointMul (R254): both factors are read whole before the product is written (R240). -/
def pointMulStep (dst p q : Bases) (d : Draw) (k : Nat) (x : Work) : Work :=
  { dp := { x.dp with k := k }
    mem := writeC x.mem dst k (cmul (k :: d) (readC x.mem p k) (readC x.mem q k)) }

/-- `PointMul(D, P, Q, L)` (R254). -/
def pointMulPass (dst p q : Bases) (l : Nat) (d : Draw) (x : Work) : Work := forRange (pointMulStep dst p q d) 0 l x

/-! ### The Bluestein controller's own phases (R251, R252, R256) -/

/-- One word of Zero (R251). -/
def zeroStep (scr : Nat) (k : Nat) (x : Work) : Work :=
  { dp := { x.dp with k := k }, mem := Memory.write32 x.mem (scr + 4 * k) zero32 }

/-- `Zero()` (R251): all 6·M words of the scratch region. -/
def zeroPass (scr m : Nat) (x : Work) : Work := forRange (zeroStep scr) 0 (6 * m) x

/-- One index of ChirpFill (R252): A[k], B[k], and the mirror B[M - k], a plain copy of W_n[k]. -/
def chirpFillStep (t : Config.Trig) (vx va vb : Bases) (n m : Nat) (d : Draw) (k : Nat) (x : Work) : Work :=
  let wk := chirp t n k
  let m1 := writeC x.mem va k (cmul (k :: d) (readC x.mem vx k) (conjC wk))
  let m2 := writeC m1 vb k wk
  { dp := { x.dp with k := k, wk := wk }
    mem := if 0 < k then writeC m2 vb (m - k) wk else m2 }

/-- `ChirpFill()` (R252). -/
def chirpFillPass (t : Config.Trig) (vx va vb : Bases) (n m : Nat) (d : Draw) (x : Work) : Work :=
  forRange (chirpFillStep t vx va vb n m d) 0 n x

/-- One element of Extract (R256): X[k] from C[k] and the recomputed chirp (R182). -/
def extractStep (t : Config.Trig) (vx vc : Bases) (n : Nat) (d : Draw) (k : Nat) (x : Work) : Work :=
  let wk := chirp t n k
  { dp := { x.dp with k := k, wk := wk }
    mem := writeC x.mem vx k (cmul (k :: d) (readC x.mem vc k) (conjC wk)) }

/-- `Extract()` (R256). -/
def extractPass (t : Config.Trig) (vx vc : Bases) (n : Nat) (d : Draw) (x : Work) : Work :=
  forRange (extractStep t vx vc n d) 0 n x

end Sys2Proof.Machine
end

