-- ==== Sys2Proof/Machine/Sequencer.lean ====
section
/-! DEFINITION. The sequencer (R40): what each phase accesses, what each phase does, and a command as its check
followed by its list of phases and Finish (R131 to R136). -/

namespace Sys2Proof.Machine

open Sys2Proof

/-! ### What a phase accesses (R68) -/

/-- The reads of an element: the real part, then the imaginary part (R15, R240). -/
def elementReads (v : Bases) (k : Nat) : List Access := [⟨v.re + 4 * k, 4, false⟩, ⟨v.im + 4 * k, 4, false⟩]

/-- The writes of an element, in the same order (R15). -/
def elementWrites (v : Bases) (k : Nat) : List Access := [⟨v.re + 4 * k, 4, true⟩, ⟨v.im + 4 * k, 4, true⟩]

/-- rev(i) of rule R201: the `bits` low bits of `i` in reverse order. -/
def revBits : (bits i : Nat) → Nat
  | 0, _ => 0
  | bits + 1, i => (i % 2) * 2 ^ bits + revBits bits (i / 2)

/-- The accesses of an exchange of two words of an array (R201). -/
def swapAccesses (a i r : Nat) : List Access :=
  [⟨a + 4 * i, 4, false⟩, ⟨a + 4 * r, 4, false⟩, ⟨a + 4 * i, 4, true⟩, ⟨a + 4 * r, 4, true⟩]

/-- The half block length of a stage (R203). -/
def halfBlock (g : Nat) : Nat := 2 ^ (g - 1)

/-- The element u of the `q`-th butterfly of a stage, blocks outer and positions inner (R203). -/
def butterflyAt (g q : Nat) : Nat := q / halfBlock g * (2 * halfBlock g) + q % halfBlock g

/-- How many iterations the loop of a phase has. A stage's iterations are its butterflies. -/
def iterationCount (p : Phase) (s : State) : Nat :=
  match p with
  | .check | .finish => 0
  | .conj v | .bitRev v | .scale v | .pointMul v _ _ => (s.lengthOf v).toNat
  | .stage v g => (s.lengthOf v).toNat / 2 ^ g * halfBlock g
  | .zero => 6 * s.mlen.toNat
  | .chirpFill | .extract | .chirpMul _ => s.n.toNat

/-- The word accesses of iteration `k` of a phase, in the order of its pseudocode (R201 to R256). -/
def iterationAccesses (p : Phase) (s : State) (k : Nat) : List Access :=
  match p with
  | .check | .finish => []
  | .conj v => [⟨(s.bases v).im + 4 * k, 4, false⟩, ⟨(s.bases v).im + 4 * k, 4, true⟩]
  | .bitRev v =>
    let r := revBits (s.lengthOf v).toNat.log2 k
    if k < r then swapAccesses (s.bases v).re k r ++ swapAccesses (s.bases v).im k r else []
  | .stage v g =>
    let u := butterflyAt g k
    elementReads (s.bases v) u ++ elementReads (s.bases v) (u + halfBlock g) ++
      elementWrites (s.bases v) (u + halfBlock g) ++ elementWrites (s.bases v) u
  | .scale v =>
    [⟨(s.bases v).re + 4 * k, 4, false⟩, ⟨(s.bases v).re + 4 * k, 4, true⟩, ⟨(s.bases v).im + 4 * k, 4, false⟩,
      ⟨(s.bases v).im + 4 * k, 4, true⟩]
  | .zero => [⟨s.scr.toNat + 4 * k, 4, true⟩]
  | .chirpFill =>
    elementReads (s.bases .x) k ++ elementWrites (s.bases .a) k ++ elementWrites (s.bases .b) k ++
      (if 0 < k then elementWrites (s.bases .b) (s.mlen.toNat - k) else [])
  | .pointMul d p q => elementReads (s.bases p) k ++ elementReads (s.bases q) k ++ elementWrites (s.bases d) k
  | .extract => elementReads (s.bases .c) k ++ elementWrites (s.bases .x) k
  | .chirpMul _ => elementReads (s.bases .x) k ++ elementWrites (s.bases .x) k

/-- Every memory access of a phase, in order. -/
def phaseAccesses (p : Phase) (s : State) : List Access :=
  (List.range (iterationCount p s)).flatMap (iterationAccesses p s)

/-- Every access of the phase is answered (R68). -/
def phaseAdmitted (p : Phase) (s : State) : Bool := (phaseAccesses p s).all s.answers

/-- The accesses of a phase before the first that is refused: those the unit performs (R68). -/
def answeredAccesses (p : Phase) (s : State) : List Access := (phaseAccesses p s).takeWhile s.answers

/-- The iteration in which a phase meets its first refused access. -/
def refusedIteration (p : Phase) (s : State) : Nat :=
  ((List.range (iterationCount p s)).find? (fun k => !(iterationAccesses p s k).all s.answers)).getD 0

/-! ### What a phase does -/

/-- Run a phase's operation on the datapath registers and the memory; the draw counter advances. -/
def State.work (s : State) (f : Draw → Work → Work) : State :=
  let x := f [s.draws, 0] ⟨s.dp, s.mem⟩
  { s with dp := x.dp, mem := x.mem, draws := s.draws + 1 }

/-- Set the length register L (R42). -/
def State.setLength (s : State) (v : Vec) : State := { s with vlen := s.lengthOf v }

/-- The end of a race (R76(b)): the words of the command's read-write regions are any value. -/
def State.settleRace (s : State) (i : Instr) : State :=
  if s.raced then
    { s with mem := Memory.havoc [s.draws, 3] s.mem (s.rwRegions i), raced := false, draws := s.draws + 1 }
  else s

/-- The end of a command (R134, R136): the race, if there was one, then completion. From here until the host reads
DONE = 1 the command's read-write regions are unseen results (R71); a failed command has none (R66). -/
def State.finishCommand (s : State) (i : Instr) (code : ErrCode) : State :=
  { (s.settleRace i).complete code with unseen := s.unseen ++ s.rwRegions i }

/-- One phase of a command (R40). Check is not run here: `beginCommand` runs it. -/
def doPhase (t : Config.Trig) (i : Instr) (p : Phase) (s : State) : State :=
  match p with
  | .check => s
  | .conj v => (s.setLength v).work (fun _ => conjPass (s.bases v) (s.lengthOf v).toNat)
  | .bitRev v => (s.setLength v).work (fun _ => bitRevPass (s.bases v) (s.lengthOf v).toNat)
  | .stage v k => (s.setLength v).work (stagePass (s.bases v) (s.lengthOf v).toNat k (twiddle t k))
  | .scale v => (s.setLength v).work (scalePass (s.bases v) (s.lengthOf v).toNat)
  | .zero => s.work (fun _ => zeroPass s.scr.toNat s.mlen.toNat)
  | .chirpFill => s.work (chirpFillPass t (s.bases .x) (s.bases .a) (s.bases .b) s.n.toNat s.mlen.toNat)
  | .pointMul d p q => s.work (pointMulPass (s.bases d) (s.bases p) (s.bases q) (s.lengthOf d).toNat)
  | .extract => s.work (extractPass t (s.bases .x) (s.bases .c) s.n.toNat)
  | .chirpMul neg => s.work (chirpMulPass t (s.bases .x) s.n.toNat neg)
  | .finish => s.finishCommand i .ok

/-- One phase and the move to the next (R40). -/
def advance (t : Config.Trig) (i : Instr) (p : Phase) (rest : List Phase) (s : State) : State :=
  { doPhase t i p s with ph := PH.ofList rest }

/-! ### A refused access (R68) -/

/-- Copy the words that some accesses write from a later memory. -/
def copyWrites (late : Memory) (m : Memory) (as : List Access) : Memory :=
  as.foldl (fun m a => if a.writes then Memory.write32 m a.base (Memory.read32 late a.base) else m) m

/-- The datapath registers of a stage that stops in its butterfly `q` after `done` of its accesses (R203): xu is loaded
by the first two reads, xv by the next two, and temp is computed from them; w has not moved on from this position. -/
def stoppedStage (v : Bases) (g q done : Nat) (tw : Cplx) (d : Draw) (x : Work) : Datapath :=
  let b := q / halfBlock g
  let y := forRange (stageBlock v (halfBlock g) d) 0 b { x with dp := { x.dp with stage := g, omega := tw } }
  let z :=
    forRange (stagePosition v (halfBlock g) (b * (2 * halfBlock g)) d) 0 (q % halfBlock g)
      { y with dp := { y.dp with blk := b * (2 * halfBlock g), w := oneC } }
  let full := (stagePosition v (halfBlock g) (b * (2 * halfBlock g)) d (q % halfBlock g) z).dp
  { z.dp with
    pos := full.pos
    xu := if 2 ≤ done then full.xu else z.dp.xu
    xv := if 4 ≤ done then full.xv else z.dp.xv
    temp := if 4 ≤ done then full.temp else z.dp.temp }

/-- The counters and datapath registers of a phase that stops in iteration `k` after `done` of its accesses (R43,
R44). -/
def stoppedDatapath (t : Config.Trig) (p : Phase) (k done : Nat) (s : State) : Datapath :=
  match p with
  | .check | .finish => s.dp
  | .conj _ | .zero | .pointMul _ _ _ => { s.dp with k := k }
  | .bitRev v => { s.dp with bitI := k, bitR := revBits (s.lengthOf v).toNat.log2 k }
  | .stage v g => stoppedStage (s.bases v) g k done (twiddle t g) [s.draws, 0] ⟨s.dp, s.mem⟩
  | .scale v => { s.dp with k := k, scale := recip32 (s.lengthOf v).toNat }
  | .chirpFill => { s.dp with k := k, wk := chirp t s.n.toNat k }
  | .extract => { s.dp with k := k, wk := chirp t s.n.toNat k }
  | .chirpMul neg => { s.dp with k := k, wk := if neg then conjC (chirp t s.n.toNat k) else chirp t s.n.toNat k }

/-- A phase that meets a refused access (R68, R322): the refused one has no step and the unit stays in the phase. DESIGN
CHOICE (log entry 9): the accesses before it, in the order of the pseudocode, are performed. A phase of a checked command writes no word twice, so a word written by a performed
access holds what the whole phase writes there, and every other word is as before the phase. -/
def stopPhase (t : Config.Trig) (i : Instr) (p : Phase) (rest : List Phase) (s : State) : State :=
  let k := refusedIteration p s
  { doPhase t i p s with
    mem := copyWrites (doPhase t i p s).mem s.mem (answeredAccesses p s)
    dp := stoppedDatapath t p k ((iterationAccesses p s k).takeWhile s.answers).length s
    ph := .stuck p rest }

/-- The phases of a command one after the other; a phase that is not admitted stops the unit in it (R68, R322). -/
def runPhases (t : Config.Trig) (i : Instr) : List Phase → State → State
  | [], s => s
  | p :: rest, s =>
    let s := { s with ph := .run p rest }
    if phaseAdmitted p s then runPhases t i rest (advance t i p rest s) else stopPhase t i p rest s

/-! ### Commands -/

/-- The Check phase (R131, R133): on an error the command ends at once (R134), otherwise the operands are taken and the
sequencer moves to the first phase. DEDUCED (log entry 25): a command that fails its check leaves the registers n and M
as they were (R291), although check() assigns its n and M before it can fail (R133) and R42 has n read at launch. -/
def beginCommand (i : Instr) (phases : List Phase) (s : State) : State :=
  match check i s with
  | .ok => { s.takeOperands i with ph := PH.ofList (phases ++ [.finish]) }
  | code => s.finishCommand i code

/-- A command from its Check phase to its completion (R130 to R136): the check, the phases in order, Finish. DEDUCED (log
entry 25): a failed check leaves the registers n and M as they were. -/
def runCommand (t : Config.Trig) (i : Instr) (phases : List Phase) (s : State) : State :=
  match check i s with
  | .ok => runPhases t i (phases ++ [.finish]) (s.takeOperands i)
  | code => s.finishCommand i code

/-- The forward transform's phases (R207): BitRev, Stage(1), ..., Stage(log2 L). -/
def forwardPhases (v : Vec) (l : Nat) : List Phase := .bitRev v :: (List.range l.log2).map (fun k => .stage v (k + 1))

/-- The inverse transform's phases (R209): Conj, the forward phases, Conj, Scale. -/
def inversePhases (v : Vec) (l : Nat) : List Phase := .conj v :: (forwardPhases v l ++ [.conj v, .scale v])

/-- The forward Bluestein phases (R257): Zero, ChirpFill, the transforms of A and B (R253), PointMul, the inverse
transform of C (R255), Extract. -/
def bluesteinPhases (m : Nat) : List Phase :=
  [.zero, .chirpFill] ++ forwardPhases .a m ++ forwardPhases .b m ++ [.pointMul .c .a .b] ++ inversePhases .c m ++
    [.extract]

/-- The inverse Bluestein phases (R259): the conjugate-and-scale wrapper around the forward ones, chirp signs
unchanged (90_conflicts.md C1). -/
def bluesteinInversePhases (m : Nat) : List Phase := .conj .x :: (bluesteinPhases m ++ [.conj .x, .scale .x])

end Sys2Proof.Machine
end

