-- ==== Sys2Proof/Machine/Bluestein.lean ====
section
/-! DEFINITION. The elementwise and Bluestein commands (43_bluestein.md): CMUL, CHIRP.N, CHIRP.P, BLUE.F, BLUE.I,
DFT.F, DFT.I. -/

namespace Sys2Proof.Machine

open Sys2Proof

/-- PointMul(X, X, Y, n) (R241). -/
def phasesCmul (_ : State) : List Phase := [.pointMul .x .x .y]

/-- CMUL (R241): X <- X·Y, element by element. -/
def execCmul (s : State) : Host.Outcome State Fault Refusal := .next (runCommand Config.trig .cmul (phasesCmul s) s)

/-- ChirpMul(X, n, N) (R243). -/
def phasesChirpN (_ : State) : List Phase := [.chirpMul true]

/-- CHIRP.N (R243): X[k] <- X[k]·exp(-iπk²/n). -/
def execChirpN (s : State) : Host.Outcome State Fault Refusal :=
  .next (runCommand Config.trig .chirpN (phasesChirpN s) s)

/-- ChirpMul(X, n, P) (R244). -/
def phasesChirpP (_ : State) : List Phase := [.chirpMul false]

/-- CHIRP.P (R244): X[k] <- X[k]·exp(+iπk²/n). -/
def execChirpP (s : State) : Host.Outcome State Fault Refusal :=
  .next (runCommand Config.trig .chirpP (phasesChirpP s) s)

/-- BlueFwd(X, n) (R257, R258). -/
def phasesBlueF (s : State) : List Phase := bluesteinPhases (paddedLength s.len.toNat)

/-- BLUE.F (R258): the forward Bluestein transform of X, for any n. -/
def execBlueF (s : State) : Host.Outcome State Fault Refusal :=
  .next (runCommand Config.trig .blueF (phasesBlueF s) s)

/-- BlueInv(X, n) (R259, R260). -/
def phasesBlueI (s : State) : List Phase := bluesteinInversePhases (paddedLength s.len.toNat)

/-- BLUE.I (R260): the normalised inverse Bluestein transform of X. -/
def execBlueI (s : State) : Host.Outcome State Fault Refusal :=
  .next (runCommand Config.trig .blueI (phasesBlueI s) s)

/-- `if pow2(n): FwdFFT(X, n) else: BlueFwd(X, n)` (R262, R263). -/
def phasesDftF (s : State) : List Phase :=
  if isPow2 s.len.toNat then forwardPhases .x s.len.toNat else bluesteinPhases (paddedLength s.len.toNat)

/-- DFT.F (R263): the forward transform of X of any length. -/
def execDftF (s : State) : Host.Outcome State Fault Refusal := .next (runCommand Config.trig .dftF (phasesDftF s) s)

/-- `if pow2(n): InvFFT(X, n) else: BlueInv(X, n)` (R262, R264). -/
def phasesDftI (s : State) : List Phase :=
  if isPow2 s.len.toNat then inversePhases .x s.len.toNat else bluesteinInversePhases (paddedLength s.len.toNat)

/-- DFT.I (R264): the normalised inverse transform of X of any length. -/
def execDftI (s : State) : Host.Outcome State Fault Refusal := .next (runCommand Config.trig .dftI (phasesDftI s) s)

end Sys2Proof.Machine
end

