-- ==== Sys2Proof/Machine/Nop.lean ====
section
/-! DEFINITION. NOP (40_host_interface.md section 3). -/

namespace Sys2Proof.Machine

open Sys2Proof

/-- The phases of NOP between Check and Finish: none (R140). -/
def phasesNop (_ : State) : List Phase := []

/-- NOP (R140): completes; no operand is read or checked, no memory is accessed. -/
def execNop (s : State) : Host.Outcome State Fault Refusal := .next (runCommand Config.trig .nop (phasesNop s) s)

end Sys2Proof.Machine
end

