-- ==== Sys2Proof/Machine/Radix2.lean ====
section
/-! DEFINITION. The radix-2 commands (42_radix2.md): BITREV, STAGE, FFT2.F, FFT2.I, CONJ, SCALE. -/

namespace Sys2Proof.Machine

open Sys2Proof

/-- BitRev(X, n) (R202). -/
def phasesBitrev (_ : State) : List Phase := [.bitRev .x]

/-- BITREV (R202): the bit-reversal permutation of X. -/
def execBitrev (s : State) : Host.Outcome State Fault Refusal :=
  .next (runCommand Config.trig .bitrev (phasesBitrev s) s)

/-- Stage(X, n, s) (R205). -/
def phasesStage (k : Nat) (_ : State) : List Phase := [.stage .x k]

/-- STAGE s (R205): one butterfly pass over X. -/
def execStage (k : Nat) (s : State) : Host.Outcome State Fault Refusal :=
  .next (runCommand Config.trig (.stage k) (phasesStage k s) s)

/-- FwdFFT(X, n) (R208). -/
def phasesFft2F (s : State) : List Phase := forwardPhases .x s.len.toNat

/-- FFT2.F (R208): the forward radix-2 transform of X. -/
def execFft2F (s : State) : Host.Outcome State Fault Refusal :=
  .next (runCommand Config.trig .fft2F (phasesFft2F s) s)

/-- InvFFT(X, n) (R210). -/
def phasesFft2I (s : State) : List Phase := inversePhases .x s.len.toNat

/-- FFT2.I (R210): the normalised inverse radix-2 transform of X. -/
def execFft2I (s : State) : Host.Outcome State Fault Refusal :=
  .next (runCommand Config.trig .fft2I (phasesFft2I s) s)

/-- Conj(X, n) (R212). -/
def phasesConj (_ : State) : List Phase := [.conj .x]

/-- CONJ (R212): conjugate X in place. -/
def execConj (s : State) : Host.Outcome State Fault Refusal := .next (runCommand Config.trig .conj (phasesConj s) s)

/-- Scale(X, n, n) (R214). -/
def phasesScale (_ : State) : List Phase := [.scale .x]

/-- SCALE (R214): multiply X by recip32(n). -/
def execScale (s : State) : Host.Outcome State Fault Refusal :=
  .next (runCommand Config.trig .scale (phasesScale s) s)

end Sys2Proof.Machine
end

