-- ==== Sys2Proof/Machine/Dispatch.lean ====
section
/-! DEFINITION. The meaning of each command: one arm per row of the opcode table. -/

namespace Sys2Proof.Machine

open Sys2Proof

-- Each command runs from its Check phase to its completion (R130 to R136; log entry 5).
def exec (i : Instr) (s : State) : Host.Outcome State Fault Refusal :=
  match i with
  | .nop => Sys2Proof.Machine.execNop s
  | .dftF => Sys2Proof.Machine.execDftF s
  | .dftI => Sys2Proof.Machine.execDftI s
  | .fft2F => Sys2Proof.Machine.execFft2F s
  | .fft2I => Sys2Proof.Machine.execFft2I s
  | .blueF => Sys2Proof.Machine.execBlueF s
  | .blueI => Sys2Proof.Machine.execBlueI s
  | .bitrev => Sys2Proof.Machine.execBitrev s
  | .stage k => Sys2Proof.Machine.execStage k s
  | .conj => Sys2Proof.Machine.execConj s
  | .scale => Sys2Proof.Machine.execScale s
  | .cmul => Sys2Proof.Machine.execCmul s
  | .chirpN => Sys2Proof.Machine.execChirpN s
  | .chirpP => Sys2Proof.Machine.execChirpP s

end Sys2Proof.Machine
end

