-- ==== Sys2Proof/Machine/HostInterface.lean ====
section
/-! DEFINITION. The host's side: the register block (R20 to R30, R120 to R127), host memory accesses and their races
with the running command (R70, R71, R76), and reset (R310 to R312). -/

namespace Sys2Proof.Machine

open Sys2Proof

/-! ### Registers -/

/-- ID (R21). -/
def idWord : Word := 0x46465452

/-- PARAM (R22): (ADDR_W << 8) | LOG2_NMAX. -/
def paramWord : Word := BitVec.ofNat 32 (Config.addrW * 256 + Config.log2Nmax)

/-- The word the register at an offset returns (R20, R122); CMD and the reserved offsets return 0 (R23, R30). -/
def State.readRegister (s : State) (off : Nat) : Word :=
  match off with
  | 0x00 => idWord
  | 0x04 => paramWord
  | 0x0C => s.statusWord
  | 0x10 => s.irqenWord
  | 0x14 => s.len
  | 0x18 => s.xre
  | 0x1C => s.xim
  | 0x20 => s.yre
  | 0x24 => s.yim
  | 0x28 => s.scr
  | 0x2C => s.scrsz
  | _ => 0

/-- The offsets of CMD and the configuration registers, whose writes the busy rule drops (R125). -/
def busyGuarded (off : Nat) : Bool := off ∈ [0x08, 0x14, 0x18, 0x1C, 0x20, 0x24, 0x28, 0x2C]

/-- A write of a word at an offset while the busy rule lets it through (R123, R124, R126, R127, R130); ID, PARAM and
the reserved offsets ignore it. -/
def State.storeRegister (s : State) (off : Nat) (v : Word) : State :=
  match off with
  | 0x08 => s.launch v
  | 0x0C => s.acknowledge v
  | 0x10 => s.writeIrqen v
  | 0x14 => { s with len := v }
  | 0x18 => { s with xre := v }
  | 0x1C => { s with xim := v }
  | 0x20 => { s with yre := v }
  | 0x24 => { s with yim := v }
  | 0x28 => { s with scr := v }
  | 0x2C => { s with scrsz := v }
  | _ => s

/-- An aligned 32-bit register write (R121), with the busy rule (R125). -/
def State.writeRegister (s : State) (off : Nat) (v : Word) : State :=
  if s.busy && busyGuarded off then s.dropWrite else s.storeRegister off v

/-- An access acts on a register only if it is 32 bits wide and aligned to 4 (R121; log entry 14). DESIGN CHOICE (log entry
14): it is aligned when its offset is a multiple of 4, whatever REG_BASE is. -/
def registerAccess (off len : Nat) : Bool := decide (len = 4) && decide (off % 4 = 0)

/-- A register read that returns STATUS with DONE = 1: the point from which the host's reads see the results (R71). -/
def State.seesDone (s : State) (off len : Nat) : Bool := registerAccess off len && decide (off = 0x0C) && s.done

/-- A host read in the register block: narrow and misaligned reads return 0 in every byte (R121). A read changes nothing
of the unit (R122); one that returns DONE = 1 leaves no result unseen (R71; log entry 24). DESIGN CHOICE (log entry 24):
where several hosts share the unit (R302), the read of one of them counts for all. -/
def State.hostReadRegister (s : State) (off len : Nat) : State :=
  { s with
    hostData := if registerAccess off len then bytesOfWord (s.readRegister off) else List.replicate len 0
    unseen := if s.seesDone off len then [] else s.unseen }

/-- A host write in the register block: narrow and misaligned writes change nothing (R121), aligned being of the offset
(log entry 14). -/
def State.hostWriteRegister (s : State) (off : Nat) (bytes : List Byte) : State :=
  match bytes with
  | [b0, b1, b2, b3] => if off % 4 = 0 then s.writeRegister off (wordOfBytes b0 b1 b2 b3) else s
  | _ => s

/-! ### Host memory accesses -/

/-- The read-write regions of the running command (R66, R76): none while Idle or when its word is illegal. -/
def State.runningRw (s : State) : List Region :=
  if s.busy then
    match decodeWord s.cmd with
    | .ok i => s.rwRegions i
    | .error _ => []
  else []

/-- The read-only regions of the running command (R66, R76). -/
def State.runningRo (s : State) : List Region :=
  if s.busy then
    match decodeWord s.cmd with
    | .ok i => s.roRegions i
    | .error _ => []
  else []

/-- The regions in which a host read is a race: the read-write regions of the running command (R76(a), R321), and those of
a completed command until the host has read DONE = 1 (R71, R321). DESIGN CHOICE (log entry 24): while a later command is
BUSY, R76(c) makes a read outside that command's regions plain memory, and R71 makes one in the unseen results of an
earlier command a race; the model follows R71. -/
def State.racyReads (s : State) : List Region := s.runningRw ++ s.unseen

/-- The byte a host read returns: any value where the read is a race (R71, R76(a)), the memory's byte elsewhere (R71,
R76(c)). -/
def State.hostByte (s : State) (a : Nat) : Byte :=
  if inRegions s.racyReads a then Config.anyByte [a, s.draws, 4] else Memory.readByte s.mem a

/-- The bytes a host read returns. -/
def State.hostBytes (s : State) (a : Nat) : Nat → List Byte
  | 0 => []
  | k + 1 => s.hostByte a :: s.hostBytes (a + 1) k

/-- A host write of bytes at rising addresses: a byte in a region of the running command is left at any value (R76(b)),
every other byte is written. -/
def hostStore (racy : List Region) (d : Draw) (m : Memory) (a : Nat) : List Byte → Memory
  | [] => m
  | b :: bs =>
    hostStore racy d (Memory.writeByte m a (if inRegions racy a then Config.anyByte (a :: d) else b)) (a + 1) bs

/-- Whether a byte of [a, a + len) lies in one of several regions. -/
def touches (rs : List Region) (a len : Nat) : Bool := (List.range len).any (fun k => inRegions rs (a + k))

/-- A host memory read; the platform must answer it (log entry 10). -/
def State.hostReadMemory (s : State) (a len : Nat) : Host.Outcome State Fault Refusal :=
  if s.answers ⟨a, len, false⟩ then .next { s with hostData := s.hostBytes a len, draws := s.draws + 1 }
  else .fault (.hostAccessUnanswered a)

/-- A host memory write; the platform must answer it (log entry 10). A write to a region of the running command is a
race (R76(b)). -/
def State.hostWriteMemory (s : State) (a : Nat) (bytes : List Byte) : Host.Outcome State Fault Refusal :=
  if s.answers ⟨a, bytes.length, true⟩ then
    .next
      { s with
        mem := hostStore (s.runningRw ++ s.runningRo) [s.draws, 5] s.mem a bytes
        raced := s.raced || touches (s.runningRw ++ s.runningRo) a bytes.length
        draws := s.draws + 1 }
  else .fault (.hostAccessUnanswered a)

/-- Where an access on the host's bus goes (R10, R20, R62, R121): the 256 bytes at REG_BASE are the register block. DESIGN
CHOICE (log entry 13): the first byte of the access decides for all of it, so an access that starts below REG_BASE and
runs into the block is memory in every byte, and one that starts in the block and runs past it is a register access. -/
def Target.resolve : Target → Target
  | .bus a =>
    if Config.regBase ≤ a ∧ a < Config.regBase + 256 then .reg (BitVec.ofNat 8 (a - Config.regBase)) else .mem a
  | t => t

/-- A host read (R120). -/
def State.hostRead (s : State) (t : Target) (len : Nat) : Host.Outcome State Fault Refusal :=
  match t.resolve with
  | .reg off => .next (s.hostReadRegister off.toNat len)
  | .mem a => s.hostReadMemory a len
  | .bus a => s.hostReadMemory a len

/-- A host write (R120). -/
def State.hostWrite (s : State) (t : Target) (bytes : List Byte) : Host.Outcome State Fault Refusal :=
  match t.resolve with
  | .reg off => .next (s.hostWriteRegister off.toNat bytes)
  | .mem a => s.hostWriteMemory a bytes
  | .bus a => s.hostWriteMemory a bytes

/-! ### Reset -/

/-- Reset (R310 to R312): the state of rule R48. Memory is not reset, but the read-write regions of a command it
abandons are any value (R312; log entry 17). The platform's holes, the pending events, the host's data and what the host
has not seen (log entry 24) are not the unit's and stay. -/
def State.resetUnit (s : State) : State :=
  { State.reset with
    mem := Memory.havoc [s.draws, 6] s.mem s.runningRw
    holes := s.holes
    unseen := s.unseen
    draws := s.draws + 1
    inputs := s.inputs
    hostData := s.hostData }

end Sys2Proof.Machine
end

