-- ==== Sys2Proof/Machine/Run.lean ====
section
/-! DEFINITION. The agents in turn (R120): one unit step, the unit running on while no host event is due, and the
events of the host and the platform. -/

namespace Sys2Proof.Machine

open Sys2Proof

/-- The phases of each command between Check and Finish (R40). -/
def phasesOf (i : Instr) (s : State) : List Phase :=
  match i with
  | .nop => phasesNop s
  | .dftF => phasesDftF s
  | .dftI => phasesDftI s
  | .fft2F => phasesFft2F s
  | .fft2I => phasesFft2I s
  | .blueF => phasesBlueF s
  | .blueI => phasesBlueI s
  | .bitrev => phasesBitrev s
  | .stage k => phasesStage k s
  | .conj => phasesConj s
  | .scale => phasesScale s
  | .cmul => phasesCmul s
  | .chirpN => phasesChirpN s
  | .chirpP => phasesChirpP s

/-- A latched word that is no command ends with ILLEGAL_CMD (R94, R133, R281). -/
def State.completeIllegal (s : State) : State := s.complete .illegalCmd

/-- One unit step (R120, R131): the current phase of the running command. An Idle unit takes no step (R304), a phase
with a refused access stops at it, and a stuck unit stays where it is (R68). -/
def unitStep (t : Config.Trig) (s : State) : State :=
  match s.ph with
  | .idle | .stuck _ _ => s
  | .run p rest =>
    match decodeWord s.cmd with
    | .error _ => s.completeIllegal
    | .ok i =>
      if p = .check then beginCommand i (phasesOf i s) s
      else if phaseAdmitted p s then advance t i p rest s
      else stopPhase t i p rest s

/-- The unit moves with no host event between its steps (log entry 5): an Idle unit does nothing (R304), nor does a
stuck one (R68), a launched command runs from its Check phase as exec says, a command met in a later phase runs on from
there. -/
def unitRun (s : State) : Host.Outcome State Fault Refusal :=
  match s.ph with
  | .idle | .stuck _ _ => .next s
  | .run p rest =>
    match decodeWord s.cmd with
    | .error _ => .next s.completeIllegal
    | .ok i => if p = .check then exec i s else .next (runPhases Config.trig i (p :: rest) s)

/-- The next event of the host or the platform, already taken off the list. A `wait` that is due
is the STATUS read that ends its loop (R99). -/
def State.handle (s : State) : Event → Host.Outcome State Fault Refusal
  | .read t len => s.hostRead t len
  | .write t bytes => s.hostWrite t bytes
  | .wait => .next (s.hostReadRegister 0x0C 4)
  | .unit => .next (unitStep Config.trig s)
  | .reset => .next s.resetUnit

/-- One step of the machine (R120): the first event of the list if it is due, else the unit. A `wait` is due when DONE
reads 1 (R99); until then the unit moves. -/
def machineStep (s : State) : Host.Outcome State Fault Refusal :=
  match s.inputs with
  | [] => unitRun s
  | .wait :: rest => if s.done then State.handle { s with inputs := rest } .wait else unitRun s
  | e :: rest => State.handle { s with inputs := rest } e

/-- The state with a command word launched and no event pending, so that the next step is the unit's and runs it
(R130; log entry 8). -/
def State.launchNext (s : State) (c : Word) : State := State.launch { s with inputs := [] } c

end Sys2Proof.Machine
end

