-- ==== Sys2Proof/Machine/Step.lean ====
section
/-! DEFINITION. The step of the machine, and the placing of a command where the next step takes it. -/

namespace Sys2Proof.Machine

open Sys2Proof

/-- One step (R120). -/
def step (s : State) : Host.Outcome State Fault Refusal := machineStep s

/-- The state whose next step fetches and runs the command word `w` (bits at or above `nbits` are 0): the unit's only
place for a command is the latch that a CMD write fills (R41, R130; log entry 8). -/
def State.withFetchWord (s : State) (nbits w : Nat) : State := s.launchNext (BitVec.ofNat 32 (w % 2 ^ nbits))

end Sys2Proof.Machine
end

