-- ==== Sys2Proof/Machine/HostProgram.lean ====
section
/-! DEFINITION. The host program notation of rules R99 and R100 as lists of events, and the runs of a program. -/

namespace Sys2Proof.Machine

open Sys2Proof

/-- The named registers (R20, R99). -/
inductive Register where
  | id
  | param
  | cmd
  | status
  | irqen
  | len
  | xre
  | xim
  | yre
  | yim
  | scr
  | scrsz
  deriving DecidableEq, Repr

/-- The offset of a register (R20). -/
def Register.offset : Register → Nat
  | .id => 0x00
  | .param => 0x04
  | .cmd => 0x08
  | .status => 0x0C
  | .irqen => 0x10
  | .len => 0x14
  | .xre => 0x18
  | .xim => 0x1C
  | .yre => 0x20
  | .yim => 0x24
  | .scr => 0x28
  | .scrsz => 0x2C

/-- `wr <REG>, <value>` (R99). -/
def hostWr (r : Register) (v : Word) : Event := .write (.reg (BitVec.ofNat 8 r.offset)) (bytesOfWord v)

/-- `rd <REG>` (R99). -/
def hostRd (r : Register) : Event := .read (.reg (BitVec.ofNat 8 r.offset)) 4

/-- `cmd <mnemonic>` (R99). -/
def hostCmd (i : Instr) : Event := hostWr .cmd (encode i)

/-- `ack` (R99). -/
def hostAck : Event := hostWr .status 0x00000002

/-- `mem <addr>: <w0> <w1> ...` (R99): stores of words at addr, addr + 4, ... -/
def hostMem (a : Nat) : List Word → List Event
  | [] => []
  | w :: ws => .write (.mem a) (bytesOfWord w) :: hostMem (a + 4) ws

/-- `RUN <mnemonic>` (R100): one synchronous call. -/
def hostRun (i : Instr) : List Event := [hostCmd i, .wait]

/-- The requirements of rule R315 as a program: the operands of a command that uses X alone, then the call. -/
def hostCall (i : Instr) (len xre xim : Word) : List Event :=
  [hostWr .len len, hostWr .xre xre, hostWr .xim xim] ++ hostRun i

end Sys2Proof.Machine
end

