-- ==== Sys2Proof/Safety.lean ====
section
/-! DEFINITION. The terms of claims: the invariant of the machine, a careful host (R320, R321), a completed command,
what a command leaves, and the correctly rounded value. -/

namespace Sys2Proof.Machine

open Sys2Proof

/-- The sequencer is in a phase of the command that is latched, with that command's operands (R40, R41, R42, R132): the
command passed its check, n is LEN, M is the padded length on the Bluestein path, and the phase and those after it are
the tail of the command's own sequence. -/
structure State.InPhase (s : State) (p : Phase) (rest : List Phase) (i : Instr) : Prop where
  decoded : decodeWord s.cmd = .ok i
  checked : check i s = .ok
  length : i ≠ .nop → s.n = s.len
  padded : onBluestein i s.len.toNat = true → s.mlen.toNat = paddedLength s.len.toNat
  order : (p :: rest) <:+ (phasesOf i s ++ [.finish])

/-- The invariant of the machine: the memory is in canonical form within the memory space (R62), BUSY is up exactly
while a command is in flight (R24, R40), the sequencer is in Check or in a phase of the latched command, a stuck
sequencer is in a phase of the latched command that the platform refuses an access (R68), BUSY and DONE are never both 1
(R24), ERRCODE is 0 while BUSY (R24), and a race is pending only for a running command that has regions
(R66, R76). -/
structure State.Inv (s : State) : Prop where
  memWf : Memory.wf s.mem = true
  memBound : ∀ c ∈ s.mem, c.1 < Config.memSize
  busyPhase : s.busy = true ↔ s.ph ≠ .idle
  inPhase : ∀ p rest, s.ph = .run p rest → (p = .check ∧ rest = []) ∨ ∃ i, s.InPhase p rest i
  stuckIn : ∀ p rest, s.ph = .stuck p rest → (∃ i, s.InPhase p rest i) ∧ phaseAdmitted p s = false
  notBoth : ¬ (s.busy = true ∧ s.done = true)
  busyCode : s.busy = true → s.errcode = .ok
  raceBusy : s.raced = true → s.busy = true ∧ ∃ i, decodeWord s.cmd = .ok i ∧ check i s = .ok

/-- The event keeps the host's duties at this state: no register write that the busy rule drops (R320), no memory access
that races with the running command (R321), no read of results before DONE = 1 has been read (R71, R321). -/
def State.careful (s : State) : Event → Bool
  | .write t bytes =>
    match t.resolve with
    | .reg off => !(s.busy && busyGuarded off.toNat)
    | .mem a | .bus a => !touches (s.runningRw ++ s.runningRo) a bytes.length
  | .read t len =>
    match t.resolve with
    | .reg _ => true
    | .mem a | .bus a => !touches s.racyReads a len
  | .wait | .unit | .reset => true

/-! ### What a command answers -/

/-- Everything the host and the platform see of two states is the same, but for BUSY, DONE, ERRCODE and the memory: the
configuration registers and IRQEN (R31), OVR (R136), the latched word (R41; log entry 22), the platform's holes, the
pending events and the host's data. -/
structure SameInterface (s t : State) : Prop where
  ovr : t.ovr = s.ovr
  doneIe : t.doneIe = s.doneIe
  len : t.len = s.len
  xre : t.xre = s.xre
  xim : t.xim = s.xim
  yre : t.yre = s.yre
  yim : t.yim = s.yim
  scr : t.scr = s.scr
  scrsz : t.scrsz = s.scrsz
  cmd : t.cmd = s.cmd
  holes : t.holes = s.holes
  inputs : t.inputs = s.inputs
  hostData : t.hostData = s.hostData

/-- `t` is a state in which a command of `s` has completed with `code` (R136): BUSY 0, DONE 1, the code, Idle, and every
register the host sees but STATUS as before. -/
structure Completed (s t : State) (code : ErrCode) : Prop where
  busy : t.busy = false
  done : t.done = true
  errcode : t.errcode = code
  idle : t.ph = .idle
  same : SameInterface s t

/-- A command can run to its end: it passes its check, every address is answered (R68) and no host write has raced with
it (R76). -/
structure State.Ready (s : State) (i : Instr) : Prop where
  checked : check i s = .ok
  answered : s.holes = []
  unraced : s.raced = false

/-- Every byte outside some regions reads as before. -/
def BytesKept (s t : State) (rs : List Region) : Prop :=
  ∀ a, inRegions rs a = false → Memory.readByte t.mem a = Memory.readByte s.mem a

/-- What every command that runs to its end does: it answers `t`, completed with OK, every byte outside its read-write
regions as before (R66, R135, R136), and those regions are results that the host has not yet seen (R71; the model's own
record, log entry 24). -/
structure Runs (i : Instr) (s t : State) : Prop where
  answers : exec i s = .next t
  completed : Completed s t .ok
  bytes : BytesKept s t (s.rwRegions i)
  unseen : t.unseen = s.unseen ++ s.rwRegions i

/-- `X[k]` (R15). -/
def State.xElem (s : State) (k : Nat) : Cplx := readC s.mem ⟨s.xre.toNat, s.xim.toNat⟩ k

/-- `Y[k]` (R15). -/
def State.yElem (s : State) (k : Nat) : Cplx := readC s.mem ⟨s.yre.toNat, s.yim.toNat⟩ k

/-- Two words are the same, or both are NaNs, whose bits are free (R162). -/
def SameUpToNaN (a b : Word) : Prop := a = b ∨ (isNaN32 a = true ∧ isNaN32 b = true)

/-- The parts of two complex values are the same up to the bits of NaNs. -/
def Cplx.sameUpToNaN (a b : Cplx) : Prop := SameUpToNaN a.re b.re ∧ SameUpToNaN a.im b.im

/-- The rotation value w_j of a stage with base twiddle ω (R176), its NaN bits free. -/
def IsRotation (ω : Cplx) (j : Nat) (w : Cplx) : Prop := ∃ d : Nat → Draw, w = rotation d ω j

/-- The butterfly of rule R204, its NaN bits free: temp = xv·w, yv = xu - temp, yu = xu + temp. -/
def IsButterfly (xu xv w yu yv : Cplx) : Prop :=
  ∃ d d1 d2 d3 d4 : Draw,
    yv = ⟨sub32 d1 xu.re (cmul d xv w).re, sub32 d2 xu.im (cmul d xv w).im⟩ ∧
      yu = ⟨add32 d3 xu.re (cmul d xv w).re, add32 d4 xu.im (cmul d xv w).im⟩

/-- Commands one after the other, each a synchronous call (R303, R324): the state after the last, if each answers a next
state. -/
def runSequence : List Instr → State → Option State
  | [], s => some s
  | i :: is, s =>
    match exec i s with
    | .next t => runSequence is t
    | .fault _ => none
    | .refused _ => none

/-- Several steps of the machine. -/
def stepTimes : Nat → State → Host.Outcome State Fault Refusal
  | 0, s => .next s
  | k + 1, s =>
    match step s with
    | .next t => stepTimes k t
    | .fault f => .fault f
    | .refused r => .refused r

/-! ### The correctly rounded value -/

/-- The distance between two natural numbers. -/
def gap (a b : Nat) : Nat := (a - b) + (b - a)

/-- `r` is the binary32 of sign `neg` nearest to `num / den` units of 2^-149, ties to even (R160, R161, R163, R167): no
NaN; an infinity exactly from 2^128 - 2^103 on, the midpoint above the largest finite value 2^128 - 2^104; else no finite
word is nearer, and if a word of another value is as near, bit 0 of `r` is 0. -/
structure Rounds32 (neg : Bool) (num den : Nat) (r : Word) : Prop where
  sign : sign32 r = neg
  notNaN : isNaN32 r = false
  overflow : isInf32 r = true ↔ (2 ^ 277 - 2 ^ 252) * den ≤ num
  nearest : isInf32 r = false → ∀ w : Word, isNaN32 w = false → isInf32 w = false →
    gap (units32 r * den) num ≤ gap (units32 w * den) num ∧
      (gap (units32 r * den) num = gap (units32 w * den) num → units32 w = units32 r ∨ r.getLsbD 0 = false)

/-- `r` is the binary64 of sign `neg` nearest to `num / den` units of 2^-1074, ties to even (R165, R166). -/
structure Rounds64 (neg : Bool) (num den : Nat) (r : DWord) : Prop where
  sign : sign64 r = neg
  notNaN : isNaN64 r = false
  overflow : isInf64 r = true ↔ (2 ^ 2098 - 2 ^ 2044) * den ≤ num
  nearest : isInf64 r = false → ∀ w : DWord, isNaN64 w = false → isInf64 w = false →
    gap (units64 r * den) num ≤ gap (units64 w * den) num ∧
      (gap (units64 r * den) num = gap (units64 w * den) num → units64 w = units64 r ∨ r.getLsbD 0 = false)

end Sys2Proof.Machine
end

