-- ==== Sys2Proof/Certificates/Slice0/Obligations.lean ====
section
/-! DEFINITION. The statements about the model, in the order: encoding, arithmetic, registers and host, check and
completion, the result of each command, the whole machine. -/

namespace Sys2Proof.Machine

open Sys2Proof

/-! ### Terms of the statements -/

/-- The fields of rule R90 as bits of the word. -/
def opBits (w : Word) : Nat := (w.extractLsb 7 0).toNat

/-- S of rule R90 as bits of the word. -/
def sBits (w : Word) : Nat := (w.extractLsb 20 16).toNat

/-- The words of rule R97: a reserved bit set; an OP outside the table of rule R91; MD = 1 on NOP, BITREV, STAGE, CONJ,
SCALE or CMUL; S not 0 on any OP but STAGE. -/
def IllegalWord (w : Word) : Prop :=
  w.extractLsb 15 9 ≠ 0 ∨ w.extractLsb 31 21 ≠ 0 ∨ (0x04 ≤ opBits w ∧ opBits w ≤ 0x0F) ∨ 0x16 ≤ opBits w ∨
    (w.getLsbD 8 = true ∧ opBits w ∈ [0x00, 0x10, 0x11, 0x12, 0x13, 0x14]) ∨ (sBits w ≠ 0 ∧ opBits w ≠ 0x11)

/-- `m` is the smallest power of two with m ≥ 2n - 1 (R250). -/
def IsPaddedLength (n m : Nat) : Prop := (∃ k, m = 2 ^ k) ∧ 2 * n - 1 ≤ m ∧ ∀ k, 2 * n - 1 ≤ 2 ^ k → m ≤ 2 ^ k

/-- FFT2.F, FFT2.I, BITREV, STAGE (R283). -/
def IsRadix2Command (i : Instr) : Prop := i = .fft2F ∨ i = .fft2I ∨ i = .bitrev ∨ ∃ k, i = .stage k

/-- BLUE.F and BLUE.I, and DFT.F and DFT.I where n is not a power of two (R289). -/
def TakesBluestein (i : Instr) (n : Nat) : Prop :=
  i = .blueF ∨ i = .blueI ∨ ((i = .dftF ∨ i = .dftI) ∧ ¬∃ k, n = 2 ^ k)

/-- FFT2.F, FFT2.I, BITREV, STAGE, and DFT.F and DFT.I where n is a power of two (R285). -/
def TakesRadix2 (i : Instr) (n : Nat) : Prop := IsRadix2Command i ∨ ((i = .dftF ∨ i = .dftI) ∧ ∃ k, n = 2 ^ k)

/-- The ranges [base, base + size) a command uses (R286, R287): X for every command but NOP, Y for CMUL, the scratch
range on the Bluestein path. -/
def Uses (s : State) (i : Instr) (base size : Nat) : Prop :=
  i ≠ .nop ∧
    ((base = s.xre.toNat ∧ size = 4 * s.len.toNat) ∨ (base = s.xim.toNat ∧ size = 4 * s.len.toNat) ∨
      (i = .cmul ∧ (base = s.yre.toNat ∨ base = s.yim.toNat) ∧ size = 4 * s.len.toNat) ∨
      (TakesBluestein i s.len.toNat ∧ base = s.scr.toNat ∧ ∃ m, IsPaddedLength s.len.toNat m ∧ size = 24 * m))

/-- Two ranges share a byte. -/
def ShareByte (a p b q : Nat) : Prop := ∃ c, (a ≤ c ∧ c < a + p) ∧ b ≤ c ∧ c < b + q

/-- The cause of each error code for a decoded command, as rules R282 to R289 state it. -/
def Fails (i : Instr) (s : State) : ErrCode → Prop
  | .ok | .illegalCmd => False
  | .invalidLength => i ≠ .nop ∧ (s.len.toNat = 0 ∨ 2 ^ 31 ≤ s.len.toNat)
  | .notPow2 => IsRadix2Command i ∧ ¬∃ k, s.len.toNat = 2 ^ k
  | .badStage => ∃ k, i = .stage k ∧ (k = 0 ∨ s.len.toNat < 2 ^ k)
  | .tooLong =>
    (TakesRadix2 i s.len.toNat ∧ 2 ^ 16 < s.len.toNat) ∨
      (TakesBluestein i s.len.toNat ∧ ∃ m, IsPaddedLength s.len.toNat m ∧ 2 ^ 16 < m)
  | .misaligned => ∃ base size, Uses s i base size ∧ base % 4 ≠ 0
  | .range => ∃ base size, Uses s i base size ∧ 2 ^ 32 < base + size
  | .overlap =>
    (i ≠ .nop ∧ ShareByte s.xre.toNat (4 * s.len.toNat) s.xim.toNat (4 * s.len.toNat)) ∨
      (i = .cmul ∧ ShareByte s.yre.toNat (4 * s.len.toNat) s.yim.toNat (4 * s.len.toNat)) ∨
      (i = .cmul ∧ ∃ x y, (x = s.xre.toNat ∨ x = s.xim.toNat) ∧ (y = s.yre.toNat ∨ y = s.yim.toNat) ∧ y ≠ x ∧
        ShareByte y (4 * s.len.toNat) x (4 * s.len.toNat)) ∨
      (TakesBluestein i s.len.toNat ∧ ∃ m x, IsPaddedLength s.len.toNat m ∧ (x = s.xre.toNat ∨ x = s.xim.toNat) ∧
        ShareByte s.scr.toNat (24 * m) x (4 * s.len.toNat))
  | .allocFail => TakesBluestein i s.len.toNat ∧ ∃ m, IsPaddedLength s.len.toNat m ∧ s.scrsz.toNat < 24 * m

/-- `j` is `i` with its low `m` bits in reverse order (R201). -/
def IsReversed (m i j : Nat) : Prop := j < 2 ^ m ∧ ∀ b, b < m → j.testBit b = i.testBit (m - 1 - b)

/-- The complex product of rule R170, its NaN bits free. -/
def IsProduct (a b z : Cplx) : Prop := ∃ d : Draw, z = cmul d a b

/-- A command run on a vector of another base and length takes memory `m` to memory `m'`. -/
def RunsOn (i : Instr) (v : Bases) (l : Nat) (m m' : Memory) : Prop :=
  ∃ u w : State, u.mem = m ∧ u.len.toNat = l ∧ u.xre.toNat = v.re ∧ u.xim.toNat = v.im ∧ u.Ready i ∧
    exec i u = .next w ∧ w.mem = m'

/-- A buffer of the scratch region by its position in the list of rule R250: A 0, B 8, C 16. -/
def buffer (scr m k : Nat) : Bases := ⟨scr + k * m, scr + (k + 4) * m⟩

/-- A register write of the host (R99). -/
def writeAt (s : State) (off : Nat) (v : Word) : Host.Outcome State Fault Refusal :=
  s.hostWrite (.reg (BitVec.ofNat 8 off)) (bytesOfWord v)

/-- Two states on which every command must do the same (R138): all but the unit's internal registers is equal, the
place the NaN bits are drawn from (log entry 3) included. -/
structure SameOutside (s t : State) : Prop where
  interface : SameInterface s { t with cmd := s.cmd }
  busy : t.busy = s.busy
  done : t.done = s.done
  errcode : t.errcode = s.errcode
  ph : t.ph = s.ph
  mem : t.mem = s.mem
  raced : t.raced = s.raced
  unseen : t.unseen = s.unseen
  draws : t.draws = s.draws

end Sys2Proof.Machine

section Statements

open Sys2Proof Sys2Proof.Machine

/-! ### Encoding -/

/-- The example words of rule R96, and words written out from the format of rule R90, decode to their commands. -/
def Obligations.ExampleWordsDecode : Prop :=
  decodeWord 0x00000000 = .ok .nop ∧ decodeWord 0x00000001 = .ok .dftF ∧ decodeWord 0x00000101 = .ok .dftI ∧
    decodeWord 0x00010011 = .ok (.stage 1) ∧ decodeWord 0x00030011 = .ok (.stage 3) ∧
    decodeWord 0x001F0011 = .ok (.stage 31) ∧ decodeWord 0x00000014 = .ok .cmul ∧
    decodeWord 0x00000115 = .ok .chirpP

/-- R96: each row of the table, by its mask and its match value; and the word of each command. -/
def Obligations.TableRowsExact : Prop :=
  ∀ w : Word,
    (decodeWord w = .ok .nop ↔ w &&& 0xFFFFFFFF = 0x00000000) ∧
    (decodeWord w = .ok .dftF ↔ w &&& 0xFFFFFFFF = 0x00000001) ∧
    (decodeWord w = .ok .dftI ↔ w &&& 0xFFFFFFFF = 0x00000101) ∧
    (decodeWord w = .ok .fft2F ↔ w &&& 0xFFFFFFFF = 0x00000002) ∧
    (decodeWord w = .ok .fft2I ↔ w &&& 0xFFFFFFFF = 0x00000102) ∧
    (decodeWord w = .ok .blueF ↔ w &&& 0xFFFFFFFF = 0x00000003) ∧
    (decodeWord w = .ok .blueI ↔ w &&& 0xFFFFFFFF = 0x00000103) ∧
    (decodeWord w = .ok .bitrev ↔ w &&& 0xFFFFFFFF = 0x00000010) ∧
    (decodeWord w = .ok .conj ↔ w &&& 0xFFFFFFFF = 0x00000012) ∧
    (decodeWord w = .ok .scale ↔ w &&& 0xFFFFFFFF = 0x00000013) ∧
    (decodeWord w = .ok .cmul ↔ w &&& 0xFFFFFFFF = 0x00000014) ∧
    (decodeWord w = .ok .chirpN ↔ w &&& 0xFFFFFFFF = 0x00000015) ∧
    (decodeWord w = .ok .chirpP ↔ w &&& 0xFFFFFFFF = 0x00000115) ∧
    ((∃ k, decodeWord w = .ok (.stage k)) ↔ w &&& 0xFFE0FFFF = 0x00000011) ∧
    (∀ k, k < 32 → (decodeWord w = .ok (.stage k) ↔ w = 0x00000011 ||| (BitVec.ofNat 32 k <<< 16)))

/-- A word decodes to a command exactly when the command is well formed and the word is its encoding: no bit is dropped
and no other word is taken for it (R90, R94). -/
def Obligations.DecodeExactlyEncode : Prop :=
  ∀ (w : Word) (i : Instr), decodeWord w = .ok i ↔ (i.WellFormed = true ∧ encode i = w)

/-- R94, R97: the decoder rejects exactly the words of rule R97. -/
def Obligations.IllegalWordsExactly : Prop := ∀ w : Word, (∃ e, decodeWord w = .error e) ↔ IllegalWord w

/-- R60, R90: the four bytes of a command's word, lowest address first, decode to it, whatever follows them; byte k of a
word is its bits 8k+7:8k, in the host's view of a register and in memory. -/
def Obligations.BytesDecodeBack : Prop :=
  (∀ (i : Instr) (rest : List Byte), i.WellFormed = true →
    decode (bytesOfWord (encode i) ++ rest) = .ok (i, rest) ∧ decodeTableWord 32 (encode i).toNat = some i) ∧
  (∀ w : Word, (bytesOfWord w).length = 4 ∧ ∀ k, k < 4 → (bytesOfWord w)[k]? = some (w.extractLsb' (8 * k) 8)) ∧
  (∀ (m : Memory) (a k : Nat), k < 4 →
    (Memory.read32 m a).extractLsb' (8 * k) 8 = Memory.readByte m (a + k)) ∧
  (∀ (m : Memory) (a k : Nat) (v : Word), k < 4 →
    Memory.readByte (Memory.write32 m a v) (a + k) = v.extractLsb' (8 * k) 8)

/-! ### Arithmetic -/

/-- R160: rn32 of a finite binary64 is the nearest binary32, ties to even; subnormal results and signed zeros are kept;
an infinity keeps itself; a NaN gives a NaN. -/
def Obligations.Rn32RoundsToNearest : Prop :=
  ∀ (d : Draw) (x : DWord),
    (isNaN64 x = false → isInf64 x = false → Rounds32 (sign64 x) (units64 x) (2 ^ 925) (rn32 d x)) ∧
    rn32 d 0x0000000000000000 = 0x00000000 ∧ rn32 d 0x8000000000000000 = 0x80000000 ∧
    rn32 d 0x7FF0000000000000 = 0x7F800000 ∧ rn32 d 0xFFF0000000000000 = 0xFF800000 ∧
    (isNaN64 x = true → isNaN32 (rn32 d x) = true)

/-- R161: sums and differences of finite words are exact, then rounded once; the sign of an exact zero; infinities. -/
def Obligations.AddSubRoundOnce : Prop :=
  ∀ (d : Draw) (a b : Word), isNaN32 a = false → isNaN32 b = false →
    (isInf32 a = false → isInf32 b = false →
      (value32 a + value32 b ≠ 0 →
        Rounds32 (decide (value32 a + value32 b < 0)) (value32 a + value32 b).natAbs 1 (add32 d a b)) ∧
      (value32 a - value32 b ≠ 0 →
        Rounds32 (decide (value32 a - value32 b < 0)) (value32 a - value32 b).natAbs 1 (sub32 d a b)) ∧
      (value32 a + value32 b = 0 →
        add32 d a b = if sign32 a = true ∧ sign32 b = true then 0x80000000 else 0x00000000) ∧
      (value32 a - value32 b = 0 →
        sub32 d a b = if sign32 a = true ∧ sign32 b = false then 0x80000000 else 0x00000000)) ∧
    (isInf32 a = true → isInf32 b = false → add32 d a b = a ∧ sub32 d a b = a) ∧
    (isInf32 a = false → isInf32 b = true → add32 d a b = b ∧ sub32 d a b = neg32 b) ∧
    (isInf32 a = true → isInf32 b = true → sign32 a = sign32 b →
      add32 d a b = a ∧ isNaN32 (sub32 d a b) = true) ∧
    (isInf32 a = true → isInf32 b = true → sign32 a ≠ sign32 b →
      isNaN32 (add32 d a b) = true ∧ sub32 d a b = a)

/-- R163: products of finite words are exact, then rounded once; the sign of a zero or infinite product is the exclusive
or of the operand signs; 0 × inf is NaN. -/
def Obligations.MulRoundsOnce : Prop :=
  ∀ (d : Draw) (a b : Word), isNaN32 a = false → isNaN32 b = false →
    (isInf32 a = false → isInf32 b = false →
      Rounds32 (sign32 a != sign32 b) (units32 a * units32 b) (2 ^ 149) (mul32 d a b)) ∧
    (isInf32 a = true ∨ isInf32 b = true → isZero32 a = false → isZero32 b = false →
      isInf32 (mul32 d a b) = true ∧ sign32 (mul32 d a b) = (sign32 a != sign32 b)) ∧
    ((isInf32 a = true ∧ isZero32 b = true) ∨ (isZero32 a = true ∧ isInf32 b = true) →
      isNaN32 (mul32 d a b) = true)

/-- R162: the operations give a NaN exactly on a NaN operand, inf - inf and 0 × inf; a NaN word has bits 30:23 all ones and
bits 22:0 not all zero. That the quotient of two binary64 words also gives a NaN on 0/0 and inf/inf is not in R162's
list: it is IEEE 754's and the model's choice (PRESUMED, log entry 21). -/
def Obligations.NaNResultsExactly : Prop :=
  (∀ w : Word, isNaN32 w = true ↔ (w.extractLsb 30 23 = 0xFF#8 ∧ w.extractLsb 22 0 ≠ 0#23)) ∧
  (∀ (d : Draw) (a b : Word),
    (isNaN32 (add32 d a b) = true ↔
      (isNaN32 a = true ∨ isNaN32 b = true ∨ (isInf32 a = true ∧ isInf32 b = true ∧ sign32 a ≠ sign32 b))) ∧
    (isNaN32 (sub32 d a b) = true ↔
      (isNaN32 a = true ∨ isNaN32 b = true ∨ (isInf32 a = true ∧ isInf32 b = true ∧ sign32 a = sign32 b))) ∧
    (isNaN32 (mul32 d a b) = true ↔
      (isNaN32 a = true ∨ isNaN32 b = true ∨ (isInf32 a = true ∧ isZero32 b = true) ∨
        (isZero32 a = true ∧ isInf32 b = true)))) ∧
  (∀ (d : Draw) (x y : DWord),
    (isNaN32 (rn32 d x) = true ↔ isNaN64 x = true) ∧
    (isNaN64 (mul64 d x y) = true ↔
      (isNaN64 x = true ∨ isNaN64 y = true ∨ (isInf64 x = true ∧ isZero64 y = true) ∨
        (isZero64 x = true ∧ isInf64 y = true))) ∧
    (isNaN64 (div64 d x y) = true ↔
      (isNaN64 x = true ∨ isNaN64 y = true ∨ (isInf64 x = true ∧ isInf64 y = true) ∨
        (isZero64 x = true ∧ isZero64 y = true))))

/-- R164: neg32 inverts bit 31 and keeps the other bits, for every word. -/
def Obligations.NegInvertsBit31 : Prop :=
  ∀ (a : Word) (k : Nat), (neg32 a).getLsbD k = if k = 31 then !a.getLsbD 31 else a.getLsbD k

/-- R167: recip32 is the correctly rounded reciprocal; exact for a power of two, where multiplying by it is the quotient
rounded once; the rule's examples. -/
def Obligations.RecipIsCorrectlyRounded : Prop :=
  (∀ n, 1 ≤ n → Rounds32 false (2 ^ 149) n (recip32 n)) ∧
  (∀ k, k ≤ 31 →
    sign32 (recip32 (2 ^ k)) = false ∧ units32 (recip32 (2 ^ k)) * 2 ^ k = 2 ^ 149 ∧
    ∀ (d : Draw) (x : Word), isNaN32 x = false → isInf32 x = false →
      Rounds32 (sign32 x) (units32 x) (2 ^ k) (mul32 d x (recip32 (2 ^ k)))) ∧
  recip32 1 = 0x3F800000 ∧ recip32 2 = 0x3F000000 ∧ recip32 3 = 0x3EAAAAAB ∧ recip32 5 = 0x3E4CCCCD ∧
    recip32 6 = 0x3E2AAAAB ∧ recip32 7 = 0x3E124925 ∧ recip32 4096 = 0x39800000

/-- R165, R166: cvt64 is the nearest binary64, exact below 2^53, which a square k² is for k up to 94906265; products and
quotients of finite binary64 words are exact, then rounded once. -/
def Obligations.AngleArithmeticRoundsOnce : Prop :=
  (∀ i : Nat, Rounds64 false (i * 2 ^ 1074) 1 (cvt64 i) ∧ (i < 2 ^ 53 → units64 (cvt64 i) = i * 2 ^ 1074)) ∧
  (∀ k : Nat, k * k < 2 ^ 53 ↔ k ≤ 94906265) ∧
  (∀ (d : Draw) (x y : DWord), isNaN64 x = false → isInf64 x = false → isNaN64 y = false → isInf64 y = false →
    Rounds64 (sign64 x != sign64 y) (units64 x * units64 y) (2 ^ 1074) (mul64 d x y) ∧
    (isZero64 y = false →
      Rounds64 (sign64 x != sign64 y) (units64 x * 2 ^ 1074) (units64 y) (div64 d x y)))

/-- R171: the complex product does not depend on the order of its factors where no part of it is a NaN. -/
def Obligations.CmulCommutes : Prop :=
  ∀ (d d' : Draw) (a b : Cplx), isNaN32 (cmul d a b).re = false → isNaN32 (cmul d a b).im = false →
    cmul d a b = cmul d' b a

/-- R170, R172: both parts of a complex product are two rounded products and one rounded difference or sum, in the order
the rule gives; the real part of a product with a conjugate, and the sum it equals. -/
def Obligations.CmulByConjugate : Prop :=
  (∀ z : Cplx, conjC z = ⟨z.re, neg32 z.im⟩) ∧
  (∀ (d d' : Draw) (u v : Word), isNaN32 (mul32 d u v) = false → mul32 d' u (neg32 v) = neg32 (mul32 d u v)) ∧
  (∀ (d : Draw) (a b : Cplx),
    (∃ d1 d2 d3, (cmul d a b).re = sub32 d1 (mul32 d2 a.re b.re) (mul32 d3 a.im b.im)) ∧
    ∃ e1 e2 e3, (cmul d a b).im = add32 e1 (mul32 e2 a.re b.im) (mul32 e3 a.im b.re)) ∧
  ∀ (d : Draw) (x y : Cplx),
    ∃ d1 d2 d3, (cmul d x (conjC y)).re = sub32 d1 (mul32 d2 x.re y.re) (mul32 d3 x.im (neg32 y.im)) ∧
      (isNaN32 (cmul d x (conjC y)).re = false →
        ∀ e1 e2 e3, (cmul d x (conjC y)).re = add32 e1 (mul32 e2 x.re y.re) (mul32 e3 x.im y.im))

/-- R173: the corner cases of the complex product. -/
def Obligations.CmulCornerCases : Prop :=
  (∀ (d : Draw) (x : Cplx),
    isNaN32 x.re = false → isInf32 x.re = false → isNaN32 x.im = false → isInf32 x.im = false →
    (cmul d x ⟨0x3F800000, 0x00000000⟩).re = (if x.re = 0x80000000 ∧ sign32 x.im = true then 0x00000000 else x.re) ∧
    (cmul d x ⟨0x3F800000, 0x00000000⟩).im = (if x.im = 0x80000000 ∧ sign32 x.re = false then 0x00000000 else x.im)) ∧
  (∀ d : Draw, (cmul d ⟨0x7F800000, 0x00000000⟩ ⟨0x3F800000, 0x00000000⟩).re = 0x7F800000 ∧
    isNaN32 (cmul d ⟨0x7F800000, 0x00000000⟩ ⟨0x3F800000, 0x00000000⟩).im = true) ∧
  (∀ d : Draw, cmul d ⟨0x7F7FC99E, 0x7F7FC99E⟩ ⟨0x40000000, 0x00000000⟩ = ⟨0x7F800000, 0x7F800000⟩) ∧
  (∀ d : Draw, (cmul d ⟨0x0DA24260, 0x00000000⟩ ⟨0x2EDBE6FF, 0x00000000⟩).re = 0x000116C2) ∧
  (∀ (d : Draw) (a b : Cplx),
    isNaN32 a.re = true ∨ isNaN32 a.im = true ∨ isNaN32 b.re = true ∨ isNaN32 b.im = true →
    isNaN32 (cmul d a b).re = true ∧ isNaN32 (cmul d a b).im = true) ∧
  (∀ d : Draw, cmul d ⟨0x3F800000, 0x40000000⟩ ⟨0x40400000, 0x40800000⟩ = ⟨0xC0A00000, 0x41200000⟩)

/-- R174: the angle of stage s is PI64 scaled by 2^(1-s), exactly. -/
def Obligations.StageAngleExact : Prop :=
  pi64 = 0x400921FB54442D18 ∧
  ∀ s, 1 ≤ s → s ≤ 16 → units64 (stageAngle s) * 2 ^ (s - 1) = units64 pi64 ∧ sign64 (stageAngle s) = false

/-- R174, R175, R180, R181: a ROM word is the cosine and the negated sine of the stage's exact angle, each narrowed once;
a chirp value is the cosine and the sine, each narrowed once, of the angle got from PI64 times k², rounded once, by
division by n, rounded once. For every pair of trig functions. -/
def Obligations.TrigValuesRoundOnce : Prop :=
  ∀ t : Config.Trig,
    (∀ s, 1 ≤ s → s ≤ 16 → ∃ (θ : DWord) (d1 d2 : Draw),
      isNaN64 θ = false ∧ isInf64 θ = false ∧ sign64 θ = false ∧ units64 θ * 2 ^ (s - 1) = units64 pi64 ∧
      twiddle t s = ⟨rn32 d1 (t.cos θ), neg32 (rn32 d2 (t.sin θ))⟩) ∧
    ∀ n k, 1 ≤ n → n < 2 ^ 31 → k < n → ∃ (q p φ : DWord) (d1 d2 : Draw),
      Rounds64 false (k * k * 2 ^ 1074) 1 q ∧ Rounds64 false (units64 pi64 * units64 q) (2 ^ 1074) p ∧
      Rounds64 false (units64 p) n φ ∧ chirp t n k = ⟨rn32 d1 (t.cos φ), rn32 d2 (t.sin φ)⟩

/-! ### Registers, host and reset -/

/-- R48: what the host reads from each register right after reset, the interrupt line, the phase. -/
def Obligations.ResetRegisterValues : Prop :=
  State.reset.readRegister 0x00 = 0x46465452 ∧ State.reset.readRegister 0x04 = 0x00002010 ∧
    (∀ off, off ≠ 0x00 → off ≠ 0x04 → State.reset.readRegister off = 0x00000000) ∧
    State.reset.irq = false ∧ State.reset.busy = false ∧ State.reset.ph = .idle

/-- R310, R311, R312: reset puts every register at its reset value and the sequencer to Idle, leaves every byte outside
the read-write regions of a running command, and leaves memory as it is while Idle. -/
def Obligations.ResetEventRestores : Prop :=
  ∀ s : State, ∃ t, s.handle .reset = .next t ∧
    (∀ off, t.readRegister off = State.reset.readRegister off) ∧ t.irq = false ∧ t.busy = false ∧ t.done = false ∧
    t.ph = .idle ∧ BytesKept s t s.runningRw ∧ (s.busy = false → t.mem = s.mem) ∧ t.holes = s.holes ∧
    t.inputs = s.inputs

/-- R122: what an aligned 32-bit read returns at each offset; it changes nothing of the unit. That a read of STATUS with
DONE = 1 empties the model's own record of results the host has not seen, those of every earlier command included, is the
model's choice (log entry 24). -/
def Obligations.RegisterReads : Prop :=
  ∀ (s : State) (off : Byte), off.toNat % 4 = 0 →
    ∃ v : Word,
      s.hostRead (.reg off) 4 =
        .next
          { s with
            hostData := bytesOfWord v
            unseen := if off = 0x0C ∧ s.done = true then [] else s.unseen } ∧
      (off = 0x00 → v = 0x46465452) ∧ (off = 0x04 → v = 0x00002010) ∧ (off = 0x08 → v = 0) ∧
      (off = 0x0C →
        v.getLsbD 0 = s.busy ∧ v.getLsbD 1 = s.done ∧ v.getLsbD 2 = decide (s.errcode ≠ .ok) ∧ v.getLsbD 3 = s.ovr ∧
        v.extractLsb 7 4 = 0#4 ∧ (v.extractLsb 11 8).toNat = s.errcode.toNat ∧ v.extractLsb 31 12 = 0#20) ∧
      (off = 0x10 → v.getLsbD 0 = s.doneIe ∧ v.extractLsb 31 1 = 0#31) ∧
      (off = 0x14 → v = s.len) ∧ (off = 0x18 → v = s.xre) ∧ (off = 0x1C → v = s.xim) ∧ (off = 0x20 → v = s.yre) ∧
      (off = 0x24 → v = s.yim) ∧ (off = 0x28 → v = s.scr) ∧ (off = 0x2C → v = s.scrsz) ∧
      (0x30 ≤ off.toNat → v = 0)

/-- R123: while BUSY = 0 a write of a configuration register stores the whole word, whatever it is. -/
def Obligations.ConfigurationWrites : Prop :=
  ∀ (s : State) (v : Word), s.busy = false →
    writeAt s 0x14 v = .next { s with len := v } ∧ writeAt s 0x18 v = .next { s with xre := v } ∧
    writeAt s 0x1C v = .next { s with xim := v } ∧ writeAt s 0x20 v = .next { s with yre := v } ∧
    writeAt s 0x24 v = .next { s with yim := v } ∧ writeAt s 0x28 v = .next { s with scr := v } ∧
    writeAt s 0x2C v = .next { s with scrsz := v }

/-- R124: a write to ID, PARAM or a reserved offset is ignored and sets nothing. -/
def Obligations.ReadOnlyWritesIgnored : Prop :=
  ∀ (s : State) (off : Byte) (v : Word), off.toNat % 4 = 0 → off = 0x00 ∨ off = 0x04 ∨ 0x30 ≤ off.toNat →
    s.hostWrite (.reg off) (bytesOfWord v) = .next s

/-- R125: while BUSY = 1 a write to CMD or a configuration register only sets OVR, writes to STATUS and IRQEN act as while
Idle, and no register write changes an operand or the latched command. -/
def Obligations.BusyRule : Prop :=
  (∀ (s : State) (v : Word) (off : Nat), s.busy = true →
    off ∈ [0x08, 0x14, 0x18, 0x1C, 0x20, 0x24, 0x28, 0x2C] → writeAt s off v = .next { s with ovr := true }) ∧
  (∀ (s : State) (v : Word), s.busy = true →
    writeAt s 0x0C v = .next { s with done := s.done && !v.getLsbD 1, ovr := s.ovr && !v.getLsbD 3 } ∧
    writeAt s 0x10 v = .next { s with doneIe := v.getLsbD 0 }) ∧
  (∀ (s t : State) (off : Byte) (bytes : List Byte), s.busy = true → s.hostWrite (.reg off) bytes = .next t →
    t.busy = true ∧ t.ph = s.ph ∧ t.cmd = s.cmd ∧ t.len = s.len ∧ t.xre = s.xre ∧ t.xim = s.xim ∧ t.yre = s.yre ∧
      t.yim = s.yim ∧ t.scr = s.scr ∧ t.scrsz = s.scrsz)

/-- R126: a write of STATUS clears DONE by bit 1 and OVR by bit 3; nothing else is writable. That ERRCODE and ERR stay
after a write of 1s to bits 1 and 3, where R311 has STATUS back at its reset value, is the model's choice, R126 followed
against R311 (log entry 26, DEDUCED). -/
def Obligations.StatusWriteOneToClear : Prop :=
  ∀ (s : State) (v : Word), ∃ t, writeAt s 0x0C v = .next t ∧
    t.done = (if v.getLsbD 1 = true then false else s.done) ∧ t.ovr = (if v.getLsbD 3 = true then false else s.ovr) ∧
    t = { s with done := t.done, ovr := t.ovr }

/-- R127: a write of IRQEN sets DONE_IE from bit 0, nothing else, and acts on IRQ at once. -/
def Obligations.InterruptEnableWrite : Prop :=
  ∀ (s : State) (v : Word), ∃ t, writeAt s 0x10 v = .next t ∧ t = { s with doneIe := v.getLsbD 0 } ∧
    t.irq = (v.getLsbD 0 && s.done)

/-- R121: a register access narrower than 32 bits or not aligned to 4 changes nothing and reads 0 in every byte. That it is
the offset that is aligned or not, whatever REG_BASE is, is the model's choice (log entry 14). -/
def Obligations.NarrowAccessHasNoEffect : Prop :=
  ∀ (s : State) (off : Byte),
    (∀ bytes : List Byte, bytes.length < 4 ∨ off.toNat % 4 ≠ 0 → s.hostWrite (.reg off) bytes = .next s) ∧
    (∀ len : Nat, len < 4 ∨ off.toNat % 4 ≠ 0 →
      s.hostRead (.reg off) len = .next { s with hostData := List.replicate len 0 })

/-- R130: a CMD write while BUSY = 0 latches the word, sets BUSY, clears DONE and ERRCODE, keeps OVR, moves to Check and
lowers IRQ; nothing else changes. -/
def Obligations.LaunchEffect : Prop :=
  ∀ (s : State) (c : Word), s.busy = false → ∃ t, writeAt s 0x08 c = .next t ∧
    t = { s with cmd := c, busy := true, done := false, errcode := .ok, ph := .run .check [] } ∧
    t.err = false ∧ t.irq = false

/-- R295: IRQ is DONE_IE and DONE; when it rises and falls. -/
def Obligations.InterruptLine : Prop :=
  (∀ s : State, s.irq = (s.doneIe && s.done)) ∧ State.reset.irq = false ∧
  (∀ (i : Instr) (s : State), s.holes = [] → ∃ t, exec i s = .next t ∧ t.irq = s.doneIe) ∧
  (∀ (s : State) (p : Phase) (rest : List Phase), s.ph = .run p rest → IllegalWord s.cmd →
    (unitStep Config.trig s).irq = s.doneIe) ∧
  (∀ (s : State) (v : Word), ∃ t, writeAt s 0x10 v = .next t ∧ t.irq = (v.getLsbD 0 && s.done)) ∧
  (∀ (s : State) (v : Word), ∃ t, writeAt s 0x0C v = .next t ∧ t.irq = (s.irq && !v.getLsbD 1)) ∧
  (∀ (s : State) (c : Word), s.busy = false → ∃ t, writeAt s 0x08 c = .next t ∧ t.irq = false) ∧
  (∀ (s : State) (v : Word) (off : Nat), s.busy = true → busyGuarded off = true →
    ∃ t, writeAt s off v = .next t ∧ t.irq = s.irq)

/-- R10, R20, R62, R121: an access on the host's bus that starts at REG_BASE + off with off below 256 is the register
access at off, and one that starts anywhere else is the memory access there. That an access over an edge of the block
goes where its first byte is, is the model's choice (log entry 13). -/
def Obligations.BusAccessesResolve : Prop :=
  (∀ (s : State) (off : Byte) (bytes : List Byte) (len : Nat),
    s.hostWrite (.bus (Config.regBase + off.toNat)) bytes = s.hostWrite (.reg off) bytes ∧
    s.hostRead (.bus (Config.regBase + off.toNat)) len = s.hostRead (.reg off) len) ∧
  ∀ (s : State) (a : Nat) (bytes : List Byte) (len : Nat), a < Config.regBase ∨ Config.regBase + 256 ≤ a →
    s.hostWrite (.bus a) bytes = s.hostWrite (.mem a) bytes ∧ s.hostRead (.bus a) len = s.hostRead (.mem a) len

/-- R71, R76(a), R76(c): host accesses of memory that are no race are plain memory; a read that is one changes no more than
a read that is none. A read is a race in the read-write regions of the running command, and in those of a completed
command until a STATUS read has returned DONE = 1; after that read every byte reads as the memory holds it. That one such
read is enough for every command completed before it, and that the unseen results of an earlier command stay a race while
a later one is BUSY, where R76(c) would have plain memory, are the model's choices (log entry 24). -/
def Obligations.HostMemoryIsPlain : Prop :=
  (∀ (s : State) (a : Nat) (bytes : List Byte), s.answers ⟨a, bytes.length, true⟩ = true →
    touches (s.runningRw ++ s.runningRo) a bytes.length = false →
    ∃ t, s.hostWrite (.mem a) bytes = .next t ∧ t = { s with mem := t.mem, draws := t.draws } ∧
      (∀ k b, bytes[k]? = some b → Memory.readByte t.mem (a + k) = b) ∧
      ∀ c, c < a ∨ a + bytes.length ≤ c → Memory.readByte t.mem c = Memory.readByte s.mem c) ∧
  (∀ (s : State) (a len : Nat), s.answers ⟨a, len, false⟩ = true →
    ∃ t, s.hostRead (.mem a) len = .next t ∧ t = { s with hostData := t.hostData, draws := t.draws } ∧
      t.hostData.length = len ∧
      ∀ k b, t.hostData[k]? = some b → inRegions (s.runningRw ++ s.unseen) (a + k) = false →
        b = Memory.readByte s.mem (a + k)) ∧
  (∀ (s : State) (a len : Nat), s.busy = false → s.done = true → s.answers ⟨a, len, false⟩ = true →
    ∃ t u, s.hostRead (.reg 0x0C) 4 = .next t ∧ t.hostRead (.mem a) len = .next u ∧ u.mem = s.mem ∧
      u.hostData = Memory.readBytes s.mem a len)

/-- R76(b): a host write to a byte of a region of the running command marks the race, and changes no byte it does not
write; the command completes with every byte outside its read-write regions as it was. The mark is the model's own field
(log entry 11). -/
def Obligations.RacingWriteStaysInRegions : Prop :=
  (∀ (s : State) (a : Nat) (bytes : List Byte), s.answers ⟨a, bytes.length, true⟩ = true →
    touches (s.runningRw ++ s.runningRo) a bytes.length = true →
    ∃ t, s.hostWrite (.mem a) bytes = .next t ∧ t.raced = true ∧
      t = { s with mem := t.mem, raced := t.raced, draws := t.draws } ∧
      ∀ c, c < a ∨ a + bytes.length ≤ c → Memory.readByte t.mem c = Memory.readByte s.mem c) ∧
  ∀ (i : Instr) (s : State), check i s = .ok → s.holes = [] → s.raced = true →
    ∃ t, exec i s = .next t ∧ Completed s t .ok ∧ t.raced = false ∧ BytesKept s t (s.rwRegions i)

/-- R71, R125, R320, R321: an event that keeps the host's duties sets neither OVR nor a race, and a memory read that keeps
them returns the bytes of memory. When a read keeps them is told by the model's own record of unseen results: that one
read of DONE = 1, by any host, ends the results of every command completed before it, so that a read outside the record
returns the bytes of memory, is the model's choice (log entry 24, DESIGN CHOICE). -/
def Obligations.CarefulHostLosesNothing : Prop :=
  ∀ (s t : State) (e : Event), s.careful e = true → s.handle e = .next t →
    (t.ovr = true → s.ovr = true) ∧ (t.raced = true → s.raced = true) ∧
      ∀ a len, e = .read (.mem a) len → t.hostData = Memory.readBytes s.mem a len

/-- A host memory access that the platform does not answer stops the model by name: the model's choice, log entry 10, and
so is that one byte in a hole refuses the whole access (log entry 27). -/
def Obligations.UnansweredHostAccessFaults : Prop :=
  ∀ (s : State) (a : Nat) (bytes : List Byte) (len : Nat),
    (s.answers ⟨a, bytes.length, true⟩ = false → s.hostWrite (.mem a) bytes = .fault (.hostAccessUnanswered a)) ∧
    (s.answers ⟨a, len, false⟩ = false → s.hostRead (.mem a) len = .fault (.hostAccessUnanswered a))

/-! ### Check and completion -/

/-- R290: the check reports the lowest-numbered failing code, with the causes of rules R282 to R289; OK when none fails;
an illegal word gives code 1 alone; the Check phase stores the code; the rule's examples. -/
def Obligations.CheckReportsLowestCode : Prop :=
  (∀ (i : Instr) (s : State) (c : ErrCode),
    check i s = c ↔
      if c = .ok then ∀ c', ¬Fails i s c' else Fails i s c ∧ ∀ c', c'.toNat < c.toNat → ¬Fails i s c') ∧
  (∀ s : State, s.ph = .run .check [] → IllegalWord s.cmd → (unitStep Config.trig s).errcode = .illegalCmd) ∧
  (∀ (i : Instr) (s : State), s.ph = .run .check [] → decodeWord s.cmd = .ok i → check i s ≠ .ok →
    (unitStep Config.trig s).errcode = check i s) ∧
  (∀ s : State, s.len = 6 → s.xre = 2 → check (.stage 3) s = .notPow2) ∧
  (∀ s : State, s.len = 40000 → s.xre = 1 → s.scrsz = 0 → check .blueF s = .tooLong)

/-- R250, R316: the padded length is the smallest power of two that is at least 2n - 1; the table of lengths; mirror
entries never land on primary entries. An example in R250 gives 8 for n = 5, where its definition and R316 give 16: that
the definition is followed is the model's choice (DEDUCED, log entry 7). -/
def Obligations.PaddedLengthLeast : Prop :=
  (∀ n, 1 ≤ n → IsPaddedLength n (paddedLength n)) ∧ paddedLength 1 = 1 ∧
  (∀ m n, 1 ≤ m → 2 ^ (m - 1) + 1 ≤ n → n ≤ 2 ^ m → paddedLength n = 2 ^ (m + 1)) ∧
  (∀ n k, 0 < k → k < n → n ≤ paddedLength n - k)

/-- R291: a command that fails its check, and a word that is none, leave the state before the launch but for STATUS and
the latched word; a command that passes completes with OK. That a command that passes completes in the one machine step
after the launch, that the latched word stays after completion, and that a failed check leaves the registers n and M, are
the model's choices (log entries 5, 22 and 25). -/
def Obligations.ErrorsAllOrNothing : Prop :=
  (∀ (i : Instr) (s : State), i.WellFormed = true → s.Inv → s.busy = false → s.inputs = [] → check i s ≠ .ok →
    ∃ t, s.hostWrite (.reg 0x08) (bytesOfWord (encode i)) = .next t ∧
      step t = .next { s with cmd := encode i, done := true, errcode := check i s }) ∧
  (∀ (w : Word) (s : State), IllegalWord w → s.Inv → s.busy = false → s.inputs = [] →
    ∃ t, s.hostWrite (.reg 0x08) (bytesOfWord w) = .next t ∧
      step t = .next { s with cmd := w, done := true, errcode := .illegalCmd }) ∧
  (∀ (i : Instr) (s : State), i.WellFormed = true → s.Inv → s.busy = false → s.inputs = [] → s.holes = [] →
    check i s = .ok →
    ∃ t u, s.hostWrite (.reg 0x08) (bytesOfWord (encode i)) = .next t ∧ step t = .next u ∧ Completed t u .ok)

/-- R66, R135, R136: every command that passes its check completes with OK and leaves every register but STATUS and every
byte outside its read-write regions; those regions are then results the host has not seen (R71). That the latched word
stays too, and the record of unseen results, are the model's choices (log entries 22 and 24). -/
def Obligations.AcceptedCommandsComplete : Prop :=
  ∀ (i : Instr) (s : State), check i s = .ok → s.holes = [] →
    ∃ t, exec i s = .next t ∧ Completed s t .ok ∧ BytesKept s t (s.rwRegions i) ∧ t.raced = false ∧
      t.unseen = s.unseen ++ s.rwRegions i

/-- R281: an illegal word launched ends with ILLEGAL_CMD in its first step; no register but STATUS changes, no byte of
memory, and the word is not readable. That the latched word stays after completion is the model's choice (log entry
22). -/
def Obligations.IllegalWordReported : Prop :=
  ∀ (s : State) (w : Word), s.busy = false → s.inputs = [] → IllegalWord w →
    ∃ t u, s.hostWrite (.reg 0x08) (bytesOfWord w) = .next t ∧ step t = .next u ∧
      u = { s with cmd := w, done := true, errcode := .illegalCmd, ph := .idle } ∧ u.readRegister 0x08 = 0

/-! ### The result of each command -/

/-- R140: NOP completes in every state; no operand is checked and no memory changes; the rule's example. That n, M and the
datapath registers stay as they are is the model's choice (log entry 22). -/
def Obligations.NopOnlyCompletes : Prop :=
  (∀ s : State, ∃ t, Runs .nop s t ∧ t.mem = s.mem ∧ t.n = s.n ∧ t.mlen = s.mlen ∧ t.dp = s.dp) ∧
  encode .nop = 0x00000000 ∧ (∀ s : State, phasesOf .nop s = []) ∧
  (∀ s : State, s.len = 0 → s.statusWord = 0x0000020E →
    ∃ t, Runs .nop (s.launch 0x00000000) t ∧ t.statusWord = 0x0000000A) ∧
  ∀ w : Word, opBits w = 0 → w ≠ 0 → ∃ e, decodeWord w = .error e

/-- R211, R212: CONJ inverts the sign of each imaginary part, bit for bit, and no byte outside X.im changes. -/
def Obligations.ConjNegatesImaginary : Prop :=
  ∀ s : State, s.Ready .conj →
    ∃ t, Runs .conj s t ∧ (∀ k, k < s.len.toNat → t.xElem k = ⟨(s.xElem k).re, neg32 (s.xElem k).im⟩) ∧
      BytesKept s t [⟨s.xim.toNat, 4 * s.len.toNat⟩]

/-- R213, R214: SCALE multiplies both parts of each element by recip32(n). -/
def Obligations.ScaleMultipliesByReciprocal : Prop :=
  ∀ s : State, s.Ready .scale →
    ∃ t, Runs .scale s t ∧
      ∀ k, k < s.len.toNat → ∃ d1 d2 : Draw,
        t.xElem k =
          ⟨mul32 d1 (s.xElem k).re (recip32 s.len.toNat), mul32 d2 (s.xElem k).im (recip32 s.len.toNat)⟩

/-- R201, R202: BITREV moves element i to the position whose bits are those of i reversed, bit for bit. -/
def Obligations.BitrevPermutes : Prop :=
  ∀ (s : State) (m : Nat), s.Ready .bitrev → s.len.toNat = 2 ^ m →
    ∃ t, Runs .bitrev s t ∧ ∀ i j, i < 2 ^ m → IsReversed m i j → t.xElem j = s.xElem i

/-- R202: BITREV twice restores X word for word, and so all of memory. -/
def Obligations.BitrevTwiceRestores : Prop :=
  ∀ s : State, s.Ready .bitrev → Memory.wf s.mem = true →
    ∃ t u, exec .bitrev s = .next t ∧ exec .bitrev t = .next u ∧ u.mem = s.mem ∧ Completed s u .ok

/-- R203, R204, R176: STAGE s gives every pair (u, v) of every block the butterfly with the rotation value of its
position, up to the bits of NaNs. That the rotation value is claimed of each pair alone, since a NaN part of it may have
other bits in another block, is the model's choice (log entry 28): R176 has one sequence for every block. -/
def Obligations.StageButterflies : Prop :=
  ∀ (s : State) (m k : Nat), s.Ready (.stage k) → s.len.toNat = 2 ^ m →
    1 ≤ k ∧ k ≤ m ∧ ∃ t, Runs (.stage k) s t ∧
      ∀ b j, b < 2 ^ (m - k) → j < 2 ^ (k - 1) → ∃ w, IsRotation (twiddle Config.trig k) j w ∧
        IsButterfly (s.xElem (b * 2 ^ k + j)) (s.xElem (b * 2 ^ k + j + 2 ^ (k - 1))) w
          (t.xElem (b * 2 ^ k + j)) (t.xElem (b * 2 ^ k + j + 2 ^ (k - 1)))

/-- R207, R208, R303: FFT2.F gives the words of BITREV; STAGE 1; ...; STAGE m run one at a time (NaN bits free). -/
def Obligations.ForwardTransformIsItsStages : Prop :=
  ∀ (s : State) (m : Nat), s.Ready .fft2F → s.len.toNat = 2 ^ m →
    ∃ t u, Runs .fft2F s t ∧
      runSequence (.bitrev :: (List.range m).map (fun k => .stage (k + 1))) s = some u ∧ u.errcode = .ok ∧
      u.done = true ∧ BytesKept s u (s.rwRegions .fft2F) ∧
      ∀ k, k < 2 ^ m → Cplx.sameUpToNaN (t.xElem k) (u.xElem k)

/-- R209, R210: FFT2.I gives the words of CONJ; FFT2.F; CONJ; SCALE (NaN bits free). -/
def Obligations.InverseTransformIsConjugated : Prop :=
  ∀ s : State, s.Ready .fft2I →
    ∃ t u, Runs .fft2I s t ∧ runSequence [.conj, .fft2F, .conj, .scale] s = some u ∧ u.errcode = .ok ∧
      u.done = true ∧ BytesKept s u (s.rwRegions .fft2I) ∧
      ∀ k, k < s.len.toNat → Cplx.sameUpToNaN (t.xElem k) (u.xElem k)

/-- R240, R241, R254: CMUL multiplies each element of X by that of Y as both stood before the command, for every legal
alias of Y with X. -/
def Obligations.CmulMultipliesElements : Prop :=
  ∀ s : State, s.Ready .cmul →
    ∃ t, Runs .cmul s t ∧ ∀ k, k < s.len.toNat → IsProduct (s.xElem k) (s.yElem k) (t.xElem k)

/-- R242, R243, R244: CHIRP.N multiplies by the conjugate chirp value, CHIRP.P by the chirp value. -/
def Obligations.ChirpMultipliesElements : Prop :=
  (∀ s : State, s.Ready .chirpN →
    ∃ t, Runs .chirpN s t ∧ ∀ k, k < s.len.toNat →
      IsProduct (s.xElem k) (conjC (chirp Config.trig s.len.toNat k)) (t.xElem k)) ∧
  (∀ s : State, s.Ready .chirpP →
    ∃ t, Runs .chirpP s t ∧ ∀ k, k < s.len.toNat →
      IsProduct (s.xElem k) (chirp Config.trig s.len.toNat k) (t.xElem k))

/-- R250 to R258: BLUE.F through its memories: Zero and ChirpFill (m0), the forward transforms of A and B (m1, m2), the
pointwise product (m3), the inverse transform of C (m4), Extract. That B stands at SCR + 8M, as the table of R250 has it
and R265 does not, is the model's choice (DEDUCED, log entry 23), and so is that a NaN part of a chirp value has the same
bits at each use (DEDUCED, log entry 15). -/
def Obligations.BluesteinSequence : Prop :=
  ∀ (s : State) (n m : Nat), s.Ready .blueF → n = s.len.toNat → m = paddedLength n →
    ∃ (t : State) (m0 m1 m2 m3 m4 : Memory), Runs .blueF s t ∧
      (∀ k, k < m →
        if k < n then IsProduct (s.xElem k) (conjC (chirp Config.trig n k)) (readC m0 (buffer s.scr.toNat m 0) k)
        else readC m0 (buffer s.scr.toNat m 0) k = ⟨0, 0⟩) ∧
      (∀ k, k < m →
        readC m0 (buffer s.scr.toNat m 8) k =
          if k < n then chirp Config.trig n k else if m - n < k then chirp Config.trig n (m - k) else ⟨0, 0⟩) ∧
      RunsOn .fft2F (buffer s.scr.toNat m 0) m m0 m1 ∧
      RunsOn .fft2F (buffer s.scr.toNat m 8) m m1 m2 ∧
      (∀ k, k < m →
        IsProduct (readC m2 (buffer s.scr.toNat m 0) k) (readC m2 (buffer s.scr.toNat m 8) k)
          (readC m3 (buffer s.scr.toNat m 16) k)) ∧
      (∀ c, inRegions [⟨s.scr.toNat + 16 * m, 8 * m⟩] c = false → Memory.readByte m3 c = Memory.readByte m2 c) ∧
      RunsOn .fft2I (buffer s.scr.toNat m 16) m m3 m4 ∧
      (∀ k, k < n →
        IsProduct (readC m4 (buffer s.scr.toNat m 16) k) (conjC (chirp Config.trig n k)) (t.xElem k)) ∧
      (∀ c, inRegions s.xRegions c = false → Memory.readByte t.mem c = Memory.readByte m4 c)

/-- R259, R260: BLUE.I gives the words of CONJ; BLUE.F; CONJ; SCALE (NaN bits free). -/
def Obligations.InverseBluesteinIsConjugated : Prop :=
  ∀ s : State, s.Ready .blueI →
    ∃ t u, Runs .blueI s t ∧ runSequence [.conj, .blueF, .conj, .scale] s = some u ∧ u.errcode = .ok ∧
      u.done = true ∧ BytesKept s u (s.rwRegions .blueI) ∧
      ∀ k, k < s.len.toNat → Cplx.sameUpToNaN (t.xElem k) (u.xElem k)

/-- R262, R263, R264: DFT.F and DFT.I run the radix-2 command where n is a power of two and the Bluestein command
elsewhere, to the same state. That the two states agree in the bits of NaNs too is the model's choice (DESIGN CHOICE, log
entry 3): both runs start at the same value of the model's own counter and take the same draws, where R162 makes each NaN
a free draw. -/
def Obligations.DftDispatchesOnPowerOfTwo : Prop :=
  (∀ (s : State) (m : Nat), s.Ready .dftF → s.len.toNat = 2 ^ m → ∃ t, Runs .dftF s t ∧ exec .fft2F s = .next t) ∧
  (∀ s : State, s.Ready .dftF → (¬∃ m, s.len.toNat = 2 ^ m) → ∃ t, Runs .dftF s t ∧ exec .blueF s = .next t) ∧
  (∀ (s : State) (m : Nat), s.Ready .dftI → s.len.toNat = 2 ^ m → ∃ t, Runs .dftI s t ∧ exec .fft2I s = .next t) ∧
  (∀ s : State, s.Ready .dftI → (¬∃ m, s.len.toNat = 2 ^ m) → ∃ t, Runs .dftI s t ∧ exec .blueI s = .next t)

/-! ### The whole machine -/

/-- The reset state meets the invariant. -/
def Obligations.ResetMeetsInvariant : Prop := State.reset.Inv

/-- Every step keeps the invariant: canonical memory within the memory space, BUSY exactly while in flight, never BUSY
and DONE together, ERRCODE 0 while BUSY, the sequencer inside the latched command's own sequence with its operands, stuck only where an access is refused. -/
def Obligations.StepKeepsInvariant : Prop := ∀ s t : State, s.Inv → step s = .next t → t.Inv

/-- R120, R131: with no event due, the step of a unit in Check runs the decoded command; a word that decodes to none is
reported; a command placed by withFetchWord is the one the next step runs. That one machine step is the whole of exec,
where a unit step is one phase, is the model's choice (log entry 5), and so is that withFetchWord stands for the launch
(log entry 8). -/
def Obligations.StepRunsLatchedCommand : Prop :=
  (∀ (s : State) (rest : List Phase) (i : Instr), s.inputs = [] → s.ph = .run .check rest →
    decodeWord s.cmd = .ok i → step s = exec i s) ∧
  (∀ (s : State) (p : Phase) (rest : List Phase) (e : DecodeError), s.inputs = [] → s.ph = .run p rest →
    decodeWord s.cmd = .error e → step s = .next (s.complete .illegalCmd)) ∧
  (∀ (s : State) (i : Instr), i.WellFormed = true →
    step (s.withFetchWord 32 (encode i).toNat) =
      exec i { s with inputs := [], cmd := encode i, busy := true, done := false, errcode := .ok,
                      ph := .run .check [] })

/-- R120, R131, R137: a command run whole is finitely many, at least one, unit steps, one phase each. Running it whole in
one step of the machine is the model's choice (log entry 5), and so is that both ways take the same draws of NaN bits (log
entry 3). -/
def Obligations.WholeCommandIsUnitSteps : Prop :=
  ∀ (i : Instr) (s t : State), s.ph = .run .check [] → decodeWord s.cmd = .ok i → exec i s = .next t →
    ∃ k, 1 ≤ k ∧ (unitStep Config.trig)^[k] s = t

/-- R138: a command's result does not depend on what an earlier command left inside the unit. That both runs take the
same draws of NaN bits, at the same value of the model's own counter, is the model's choice (DESIGN CHOICE, log entry 3). -/
def Obligations.CommandsAreReentrant : Prop :=
  ∀ (i : Instr) (s s' : State), s.holes = [] → SameOutside s s' →
    ∃ t t', exec i s = .next t ∧ exec i s' = .next t' ∧ SameOutside t t'

/-- R304: an Idle unit with no event due takes no step and keeps its state. -/
def Obligations.IdleUnitStays : Prop :=
  ∀ s : State, s.ph = .idle → s.inputs = [] → step s = .next s ∧ unitStep Config.trig s = s

/-- R68, R322: a command with a refused access neither completes nor reports a code, stays in the phase, and the unit never
moves again by itself; a byte of the stopped phase is as before the phase or as the phase writes it where no access is
refused. R68 and R322 give a refused access no step and say nothing of the memory then: what the stopped phase leaves in
it is the model's choice (log entry 9), and so is the record of unseen results, which stays (log entry 24). That one byte
in a hole refuses the whole access is the model's choice too (log entry 27), and so is that the two runs compared take the
same draws of NaN bits (log entry 3). -/
def Obligations.RefusedAccessSticks : Prop :=
  (∀ (i : Instr) (s : State) (p : Phase), decodeWord s.cmd = .ok i → check i s = .ok → s.busy = true →
    s.inputs = [] → p ∈ phasesOf i s → phaseAdmitted p (s.takeOperands i) = false →
    ∃ t, exec i s = .next t ∧ t.busy = true ∧ t.done = s.done ∧ t.errcode = s.errcode ∧
      (∃ q ∈ phasesOf i s, ∃ rest, t.ph = .stuck q rest ∧ phaseAdmitted q t = false) ∧
      SameInterface s t ∧ t.unseen = s.unseen ∧ BytesKept s t (s.rwRegions i) ∧ step t = .next t ∧
      unitStep Config.trig t = t) ∧
  ∀ (i : Instr) (s : State) (p : Phase) (rest : List Phase), s.ph = .run p rest → s.InPhase p rest i →
    phaseAdmitted p s = false →
    ∃ t u, unitStep Config.trig s = t ∧ unitStep Config.trig { s with holes := [] } = u ∧ t.ph = .stuck p rest ∧
      t.busy = s.busy ∧ t.done = s.done ∧ t.errcode = s.errcode ∧
      ∀ c, Memory.readByte t.mem c = Memory.readByte s.mem c ∨ Memory.readByte t.mem c = Memory.readByte u.mem c

/-- The model's choice (log entry 9) for CONJ: where the first refused access is to the imaginary word of element c, the
accesses before it are performed, so the elements before c are negated, every other byte is as before, and the unit stays
in the phase. R68 and R322 say only that the refused access has no step and that the unit stays BUSY. That one byte in a
hole refuses the whole access is the model's choice too (log entry 27). -/
def Obligations.ConjStopsAtRefusedElement : Prop :=
  ∀ (s : State) (c : Nat), check .conj s = .ok → c < s.len.toNat →
    (∀ k, k < c → s.answers ⟨s.xim.toNat + 4 * k, 4, false⟩ = true ∧ s.answers ⟨s.xim.toNat + 4 * k, 4, true⟩ = true) →
    s.answers ⟨s.xim.toNat + 4 * c, 4, false⟩ = false ∨ s.answers ⟨s.xim.toNat + 4 * c, 4, true⟩ = false →
    ∃ t, exec .conj s = .next t ∧ t.ph = .stuck (.conj .x) [.finish] ∧ t.busy = s.busy ∧ t.done = s.done ∧
      t.errcode = s.errcode ∧ SameInterface s t ∧
      (∀ k, k < s.len.toNat →
        t.xElem k = if k < c then ⟨(s.xElem k).re, neg32 (s.xElem k).im⟩ else s.xElem k) ∧
      BytesKept s t [⟨s.xim.toNat, 4 * c⟩]

/-- R71, R100, R293, R322: the program RUN <mnemonic> from an Idle unit: the call returns, and the STATUS word it read
last shows DONE and the code of the command's check. That three steps are enough rests on the model's choices: the whole
command in one step (log entry 5), the polling loop `wait` as one event (log entry 12). That no result is unseen then, not
even one of an earlier command, is the model's choice (log entry 24): R71 speaks of the read of DONE for that command. -/
def Obligations.SynchronousCallReturns : Prop :=
  ∀ (i : Instr) (s : State) (rest : List Event), i.WellFormed = true → s.Inv → s.busy = false → s.holes = [] →
    s.inputs = hostRun i ++ rest →
    ∃ t, stepTimes 3 s = .next t ∧ t.inputs = rest ∧ t.busy = false ∧ t.done = true ∧ t.errcode = check i s ∧
      t.hostData = bytesOfWord t.statusWord ∧ t.unseen = []

end Statements
end

