-- ==== Sys2Proof/Laws/Memory.lean ====
section
/-! SUPPORT. The laws of the memory operations: reads after writes, and the canonical form. -/

namespace Sys2Proof.Machine

open Sys2Proof

/-! ### One byte -/

@[simp] theorem Memory.readByte_nil (a : Nat) : Memory.readByte [] a = Memory.unlisted := rfl

theorem Memory.readByte_cons (x : Nat) (b : Byte) (m : Memory) (a : Nat) :
    Memory.readByte ((x, b) :: m) a = if x = a then b else Memory.readByte m a := rfl

theorem Memory.readByte_erase (m : Memory) (a c : Nat) :
    Memory.readByte (Memory.erase m a) c = if c = a then Memory.unlisted else Memory.readByte m c := by
  induction m with
  | nil => simp [Memory.erase]
  | cons h m ih =>
    obtain ⟨x, b⟩ := h
    by_cases hx : x = a
    · subst hx
      simp only [Memory.erase, if_pos, ih, Memory.readByte_cons]
      by_cases hc : c = x
      · simp [hc]
      · simp [hc, Ne.symm hc]
    · simp only [Memory.erase, hx, if_false, Memory.readByte_cons, ih]
      by_cases hxc : x = c
      · subst hxc
        simp [hx]
      · simp [hxc]

theorem Memory.readByte_insert (m : Memory) (a : Nat) (v : Byte) (c : Nat) :
    Memory.readByte (Memory.insert m a v) c = if c = a then v else Memory.readByte m c := by
  induction m with
  | nil =>
    by_cases hc : c = a
    · simp [Memory.insert, Memory.readByte_cons, hc]
    · simp [Memory.insert, Memory.readByte_cons, hc, Ne.symm hc]
  | cons h m ih =>
    obtain ⟨x, b⟩ := h
    simp only [Memory.insert]
    split
    · rename_i hlt
      simp only [Memory.readByte_cons, ih]
      by_cases hxc : x = c
      · subst hxc
        simp [show x ≠ a by omega]
      · simp [hxc]
    · split
      · rename_i hx
        subst hx
        by_cases hc : c = x
        · simp [Memory.readByte_cons, hc]
        · simp [Memory.readByte_cons, hc, Ne.symm hc]
      · by_cases hc : c = a
        · simp [Memory.readByte_cons, hc]
        · simp [Memory.readByte_cons, hc, Ne.symm hc]

/-- A read after a write gives the value written at its address and the old byte everywhere else. -/
theorem Memory.readByte_writeByte (m : Memory) (a : Nat) (v : Byte) (c : Nat) :
    Memory.readByte (Memory.writeByte m a v) c = if c = a then v else Memory.readByte m c := by
  unfold Memory.writeByte
  split
  · rename_i h
    rw [Memory.readByte_erase, h]
  · exact Memory.readByte_insert m a v c

@[simp] theorem Memory.readByte_writeByte_same (m : Memory) (a : Nat) (v : Byte) :
    Memory.readByte (Memory.writeByte m a v) a = v := by simp [Memory.readByte_writeByte]

theorem Memory.readByte_writeByte_ne (m : Memory) {a c : Nat} (v : Byte) (h : c ≠ a) :
    Memory.readByte (Memory.writeByte m a v) c = Memory.readByte m c := by simp [Memory.readByte_writeByte, h]

/-! ### The canonical form -/

theorem Memory.wfAbove_weaken {lo : Nat} {m : Memory} (h : Memory.wfAbove (some lo) m = true) :
    Memory.wfAbove none m = true := by
  cases m with
  | nil => rfl
  | cons c m =>
    obtain ⟨x, b⟩ := c
    simp only [Memory.wfAbove, Bool.and_eq_true] at h ⊢
    exact ⟨⟨trivial, h.1.2⟩, h.2⟩

theorem Memory.wfAbove_lower {lo lo' : Nat} {m : Memory} (hl : lo' ≤ lo) (h : Memory.wfAbove (some lo) m = true) :
    Memory.wfAbove (some lo') m = true := by
  cases m with
  | nil => rfl
  | cons c m =>
    obtain ⟨x, b⟩ := c
    simp only [Memory.wfAbove, Bool.and_eq_true, decide_eq_true_eq] at h ⊢
    exact ⟨⟨by omega, h.1.2⟩, h.2⟩

theorem Memory.wfAbove_erase {lo : Option Nat} {m : Memory} (a : Nat) (h : Memory.wfAbove lo m = true) :
    Memory.wfAbove lo (Memory.erase m a) = true := by
  induction m generalizing lo with
  | nil => exact h
  | cons c m ih =>
    obtain ⟨x, b⟩ := c
    simp only [Memory.wfAbove, Bool.and_eq_true] at h
    simp only [Memory.erase]
    split
    · have h2 := ih h.2
      cases lo with
      | none => exact Memory.wfAbove_weaken h2
      | some l =>
        have hlx : l < x := by simpa using h.1.1
        exact Memory.wfAbove_lower (Nat.le_of_lt hlx) h2
    · simp only [Memory.wfAbove, Bool.and_eq_true]
      exact ⟨h.1, ih h.2⟩

theorem Memory.wfAbove_insert {lo : Option Nat} {m : Memory} {a : Nat} {v : Byte} (hv : v ≠ Memory.unlisted)
    (hlo : ∀ l, lo = some l → l < a) (h : Memory.wfAbove lo m = true) :
    Memory.wfAbove lo (Memory.insert m a v) = true := by
  induction m generalizing lo with
  | nil =>
    cases lo with
    | none => simp [Memory.insert, Memory.wfAbove, hv]
    | some l => simp [Memory.insert, Memory.wfAbove, hv, hlo l rfl]
  | cons c m ih =>
    obtain ⟨x, b⟩ := c
    simp only [Memory.wfAbove, Bool.and_eq_true] at h
    simp only [Memory.insert]
    split
    · rename_i hx
      simp only [Memory.wfAbove, Bool.and_eq_true]
      exact ⟨h.1, ih (by simpa using hx) h.2⟩
    · split
      · rename_i hx
        subst hx
        simp only [Memory.wfAbove, Bool.and_eq_true]
        exact ⟨⟨h.1.1, by simpa using hv⟩, h.2⟩
      · rename_i h1 h2
        have hax : a < x := by omega
        simp only [Memory.wfAbove, Bool.and_eq_true, decide_eq_true_eq]
        refine ⟨⟨?_, hv⟩, ⟨hax, by simpa using h.1.2⟩, h.2⟩
        cases lo with
        | none => trivial
        | some l => simpa using hlo l rfl

theorem Memory.wf_writeByte {m : Memory} (a : Nat) (v : Byte) (h : Memory.wf m = true) :
    Memory.wf (Memory.writeByte m a v) = true := by
  unfold Memory.writeByte
  split
  · exact Memory.wfAbove_erase a h
  · rename_i hv
    exact Memory.wfAbove_insert hv (by simp) h

theorem Memory.wf_writeBytes {m : Memory} (a : Nat) (bs : List Byte) (h : Memory.wf m = true) :
    Memory.wf (Memory.writeBytes m a bs) = true := by
  induction bs generalizing m a with
  | nil => exact h
  | cons b bs ih => exact ih (a + 1) (Memory.wf_writeByte a b h)

theorem Memory.wf_write32 {m : Memory} (a : Nat) (v : Word) (h : Memory.wf m = true) :
    Memory.wf (Memory.write32 m a v) = true := Memory.wf_writeBytes a _ h

/-- Every listed address lies below a bound. -/
def Memory.below (m : Memory) (n : Nat) : Prop := ∀ c ∈ m, c.1 < n

theorem Memory.mem_erase {m : Memory} {a : Nat} {c : Host.Cell} (h : c ∈ Memory.erase m a) : c ∈ m := by
  induction m with
  | nil => exact h
  | cons d m ih =>
    obtain ⟨x, b⟩ := d
    simp only [Memory.erase] at h
    split at h
    · exact List.mem_cons_of_mem _ (ih h)
    · rcases List.mem_cons.mp h with h | h
      · exact h ▸ List.mem_cons_self
      · exact List.mem_cons_of_mem _ (ih h)

theorem Memory.mem_insert {m : Memory} {a : Nat} {v : Byte} {c : Host.Cell} (h : c ∈ Memory.insert m a v) :
    c = (a, v) ∨ c ∈ m := by
  induction m with
  | nil => simpa [Memory.insert] using h
  | cons d m ih =>
    obtain ⟨x, b⟩ := d
    simp only [Memory.insert] at h
    split at h
    · rcases List.mem_cons.mp h with h | h
      · exact .inr (h ▸ List.mem_cons_self)
      · exact (ih h).imp id (List.mem_cons_of_mem _)
    · split at h
      · exact (List.mem_cons.mp h).imp id (List.mem_cons_of_mem _)
      · exact List.mem_cons.mp h

theorem Memory.below_writeByte {m : Memory} {n a : Nat} (v : Byte) (ha : a < n) (h : Memory.below m n) :
    Memory.below (Memory.writeByte m a v) n := by
  intro c hc
  unfold Memory.writeByte at hc
  split at hc
  · exact h c (Memory.mem_erase hc)
  · rcases Memory.mem_insert hc with hc | hc
    · exact hc ▸ ha
    · exact h c hc

theorem Memory.below_writeBytes {m : Memory} {n a : Nat} (bs : List Byte) (ha : a + bs.length ≤ n)
    (h : Memory.below m n) : Memory.below (Memory.writeBytes m a bs) n := by
  induction bs generalizing m a with
  | nil => exact h
  | cons b bs ih =>
    simp only [List.length_cons] at ha
    exact ih (by omega) (Memory.below_writeByte b (by omega) h)

theorem bytesOfWord_length (w : Word) : (bytesOfWord w).length = 4 := rfl

theorem Memory.below_write32 {m : Memory} {n a : Nat} (v : Word) (ha : a + 4 ≤ n) (h : Memory.below m n) :
    Memory.below (Memory.write32 m a v) n := Memory.below_writeBytes _ ha h

/-! ### Words -/

theorem Memory.readByte_writeBytes_outside (m : Memory) (a : Nat) (bs : List Byte) {c : Nat}
    (h : c < a ∨ a + bs.length ≤ c) : Memory.readByte (Memory.writeBytes m a bs) c = Memory.readByte m c := by
  induction bs generalizing m a with
  | nil => rfl
  | cons b bs ih =>
    simp only [List.length_cons] at h
    rw [Memory.writeBytes, ih _ _ (by omega), Memory.readByte_writeByte_ne _ _ (by omega)]

/-- A word write changes no byte outside its four. -/
theorem Memory.readByte_write32_outside (m : Memory) (a : Nat) (v : Word) {c : Nat} (h : c < a ∨ a + 4 ≤ c) :
    Memory.readByte (Memory.write32 m a v) c = Memory.readByte m c :=
  Memory.readByte_writeBytes_outside m a _ h

/-- The bytes of a word, put together again, are the word (R60). -/
theorem wordOfBytes_bytesOfWord (w : Word) :
    wordOfBytes (BitVec.ofNat 8 w.toNat) (BitVec.ofNat 8 (w.toNat / 256)) (BitVec.ofNat 8 (w.toNat / 65536))
      (BitVec.ofNat 8 (w.toNat / 16777216)) = w := by
  apply BitVec.eq_of_toNat_eq
  have := w.isLt
  simp only [wordOfBytes, BitVec.toNat_ofNat]
  omega

/-- A word read after a word write to the same address gives the word written. -/
@[simp] theorem Memory.read32_write32_same (m : Memory) (a : Nat) (v : Word) :
    Memory.read32 (Memory.write32 m a v) a = v := by
  have h := wordOfBytes_bytesOfWord v
  simp [Memory.read32, Memory.write32, bytesOfWord, Memory.writeBytes, Memory.readByte_writeByte, -BitVec.ofNat_toNat,
    Nat.add_assoc, h]

/-- A word write leaves every word that shares no byte with it. -/
theorem Memory.read32_write32_disjoint (m : Memory) {a c : Nat} (v : Word) (h : c + 4 ≤ a ∨ a + 4 ≤ c) :
    Memory.read32 (Memory.write32 m a v) c = Memory.read32 m c := by
  unfold Memory.read32
  rw [Memory.readByte_write32_outside _ _ _ (by omega), Memory.readByte_write32_outside _ _ _ (by omega),
    Memory.readByte_write32_outside _ _ _ (by omega), Memory.readByte_write32_outside _ _ _ (by omega)]

/-- Words that read the same bytes are the same words. -/
theorem Memory.read32_congr {m m' : Memory} {a : Nat}
    (h : ∀ c, a ≤ c → c < a + 4 → Memory.readByte m c = Memory.readByte m' c) :
    Memory.read32 m a = Memory.read32 m' a := by
  unfold Memory.read32
  rw [h a (by omega) (by omega), h (a + 1) (by omega) (by omega), h (a + 2) (by omega) (by omega),
    h (a + 3) (by omega) (by omega)]

/-- Bytes of words that read the same are the same bytes. -/
theorem Memory.readByte_eq_of_read32_eq {m m' : Memory} {a c : Nat} (h : Memory.read32 m a = Memory.read32 m' a)
    (hc : a ≤ c ∧ c < a + 4) : Memory.readByte m c = Memory.readByte m' c := by
  have ht := congrArg BitVec.toNat h
  simp only [Memory.read32, wordOfBytes, BitVec.toNat_ofNat] at ht
  have h0 := (Memory.readByte m a).isLt
  have h1 := (Memory.readByte m (a + 1)).isLt
  have h2 := (Memory.readByte m (a + 2)).isLt
  have h3 := (Memory.readByte m (a + 3)).isLt
  have g0 := (Memory.readByte m' a).isLt
  have g1 := (Memory.readByte m' (a + 1)).isLt
  have g2 := (Memory.readByte m' (a + 2)).isLt
  have g3 := (Memory.readByte m' (a + 3)).isLt
  apply BitVec.eq_of_toNat_eq
  obtain hc | hc | hc | hc : c = a ∨ c = a + 1 ∨ c = a + 2 ∨ c = a + 3 := by omega
  all_goals subst hc; omega

theorem Memory.readByte_mem_of_ne {m : Memory} {a : Nat} (h : Memory.readByte m a ≠ Memory.unlisted) :
    (a, Memory.readByte m a) ∈ m := by
  induction m with
  | nil => simp at h
  | cons c m ih =>
    obtain ⟨x, b⟩ := c
    rw [Memory.readByte_cons] at h ⊢
    by_cases hx : x = a
    · simp [hx]
    · simp only [hx, if_false] at h ⊢
      exact List.mem_cons_of_mem _ (ih h)

/-- Below the lowest listed address every byte reads as unlisted. -/
theorem Memory.readByte_of_wfAbove {lo : Nat} {m : Memory} (h : Memory.wfAbove (some lo) m = true) {a : Nat}
    (ha : a ≤ lo) : Memory.readByte m a = Memory.unlisted := by
  induction m generalizing lo with
  | nil => rfl
  | cons c m ih =>
    obtain ⟨x, b⟩ := c
    simp only [Memory.wfAbove, Bool.and_eq_true, decide_eq_true_eq] at h
    rw [Memory.readByte_cons, if_neg (by omega), ih h.2 (by omega)]

/-- Two memories in canonical form that read the same everywhere are the same data. -/
theorem Memory.eq_of_readByte {m m' : Memory} (h : Memory.wf m = true) (h' : Memory.wf m' = true)
    (hr : ∀ a, Memory.readByte m a = Memory.readByte m' a) : m = m' := by
  have key : ∀ (m m' : Memory) (lo : Option Nat), Memory.wfAbove lo m = true → Memory.wfAbove lo m' = true →
      (∀ a, Memory.readByte m a = Memory.readByte m' a) → m = m' := by
    intro m
    induction m with
    | nil =>
      intro m' lo _ h' hr
      cases m' with
      | nil => rfl
      | cons c m' =>
        obtain ⟨x, b⟩ := c
        simp only [Memory.wfAbove, Bool.and_eq_true, decide_eq_true_eq] at h'
        have := hr x
        rw [Memory.readByte_cons, if_pos rfl] at this
        exact absurd this.symm h'.1.2
    | cons c m ih =>
      intro m' lo h h' hr
      obtain ⟨x, b⟩ := c
      simp only [Memory.wfAbove, Bool.and_eq_true, decide_eq_true_eq] at h
      cases m' with
      | nil =>
        have := hr x
        rw [Memory.readByte_cons, if_pos rfl] at this
        exact absurd this h.1.2
      | cons c' m' =>
        obtain ⟨y, b'⟩ := c'
        simp only [Memory.wfAbove, Bool.and_eq_true, decide_eq_true_eq] at h'
        have hxy : x = y := by
          rcases Nat.lt_trichotomy x y with hlt | heq | hgt
          · have := hr x
            rw [Memory.readByte_cons, if_pos rfl, Memory.readByte_cons, if_neg (by omega),
              Memory.readByte_of_wfAbove h'.2 (Nat.le_of_lt hlt)] at this
            exact absurd this h.1.2
          · exact heq
          · have := hr y
            rw [Memory.readByte_cons, if_neg (by omega), Memory.readByte_cons, if_pos rfl,
              Memory.readByte_of_wfAbove h.2 (Nat.le_of_lt hgt)] at this
            exact absurd this.symm h'.1.2
        subst hxy
        have hb : b = b' := by simpa [Memory.readByte_cons] using hr x
        subst hb
        have hm : m = m' := by
          refine ih m' (some x) h.2 h'.2 fun a => ?_
          by_cases ha : x = a
          · subst ha
            rw [Memory.readByte_of_wfAbove h.2 (Nat.le_refl _), Memory.readByte_of_wfAbove h'.2 (Nat.le_refl _)]
          · simpa [Memory.readByte_cons, ha] using hr a
        rw [hm]
  exact key m m' none h h' hr

end Sys2Proof.Machine
end

