-- ==== Sys2Proof/Laws/Loop.lean ====
section
/-! SUPPORT. The laws of the bounded loop and of reading and writing the elements of a vector. -/

namespace Sys2Proof.Machine

open Sys2Proof

/-! ### forRange -/

@[simp] theorem forRange_zero {α : Type} (body : Nat → α → α) (lo : Nat) (x : α) : forRange body lo 0 x = x := rfl

theorem forRange_succ {α : Type} (body : Nat → α → α) (lo cnt : Nat) (x : α) :
    forRange body lo (cnt + 1) x = forRange body (lo + 1) cnt (body lo x) := rfl

/-- The last iteration of a loop, taken off at the end. -/
theorem forRange_last {α : Type} (body : Nat → α → α) (lo cnt : Nat) (x : α) :
    forRange body lo (cnt + 1) x = body (lo + cnt) (forRange body lo cnt x) := by
  induction cnt generalizing lo x with
  | zero => rfl
  | succ k ih =>
    rw [forRange_succ, ih, forRange_succ]
    congr 1
    omega

/-- What holds before a loop and is carried by each iteration holds after it. -/
theorem forRange_induct {α : Type} {body : Nat → α → α} {lo cnt : Nat} {x : α} (P : Nat → α → Prop) (h0 : P 0 x)
    (hs : ∀ k y, k < cnt → P k y → P (k + 1) (body (lo + k) y)) : P cnt (forRange body lo cnt x) := by
  suffices h : ∀ k, k ≤ cnt → P k (forRange body lo k x) from h cnt (Nat.le_refl _)
  intro k
  induction k with
  | zero => exact fun _ => h0
  | succ k ih =>
    intro hk
    rw [forRange_last]
    exact hs k _ (by omega) (ih (by omega))

/-! ### Vectors -/

/-- The two arrays of a vector of length `l` share no byte. -/
def Bases.apart (v : Bases) (l : Nat) : Prop := v.re + 4 * l ≤ v.im ∨ v.im + 4 * l ≤ v.re

/-- An address outside both arrays of a vector of length `l`. -/
def Bases.outside (v : Bases) (l c : Nat) : Prop :=
  (c < v.re ∨ v.re + 4 * l ≤ c) ∧ (c < v.im ∨ v.im + 4 * l ≤ c)

theorem Bases.outside_mono {v : Bases} {l l' c : Nat} (hl : l' ≤ l) (h : v.outside l c) : v.outside l' c := by
  unfold Bases.outside at *
  omega

/-- Writing an element leaves every byte outside the vector. -/
theorem readByte_writeC_outside (m : Memory) (v : Bases) {l k c : Nat} (z : Cplx) (hk : k < l) (h : v.outside l c) :
    Memory.readByte (writeC m v k z) c = Memory.readByte m c := by
  unfold Bases.outside at h
  unfold writeC
  rw [Memory.readByte_write32_outside _ _ _ (by omega), Memory.readByte_write32_outside _ _ _ (by omega)]

/-- An element read after it is written is the element written. -/
theorem readC_writeC_same (m : Memory) (v : Bases) {l k : Nat} (z : Cplx) (hv : v.apart l) (hk : k < l) :
    readC (writeC m v k z) v k = z := by
  unfold Bases.apart at hv
  unfold readC writeC
  rw [Memory.read32_write32_disjoint _ _ (by omega), Memory.read32_write32_same, Memory.read32_write32_same]

/-- Writing an element leaves the others. -/
theorem readC_writeC_ne (m : Memory) (v : Bases) {l k e : Nat} (z : Cplx) (hv : v.apart l) (hk : k < l) (he : e < l)
    (hne : e ≠ k) : readC (writeC m v k z) v e = readC m v e := by
  unfold Bases.apart at hv
  unfold readC writeC
  rw [Memory.read32_write32_disjoint _ _ (by omega), Memory.read32_write32_disjoint _ _ (by omega),
    Memory.read32_write32_disjoint _ _ (by omega), Memory.read32_write32_disjoint _ _ (by omega)]

theorem readC_writeC (m : Memory) (v : Bases) {l k e : Nat} (z : Cplx) (hv : v.apart l) (hk : k < l) (he : e < l) :
    readC (writeC m v k z) v e = if e = k then z else readC m v e := by
  split
  · rename_i h
    subst h
    exact readC_writeC_same m v z hv hk
  · rename_i h
    exact readC_writeC_ne m v z hv hk he h

/-- Memories that read the same on an element's words give the same element. -/
theorem readC_congr {m m' : Memory} {v : Bases} {k : Nat}
    (h : ∀ c, (v.re + 4 * k ≤ c ∧ c < v.re + 4 * k + 4) ∨ (v.im + 4 * k ≤ c ∧ c < v.im + 4 * k + 4) →
      Memory.readByte m c = Memory.readByte m' c) : readC m v k = readC m' v k := by
  unfold readC
  rw [Memory.read32_congr (m' := m') (fun c h1 h2 => h c (.inl ⟨h1, h2⟩)),
    Memory.read32_congr (m' := m') (fun c h1 h2 => h c (.inr ⟨h1, h2⟩))]

theorem Memory.wf_writeC {m : Memory} (v : Bases) (k : Nat) (z : Cplx) (h : Memory.wf m = true) :
    Memory.wf (writeC m v k z) = true := Memory.wf_write32 _ _ (Memory.wf_write32 _ _ h)

theorem Memory.below_writeC {m : Memory} {n : Nat} {v : Bases} {k : Nat} (z : Cplx) (h1 : v.re + 4 * k + 4 ≤ n)
    (h2 : v.im + 4 * k + 4 ≤ n) (h : Memory.below m n) : Memory.below (writeC m v k z) n :=
  Memory.below_write32 _ h2 (Memory.below_write32 _ h1 h)

/-- A loop that writes element `k` of a vector at iteration `k`, from what it reads outside the elements already
written: each element is the one its own iteration computes from the memory before the loop, and every byte outside
the vector is unchanged. -/
theorem elementwise_spec {body : Nat → Work → Work} {v : Bases} {l : Nat} {g : Nat → Memory → Cplx} (x : Work)
    (hv : v.apart l) (hb : ∀ k y, k < l → (body k y).mem = writeC y.mem v k (g k y.mem))
    (hg : ∀ k m m', k < l → (∀ c, v.outside k c → Memory.readByte m c = Memory.readByte m' c) → g k m = g k m') :
    (∀ k, k < l → readC (forRange body 0 l x).mem v k = g k x.mem) ∧
      ∀ c, v.outside l c → Memory.readByte (forRange body 0 l x).mem c = Memory.readByte x.mem c := by
  have h := forRange_induct (body := body) (lo := 0) (cnt := l) (x := x)
    (fun k y => (∀ j, j < k → readC y.mem v j = g j x.mem) ∧
      ∀ c, v.outside k c → Memory.readByte y.mem c = Memory.readByte x.mem c)
    ⟨fun j hj => absurd hj (by omega), fun _ _ => rfl⟩ ?_
  · exact h
  · rintro k y hk ⟨ih1, ih2⟩
    rw [Nat.zero_add, hb k y hk, hg k y.mem x.mem hk ih2]
    refine ⟨fun j hj => ?_, fun c hc => ?_⟩
    · rw [readC_writeC _ _ _ hv hk (by omega)]
      split
      · rename_i h
        rw [h]
      · exact ih1 j (by omega)
    · rw [readByte_writeC_outside _ _ _ (Nat.lt_succ_self k) hc, ih2 c (Bases.outside_mono (by omega) hc)]

/-- The canonical form through a loop. -/
theorem forRange_wf {body : Nat → Work → Work} {lo cnt : Nat} (x : Work)
    (hb : ∀ k y, Memory.wf y.mem = true → Memory.wf (body k y).mem = true) (h : Memory.wf x.mem = true) :
    Memory.wf (forRange body lo cnt x).mem = true :=
  forRange_induct (fun _ y => Memory.wf y.mem = true) h fun _ y _ hy => hb _ y hy

/-- The address bound through a loop. -/
theorem forRange_below {body : Nat → Work → Work} {lo cnt n : Nat} (x : Work)
    (hb : ∀ k y, k < cnt → Memory.below y.mem n → Memory.below (body (lo + k) y).mem n) (h : Memory.below x.mem n) :
    Memory.below (forRange body lo cnt x).mem n :=
  forRange_induct (fun _ y => Memory.below y.mem n) h fun k y hk hy => hb k y hk hy

end Sys2Proof.Machine
end

