-- ==== Sys2Proof/Laws/Engine.lean ====
section
/-! SUPPORT. What each phase's loop does to the memory: one specification per pass of Machine/Engine.lean. -/

namespace Sys2Proof.Machine

open Sys2Proof

/-! ### Conj (R211) -/

/-- Conj negates each imaginary word and touches nothing else (R211). -/
theorem conjPass_spec (v : Bases) (l : Nat) (x : Work) :
    (∀ k, k < l → Memory.read32 (conjPass v l x).mem (v.im + 4 * k) = neg32 (Memory.read32 x.mem (v.im + 4 * k))) ∧
      ∀ c, c < v.im ∨ v.im + 4 * l ≤ c → Memory.readByte (conjPass v l x).mem c = Memory.readByte x.mem c := by
  refine forRange_induct (body := conjStep v) (lo := 0) (cnt := l) (x := x)
    (fun k y => (∀ j, j < k → Memory.read32 y.mem (v.im + 4 * j) = neg32 (Memory.read32 x.mem (v.im + 4 * j))) ∧
      ∀ c, c < v.im ∨ v.im + 4 * k ≤ c → Memory.readByte y.mem c = Memory.readByte x.mem c)
    ⟨fun j hj => absurd hj (by omega), fun _ _ => rfl⟩ ?_
  rintro k y hk ⟨ih1, ih2⟩
  simp only [conjStep, Nat.zero_add]
  refine ⟨fun j hj => ?_, fun c hc => ?_⟩
  · by_cases hjk : j = k
    · subst hjk
      rw [Memory.read32_write32_same, Memory.read32_congr (m' := x.mem) fun c h1 h2 => ih2 c (by omega)]
    · rw [Memory.read32_write32_disjoint _ _ (by omega), ih1 j (by omega)]
  · rw [Memory.readByte_write32_outside _ _ _ (by omega), ih2 c (by omega)]

/-! ### Elementwise passes (R213, R242, R254, R256) -/

/-- A vector's own element is read outside the elements already written. -/
theorem readC_own {v : Bases} {l k : Nat} {m m' : Memory} (hv : v.apart l) (hk : k < l)
    (h : ∀ c, v.outside k c → Memory.readByte m c = Memory.readByte m' c) : readC m v k = readC m' v k := by
  unfold Bases.apart at hv
  refine readC_congr fun c hc => h c ?_
  unfold Bases.outside
  omega

/-- Scale multiplies each part of each element by the reciprocal (R213). -/
theorem scalePass_spec (v : Bases) (l : Nat) (d : Draw) (x : Work) (hv : v.apart l) :
    (∀ k, k < l →
      readC (scalePass v l d x).mem v k =
        ⟨mul32 (0 :: k :: d) (readC x.mem v k).re (recip32 l), mul32 (1 :: k :: d) (readC x.mem v k).im (recip32 l)⟩) ∧
      ∀ c, v.outside l c → Memory.readByte (scalePass v l d x).mem c = Memory.readByte x.mem c := by
  refine elementwise_spec (body := scaleStep v (recip32 l) d)
    (g := fun k m => ⟨mul32 (0 :: k :: d) (readC m v k).re (recip32 l),
      mul32 (1 :: k :: d) (readC m v k).im (recip32 l)⟩) _ hv (fun k y hk => ?_) (fun k m m' hk h => ?_)
  · unfold Bases.apart at hv
    simp only [scaleStep, writeC, readC]
    rw [Memory.read32_write32_disjoint _ _ (by omega)]
  · simp only [readC_own hv hk h]

/-- ChirpMul multiplies each element by its chirp value or the conjugate (R242). -/
theorem chirpMulPass_spec (t : Config.Trig) (v : Bases) (n : Nat) (neg : Bool) (d : Draw) (x : Work)
    (hv : v.apart n) :
    (∀ k, k < n →
      readC (chirpMulPass t v n neg d x).mem v k =
        cmul (k :: d) (readC x.mem v k) (if neg then conjC (chirp t n k) else chirp t n k)) ∧
      ∀ c, v.outside n c → Memory.readByte (chirpMulPass t v n neg d x).mem c = Memory.readByte x.mem c :=
  elementwise_spec (body := chirpMulStep t v n neg d)
    (g := fun k m => cmul (k :: d) (readC m v k) (if neg then conjC (chirp t n k) else chirp t n k)) x hv
    (fun _ _ _ => rfl) (fun k m m' hk h => by simp only [readC_own hv hk h])

/-- A factor of a pointwise product whose element k is never among the elements of the destination written before it:
disjoint from the destination, or on the same bases. -/
def Bases.readable (p dst : Bases) (l : Nat) : Prop :=
  ∀ a ∈ [p.re, p.im], ∀ b ∈ [dst.re, dst.im], a = b ∨ a + 4 * l ≤ b ∨ b + 4 * l ≤ a

theorem readC_readable {p dst : Bases} {l k : Nat} {m m' : Memory} (hp : p.readable dst l) (hk : k < l)
    (h : ∀ c, dst.outside k c → Memory.readByte m c = Memory.readByte m' c) : readC m p k = readC m' p k := by
  have h1 := hp p.re (by simp) dst.re (by simp)
  have h2 := hp p.re (by simp) dst.im (by simp)
  have h3 := hp p.im (by simp) dst.re (by simp)
  have h4 := hp p.im (by simp) dst.im (by simp)
  refine readC_congr fun c hc => h c ?_
  unfold Bases.outside
  omega

/-- PointMul writes the product of each pair of elements (R254). -/
theorem pointMulPass_spec (dst p q : Bases) (l : Nat) (d : Draw) (x : Work) (hd : dst.apart l)
    (hp : p.readable dst l) (hq : q.readable dst l) :
    (∀ k, k < l →
      readC (pointMulPass dst p q l d x).mem dst k = cmul (k :: d) (readC x.mem p k) (readC x.mem q k)) ∧
      ∀ c, dst.outside l c → Memory.readByte (pointMulPass dst p q l d x).mem c = Memory.readByte x.mem c :=
  elementwise_spec (body := pointMulStep dst p q d)
    (g := fun k m => cmul (k :: d) (readC m p k) (readC m q k)) x hd (fun _ _ _ => rfl)
    (fun k m m' hk h => by simp only [readC_readable hp hk h, readC_readable hq hk h])

/-- Extract writes each result element from C and the conjugate chirp (R256). -/
theorem extractPass_spec (t : Config.Trig) (vx vc : Bases) (n : Nat) (d : Draw) (x : Work) (hx : vx.apart n)
    (hc : vc.readable vx n) :
    (∀ k, k < n →
      readC (extractPass t vx vc n d x).mem vx k = cmul (k :: d) (readC x.mem vc k) (conjC (chirp t n k))) ∧
      ∀ c, vx.outside n c → Memory.readByte (extractPass t vx vc n d x).mem c = Memory.readByte x.mem c :=
  elementwise_spec (body := extractStep t vx vc n d)
    (g := fun k m => cmul (k :: d) (readC m vc k) (conjC (chirp t n k))) x hx (fun _ _ _ => rfl)
    (fun k m m' hk h => by simp only [readC_readable hc hk h])

/-! ### Zero (R251) -/

/-- Zero clears the words of the scratch region and touches nothing else (R251). -/
theorem zeroPass_spec (scr m : Nat) (x : Work) :
    (∀ k, k < 6 * m → Memory.read32 (zeroPass scr m x).mem (scr + 4 * k) = zero32) ∧
      ∀ c, c < scr ∨ scr + 24 * m ≤ c → Memory.readByte (zeroPass scr m x).mem c = Memory.readByte x.mem c := by
  have h := forRange_induct (body := zeroStep scr) (lo := 0) (cnt := 6 * m) (x := x)
    (fun k y => (∀ j, j < k → Memory.read32 y.mem (scr + 4 * j) = zero32) ∧
      ∀ c, c < scr ∨ scr + 4 * k ≤ c → Memory.readByte y.mem c = Memory.readByte x.mem c)
    ⟨fun j hj => absurd hj (by omega), fun _ _ => rfl⟩ ?_
  · exact ⟨h.1, fun c hc => h.2 c (by omega)⟩
  · rintro k y hk ⟨ih1, ih2⟩
    simp only [zeroStep, Nat.zero_add]
    refine ⟨fun j hj => ?_, fun c hc => ?_⟩
    · by_cases hjk : j = k
      · subst hjk
        exact Memory.read32_write32_same _ _ _
      · rw [Memory.read32_write32_disjoint _ _ (by omega), ih1 j (by omega)]
    · rw [Memory.readByte_write32_outside _ _ _ (by omega), ih2 c (by omega)]

/-! ### ChirpFill (R252) -/

/-- No array of one vector shares a byte with an array of the other. -/
def Bases.clear (p : Bases) (lp : Nat) (q : Bases) (lq : Nat) : Prop :=
  ∀ a ∈ [p.re, p.im], ∀ b ∈ [q.re, q.im], a + 4 * lp ≤ b ∨ b + 4 * lq ≤ a

theorem Bases.clear.symm {p q : Bases} {lp lq : Nat} (h : p.clear lp q lq) : q.clear lq p lp :=
  fun a ha b hb => (h b hb a ha).symm

/-- Writing an element of a vector leaves the elements of a vector clear of it. -/
theorem readC_writeC_clear (m : Memory) {p q : Bases} {lp lq k e : Nat} (z : Cplx) (h : p.clear lp q lq)
    (hk : k < lp) (he : e < lq) : readC (writeC m p k z) q e = readC m q e := by
  have h1 := h p.re (by simp) q.re (by simp)
  have h2 := h p.re (by simp) q.im (by simp)
  have h3 := h p.im (by simp) q.re (by simp)
  have h4 := h p.im (by simp) q.im (by simp)
  unfold readC writeC
  rw [Memory.read32_write32_disjoint _ _ (by omega), Memory.read32_write32_disjoint _ _ (by omega),
    Memory.read32_write32_disjoint _ _ (by omega), Memory.read32_write32_disjoint _ _ (by omega)]

/-- ChirpFill builds a, b and the mirror of b (a plain copy), leaves the other elements of A and B, and touches nothing
outside A and B (R252). -/
theorem chirpFillPass_spec (t : Config.Trig) (vx va vb : Bases) (n m : Nat) (d : Draw) (x : Work) (hn : 1 ≤ n)
    (hm : 2 * n - 1 ≤ m) (ha : va.apart m) (hb : vb.apart m) (hab : va.clear m vb m) (hxa : va.clear m vx n)
    (hxb : vb.clear m vx n) :
    (∀ e, e < m → readC (chirpFillPass t vx va vb n m d x).mem va e =
      if e < n then cmul (e :: d) (readC x.mem vx e) (conjC (chirp t n e)) else readC x.mem va e) ∧
    (∀ e, e < m → readC (chirpFillPass t vx va vb n m d x).mem vb e =
      if e < n then chirp t n e else if m - n < e then chirp t n (m - e) else readC x.mem vb e) ∧
    ∀ c, va.outside m c → vb.outside m c →
      Memory.readByte (chirpFillPass t vx va vb n m d x).mem c = Memory.readByte x.mem c := by
  have h := forRange_induct (body := chirpFillStep t vx va vb n m d) (lo := 0) (cnt := n) (x := x)
    (fun k y =>
      (∀ e, e < m → readC y.mem va e =
        if e < k then cmul (e :: d) (readC x.mem vx e) (conjC (chirp t n e)) else readC x.mem va e) ∧
      (∀ e, e < m → readC y.mem vb e =
        if e < k then chirp t n e else if m - k < e then chirp t n (m - e) else readC x.mem vb e) ∧
      (∀ e, e < n → readC y.mem vx e = readC x.mem vx e) ∧
      ∀ c, va.outside m c → vb.outside m c → Memory.readByte y.mem c = Memory.readByte x.mem c)
    ⟨fun e he => by rw [if_neg (by omega)], fun e he => by rw [if_neg (by omega), if_neg (by omega)],
      fun _ _ => rfl, fun _ _ _ => rfl⟩ ?_
  · exact ⟨h.1, h.2.1, h.2.2.2⟩
  · rintro k y hk ⟨ih1, ih2, ih3, ih4⟩
    simp only [chirpFillStep, Nat.zero_add, ih3 k hk]
    refine ⟨fun e he => ?_, fun e he => ?_, fun e he => ?_, fun c hca hcb => ?_⟩
    · have step : readC (writeC (writeC y.mem va k (cmul (k :: d) (readC x.mem vx k) (conjC (chirp t n k)))) vb k
          (chirp t n k)) va e =
          if e < k + 1 then cmul (e :: d) (readC x.mem vx e) (conjC (chirp t n e)) else readC x.mem va e := by
        rw [readC_writeC_clear _ _ hab.symm (by omega) he, readC_writeC _ _ _ ha (by omega) he]
        by_cases hek : e = k
        · subst hek
          rw [if_pos rfl, if_pos (by omega)]
        · rw [if_neg hek, ih1 e he]
          by_cases h1 : e < k
          · rw [if_pos h1, if_pos (by omega)]
          · rw [if_neg h1, if_neg (by omega)]
      split
      · rw [readC_writeC_clear _ _ hab.symm (by omega) he, step]
      · exact step
    · have step : readC (writeC (writeC y.mem va k (cmul (k :: d) (readC x.mem vx k) (conjC (chirp t n k)))) vb k
          (chirp t n k)) vb e =
          if e < k + 1 then chirp t n e else if m - k < e then chirp t n (m - e) else readC x.mem vb e := by
        rw [readC_writeC _ _ _ hb (by omega) he, readC_writeC_clear _ _ hab (by omega) he, ih2 e he]
        by_cases hek : e = k
        · subst hek
          rw [if_pos rfl, if_pos (by omega)]
        · rw [if_neg hek]
          by_cases h1 : e < k
          · rw [if_pos h1, if_pos (by omega)]
          · rw [if_neg h1, if_neg (by omega : ¬ e < k + 1)]
      split
      · rw [readC_writeC _ _ _ hb (by omega) he, step]
        by_cases hek : e = m - k
        · subst hek
          rw [if_pos rfl, if_neg (by omega), if_pos (by omega), show m - (m - k) = k by omega]
        · rw [if_neg hek]
          by_cases h1 : e < k + 1
          · rw [if_pos h1, if_pos h1]
          · rw [if_neg h1, if_neg h1]
            by_cases h2 : m - k < e
            · rw [if_pos h2, if_pos (by omega)]
            · rw [if_neg h2, if_neg (by omega)]
      · rw [step]
        obtain rfl : k = 0 := by omega
        by_cases h1 : e < 0 + 1
        · rw [if_pos h1, if_pos h1]
        · rw [if_neg h1, if_neg h1, if_neg (by omega), if_neg (by omega)]
    · have step : readC (writeC (writeC y.mem va k (cmul (k :: d) (readC x.mem vx k) (conjC (chirp t n k)))) vb k
          (chirp t n k)) vx e = readC x.mem vx e := by
        rw [readC_writeC_clear _ _ hxb (by omega) he, readC_writeC_clear _ _ hxa (by omega) he, ih3 e he]
      split
      · rw [readC_writeC_clear _ _ hxb (by omega) he, step]
      · exact step
    · have step : Memory.readByte (writeC (writeC y.mem va k
          (cmul (k :: d) (readC x.mem vx k) (conjC (chirp t n k)))) vb k (chirp t n k)) c = Memory.readByte x.mem c := by
        rw [readByte_writeC_outside _ _ _ (by omega : k < m) hcb, readByte_writeC_outside _ _ _ (by omega : k < m) hca,
          ih4 c hca hcb]
      split
      · rw [readByte_writeC_outside _ _ _ (by omega : m - k < m) hcb, step]
      · exact step

/-! ### BitRev (R201) -/

theorem revBits_lt (m i : Nat) : revBits m i < 2 ^ m := by
  induction m generalizing i with
  | zero => simp [revBits]
  | succ m ih =>
    have h1 := ih (i / 2)
    have h2 : i % 2 < 2 := Nat.mod_lt _ (by omega)
    rw [revBits, Nat.pow_succ]
    rcases (show i % 2 = 0 ∨ i % 2 = 1 by omega) with h | h <;> rw [h] <;> omega

@[simp] theorem revBits_zero (m : Nat) : revBits m 0 = 0 := by
  induction m with
  | zero => rfl
  | succ m ih => simp [revBits, ih]

/-- Bit j of rev(i) is bit m - 1 - j of i (R201). -/
theorem testBit_revBits (m i j : Nat) (hj : j < m) : (revBits m i).testBit j = i.testBit (m - 1 - j) := by
  induction m generalizing i with
  | zero => omega
  | succ m ih =>
    have hlt := revBits_lt m (i / 2)
    rw [revBits]
    rcases (show j < m ∨ j = m by omega) with hjm | hjm
    · rw [Nat.mul_comm, Nat.testBit_two_pow_mul_add _ hlt, if_pos hjm, ih _ hjm, ← Nat.testBit_succ]
      congr 1
      omega
    · subst hjm
      rw [Nat.mul_comm, Nat.testBit_two_pow_mul_add _ hlt, if_neg (by omega)]
      simp [Nat.testBit_zero]

/-- rev is its own inverse (R201, R202). -/
theorem revBits_revBits (m i : Nat) (hi : i < 2 ^ m) : revBits m (revBits m i) = i := by
  apply Nat.eq_of_testBit_eq
  intro j
  by_cases hj : j < m
  · rw [testBit_revBits m _ j hj, testBit_revBits m _ _ (by omega)]
    congr 1
    omega
  · rw [Nat.testBit_lt_two_pow (Nat.lt_of_lt_of_le (revBits_lt m _) (Nat.pow_le_pow_right (by omega) (by omega))),
      Nat.testBit_lt_two_pow (Nat.lt_of_lt_of_le hi (Nat.pow_le_pow_right (by omega) (by omega)))]

/-- The counter's update takes rev(i) to rev(i + 1) (R201). -/
theorem revNext_revBits (m fuel i : Nat) (hf : m ≤ fuel) (hi : i + 1 < 2 ^ m) :
    revNext fuel (2 ^ (m - 1)) (revBits m i) = revBits m (i + 1) := by
  induction m generalizing fuel i with
  | zero => simp at hi
  | succ m ih =>
    obtain ⟨fuel, rfl⟩ : ∃ f, fuel = f + 1 := ⟨fuel - 1, by omega⟩
    have hlt := revBits_lt m (i / 2)
    have hbit : (revBits (m + 1) i).testBit m = decide (i % 2 = 1) := by
      rw [testBit_revBits _ _ _ (by omega)]
      simp [Nat.testBit_zero]
    have hand : revBits (m + 1) i &&& 2 ^ m = (decide (i % 2 = 1)).toNat * 2 ^ m := by
      rw [Nat.and_two_pow, hbit]
    simp only [Nat.add_sub_cancel, revNext]
    rcases (show i % 2 = 0 ∨ i % 2 = 1 by omega) with h | h
    · rw [hand]
      simp only [h, zero_ne_one, decide_false, Bool.toNat_false, zero_mul, ne_eq, not_true_eq_false, if_false]
      rw [revBits, revBits, h, show (i + 1) % 2 = 1 by omega, show (i + 1) / 2 = i / 2 by omega]
      simp only [zero_mul, zero_add, one_mul]
      apply Nat.eq_of_testBit_eq
      intro j
      rw [Nat.testBit_xor, ← Nat.mul_one (2 ^ m), Nat.testBit_two_pow_mul_add _ hlt]
      by_cases hj : j < m
      · rw [if_pos hj, Nat.mul_one, Nat.testBit_two_pow_of_ne (by omega)]
        simp
      · rw [if_neg hj, Nat.testBit_lt_two_pow (Nat.lt_of_lt_of_le hlt (Nat.pow_le_pow_right (by omega) (by omega))),
          Nat.mul_one]
        by_cases hjm : j = m
        · subst hjm
          simp
        · rw [Nat.testBit_two_pow_of_ne (by omega)]
          rw [show (1 : Nat).testBit (j - m) = false from ?_]
          · rfl
          · rw [Nat.testBit_lt_two_pow (Nat.one_lt_two_pow (by omega))]
    · have hpos : 0 < 2 ^ m := Nat.two_pow_pos m
      rw [hand]
      simp only [h, decide_true, Bool.toNat_true, one_mul, ne_eq, Nat.pos_iff_ne_zero.mp hpos, not_false_eq_true,
        if_true]
      have hx : revBits (m + 1) i ^^^ 2 ^ m = revBits m (i / 2) := by
        apply Nat.eq_of_testBit_eq
        intro j
        rw [revBits, h, Nat.testBit_xor, Nat.mul_comm, Nat.testBit_two_pow_mul_add _ hlt]
        by_cases hj : j < m
        · rw [if_pos hj, Nat.testBit_two_pow_of_ne (by omega)]
          simp
        · rw [if_neg hj,
            Nat.testBit_lt_two_pow (Nat.lt_of_lt_of_le hlt (Nat.pow_le_pow_right (by omega) (by omega)))]
          by_cases hjm : j = m
          · subst hjm
            simp
          · rw [Nat.testBit_two_pow_of_ne (by omega),
              Nat.testBit_lt_two_pow (Nat.one_lt_two_pow (by omega))]
            rfl
      have hm : m ≠ 0 := by
        rintro rfl
        simp at hi
        omega
      have hi2 : i / 2 + 1 < 2 ^ m := by
        rw [Nat.pow_succ] at hi
        omega
      rw [hx, show 2 ^ m / 2 = 2 ^ (m - 1) from ?_, ih fuel (i / 2) (by omega) hi2]
      · rw [revBits, show (i + 1) % 2 = 0 by omega, show (i + 1) / 2 = i / 2 + 1 by omega]
        simp
      · obtain ⟨k, rfl⟩ := Nat.exists_eq_succ_of_ne_zero hm
        rw [Nat.succ_sub_one, Nat.pow_succ]
        omega

theorem revStep_revBits (m i : Nat) (hi : i + 1 < 2 ^ m) : revStep (2 ^ m) (revBits m i) = revBits m (i + 1) := by
  have hm : m ≠ 0 := by
    rintro rfl
    simp at hi
  have h2 : 2 ^ m / 2 = 2 ^ (m - 1) := by
    obtain ⟨k, rfl⟩ := Nat.exists_eq_succ_of_ne_zero hm
    rw [Nat.succ_sub_one, Nat.pow_succ]
    omega
  rw [revStep, h2, Nat.log2_two_pow]
  exact revNext_revBits m (m + 1) i (by omega) hi

/-- Exchanging the real words and the imaginary words of two elements exchanges the elements. -/
theorem readC_swap (m : Memory) (v : Bases) {l i r e : Nat} (hv : v.apart l) (hi : i < l) (hr : r < l) (he : e < l)
    (hne : i ≠ r) :
    readC (swap32 (swap32 m (v.re + 4 * i) (v.re + 4 * r)) (v.im + 4 * i) (v.im + 4 * r)) v e =
      if e = i then readC m v r else if e = r then readC m v i else readC m v e := by
  unfold Bases.apart at hv
  unfold readC swap32
  by_cases h1 : e = i
  · subst h1
    rw [if_pos rfl]
    congr 1
    · repeat rw [Memory.read32_write32_disjoint _ _ (by omega)]
      rw [Memory.read32_write32_same]
    · rw [Memory.read32_write32_disjoint _ _ (by omega), Memory.read32_write32_same]
      repeat rw [Memory.read32_write32_disjoint _ _ (by omega)]
  · rw [if_neg h1]
    by_cases h2 : e = r
    · subst h2
      rw [if_pos rfl]
      congr 1
      · rw [Memory.read32_write32_disjoint _ _ (by omega), Memory.read32_write32_disjoint _ _ (by omega),
          Memory.read32_write32_same]
      · rw [Memory.read32_write32_same]
        repeat rw [Memory.read32_write32_disjoint _ _ (by omega)]
    · rw [if_neg h2]
      congr 1
      · repeat rw [Memory.read32_write32_disjoint _ _ (by omega)]
      · repeat rw [Memory.read32_write32_disjoint _ _ (by omega)]

theorem readByte_swap_outside (m : Memory) (v : Bases) {l i r c : Nat} (hi : i < l) (hr : r < l)
    (hc : v.outside l c) :
    Memory.readByte (swap32 (swap32 m (v.re + 4 * i) (v.re + 4 * r)) (v.im + 4 * i) (v.im + 4 * r)) c =
      Memory.readByte m c := by
  unfold Bases.outside at hc
  unfold swap32
  repeat rw [Memory.readByte_write32_outside _ _ _ (by omega)]

/-- BitRev moves element i to rev(i), bit for bit, and touches nothing outside the vector (R201). -/
theorem bitRevPass_spec (v : Bases) (m : Nat) (x : Work) (hv : v.apart (2 ^ m)) :
    (∀ e, e < 2 ^ m → readC (bitRevPass v (2 ^ m) x).mem v e = readC x.mem v (revBits m e)) ∧
      ∀ c, v.outside (2 ^ m) c → Memory.readByte (bitRevPass v (2 ^ m) x).mem c = Memory.readByte x.mem c := by
  have hpos : 0 < 2 ^ m := Nat.two_pow_pos m
  have h := forRange_induct (body := bitRevStep v (2 ^ m)) (lo := 1) (cnt := 2 ^ m - 1)
    (x := { x with dp := { x.dp with bitR := 0 } })
    (fun k y => y.dp.bitR = revBits m k ∧
      (∀ e, e < 2 ^ m → readC y.mem v e =
        if min e (revBits m e) < k + 1 then readC x.mem v (revBits m e) else readC x.mem v e) ∧
      ∀ c, v.outside (2 ^ m) c → Memory.readByte y.mem c = Memory.readByte x.mem c)
    ⟨by simp, fun e he => ?_, fun _ _ => rfl⟩ ?_
  · obtain ⟨-, h2, h3⟩ := h
    refine ⟨fun e he => ?_, h3⟩
    rw [bitRevPass, h2 e he, if_pos (by omega)]
  · split
    · rename_i hlt
      rcases (show e = 0 ∨ revBits m e = 0 by omega) with h0 | h0
      · simp [h0]
      · have := revBits_revBits m e he
        rw [h0, revBits_zero] at this
        simp [← this]
    · rfl
  · rintro k y hk ⟨ih1, ih2, ih3⟩
    have hr : revStep (2 ^ m) y.dp.bitR = revBits m (k + 1) := by rw [ih1, revStep_revBits m k (by omega)]
    have hrl := revBits_lt m (k + 1)
    simp only [bitRevStep, hr, Nat.add_comm 1 k]
    refine ⟨trivial, fun e he => ?_, fun c hc => ?_⟩
    · have hrr := revBits_revBits m (k + 1) (by omega)
      have hee := revBits_revBits m e he
      have hel := revBits_lt m e
      split
      · rename_i hlt
        rw [readC_swap _ _ hv (by omega) hrl he (by omega)]
        by_cases h1 : e = k + 1
        · subst h1
          rw [if_pos rfl, ih2 _ hrl, hrr, if_neg (by omega), if_pos (by omega)]
        · rw [if_neg h1]
          by_cases h2 : e = revBits m (k + 1)
          · subst h2
            rw [if_pos rfl, ih2 _ (by omega), hrr, if_neg (by omega), if_pos (by omega)]
          · rw [if_neg h2, ih2 e he]
            have h3 : revBits m e ≠ k + 1 := by
              intro h
              rw [h] at hee
              exact h2 hee.symm
            by_cases h4 : min e (revBits m e) < k + 1
            · rw [if_pos h4, if_pos (by omega)]
            · rw [if_neg h4, if_neg (by omega)]
      · rename_i hge
        rw [ih2 e he]
        by_cases h4 : min e (revBits m e) < k + 1
        · rw [if_pos h4, if_pos (by omega)]
        · rw [if_neg h4]
          by_cases h5 : min e (revBits m e) < k + 1 + 1
          · rw [if_pos h5]
            rcases (show e = k + 1 ∨ revBits m e = k + 1 by omega) with h6 | h6
            · have : revBits m e = e := by
                subst h6
                omega
              rw [this]
            · have h7 : e = revBits m (k + 1) := by rw [← h6, hee]
              have : revBits m e = e := by
                rw [h6]
                omega
              rw [this]
          · rw [if_neg h5]
    · split
      · rename_i hlt
        rw [readByte_swap_outside _ _ (by omega) hrl hc, ih3 c hc]
      · exact ih3 c hc

/-! ### Stage (R203) -/

/-- The draws of the rotation steps of one block. -/
def rotationDraws (d : Draw) (blk : Nat) : Nat → Draw := fun j => 5 :: j :: blk :: d

/-- What a stage leaves in the elements u and v of a pair (R203, R204, R176). -/
def stageU (d : Draw) (ω : Cplx) (blk j : Nat) (xu xv : Cplx) : Cplx :=
  bflyU (j :: blk :: d) xu (bflyTemp (j :: blk :: d) xv (rotation (rotationDraws d blk) ω j))

def stageV (d : Draw) (ω : Cplx) (blk j : Nat) (xu xv : Cplx) : Cplx :=
  bflyV (j :: blk :: d) xu (bflyTemp (j :: blk :: d) xv (rotation (rotationDraws d blk) ω j))

/-- One block: each pair gets its butterfly with the block's own rotation sequence; nothing else changes. -/
theorem stageBlock_spec (v : Bases) (half l b : Nat) (d : Draw) (x : Work) (hv : v.apart l)
    (hb : b * (2 * half) + 2 * half ≤ l) :
    (stageBlock v half d b x).dp.omega = x.dp.omega ∧
    (∀ j, j < half →
      readC (stageBlock v half d b x).mem v (b * (2 * half) + j) =
        stageU d x.dp.omega (b * (2 * half)) j (readC x.mem v (b * (2 * half) + j))
          (readC x.mem v (b * (2 * half) + j + half)) ∧
      readC (stageBlock v half d b x).mem v (b * (2 * half) + j + half) =
        stageV d x.dp.omega (b * (2 * half)) j (readC x.mem v (b * (2 * half) + j))
          (readC x.mem v (b * (2 * half) + j + half))) ∧
    (∀ e, e < l → (e < b * (2 * half) ∨ b * (2 * half) + 2 * half ≤ e) →
      readC (stageBlock v half d b x).mem v e = readC x.mem v e) ∧
    ∀ c, v.outside l c → Memory.readByte (stageBlock v half d b x).mem c = Memory.readByte x.mem c := by
  generalize hblk : b * (2 * half) = blk at *
  have h := forRange_induct (body := stagePosition v half blk d) (lo := 0) (cnt := half)
    (x := { x with dp := { x.dp with blk := blk, w := oneC } })
    (fun k y => y.dp.omega = x.dp.omega ∧ (k < half → y.dp.w = rotation (rotationDraws d blk) x.dp.omega k) ∧
      (∀ j, j < k →
        readC y.mem v (blk + j) = stageU d x.dp.omega blk j (readC x.mem v (blk + j)) (readC x.mem v (blk + j + half)) ∧
        readC y.mem v (blk + j + half) =
          stageV d x.dp.omega blk j (readC x.mem v (blk + j)) (readC x.mem v (blk + j + half))) ∧
      (∀ e, e < l → (e < blk ∨ (blk + k ≤ e ∧ e < blk + half) ∨ blk + half + k ≤ e) →
        readC y.mem v e = readC x.mem v e) ∧
      ∀ c, v.outside l c → Memory.readByte y.mem c = Memory.readByte x.mem c)
    ⟨rfl, fun _ => rfl, fun j hj => absurd hj (by omega), fun _ _ _ => rfl, fun _ _ => rfl⟩ ?_
  · obtain ⟨h1, -, h3, h4, h5⟩ := h
    rw [stageBlock, hblk]
    exact ⟨h1, h3, fun e he hne => h4 e he (by omega), h5⟩
  · rintro k y hk ⟨ih1, ih2, ih3, ih4, ih5⟩
    have hu := ih4 (blk + k) (by omega) (by omega)
    have hw := ih4 (blk + k + half) (by omega) (by omega)
    simp only [stagePosition, Nat.zero_add, hu, hw, ih2 hk, ih1]
    refine ⟨trivial, fun hk1 => by rw [if_pos hk1]; rfl, fun j hj => ?_, fun e he hne => ?_, fun c hc => ?_⟩
    · by_cases hjk : j = k
      · subst hjk
        rw [readC_writeC_same _ _ _ hv (by omega), readC_writeC_ne _ _ _ hv (by omega) (by omega) (by omega),
          readC_writeC_same _ _ _ hv (by omega)]
        exact ⟨rfl, rfl⟩
      · rw [readC_writeC_ne _ _ _ hv (by omega) (by omega) (by omega),
          readC_writeC_ne _ _ _ hv (by omega) (by omega) (by omega),
          readC_writeC_ne _ _ _ hv (by omega) (by omega) (by omega),
          readC_writeC_ne _ _ _ hv (by omega) (by omega) (by omega)]
        exact ih3 j (by omega)
    · rw [readC_writeC_ne _ _ _ hv (by omega) he (by omega), readC_writeC_ne _ _ _ hv (by omega) he (by omega)]
      exact ih4 e he (by omega)
    · rw [readByte_writeC_outside _ _ _ (by omega : blk + k < l) hc,
        readByte_writeC_outside _ _ _ (by omega : blk + k + half < l) hc, ih5 c hc]

/-- Stage s gives every pair of every block its butterfly with the twiddle of its position, and touches nothing outside
the vector (R203, R204, R206). -/
theorem stagePass_spec (v : Bases) (m s : Nat) (tw : Cplx) (d : Draw) (x : Work) (hs : 1 ≤ s) (hsm : s ≤ m)
    (hv : v.apart (2 ^ m)) :
    (∀ b j, b < 2 ^ m / 2 ^ s → j < 2 ^ (s - 1) →
      readC (stagePass v (2 ^ m) s tw d x).mem v (b * 2 ^ s + j) =
        stageU d tw (b * 2 ^ s) j (readC x.mem v (b * 2 ^ s + j)) (readC x.mem v (b * 2 ^ s + j + 2 ^ (s - 1))) ∧
      readC (stagePass v (2 ^ m) s tw d x).mem v (b * 2 ^ s + j + 2 ^ (s - 1)) =
        stageV d tw (b * 2 ^ s) j (readC x.mem v (b * 2 ^ s + j)) (readC x.mem v (b * 2 ^ s + j + 2 ^ (s - 1)))) ∧
    ∀ c, v.outside (2 ^ m) c → Memory.readByte (stagePass v (2 ^ m) s tw d x).mem c = Memory.readByte x.mem c := by
  have h2 : 2 * 2 ^ (s - 1) = 2 ^ s := by
    obtain ⟨k, rfl⟩ : ∃ k, s = k + 1 := ⟨s - 1, by omega⟩
    rw [Nat.add_sub_cancel, Nat.pow_succ]
    omega
  have hdvd : 2 ^ m / 2 ^ s * 2 ^ s = 2 ^ m := Nat.div_mul_cancel (Nat.pow_dvd_pow 2 hsm)
  generalize hN : 2 ^ m / 2 ^ s = N at *
  have h := forRange_induct (body := stageBlock v (2 ^ (s - 1)) d) (lo := 0) (cnt := N)
    (x := { x with dp := { x.dp with stage := s, omega := tw } })
    (fun k y => y.dp.omega = tw ∧
      (∀ b j, b < k → j < 2 ^ (s - 1) →
        readC y.mem v (b * 2 ^ s + j) =
          stageU d tw (b * 2 ^ s) j (readC x.mem v (b * 2 ^ s + j)) (readC x.mem v (b * 2 ^ s + j + 2 ^ (s - 1))) ∧
        readC y.mem v (b * 2 ^ s + j + 2 ^ (s - 1)) =
          stageV d tw (b * 2 ^ s) j (readC x.mem v (b * 2 ^ s + j)) (readC x.mem v (b * 2 ^ s + j + 2 ^ (s - 1)))) ∧
      (∀ e, e < 2 ^ m → k * 2 ^ s ≤ e → readC y.mem v e = readC x.mem v e) ∧
      ∀ c, v.outside (2 ^ m) c → Memory.readByte y.mem c = Memory.readByte x.mem c)
    ⟨rfl, fun b j hb => absurd hb (by omega), fun _ _ _ => rfl, fun _ _ => rfl⟩ ?_
  · obtain ⟨-, h3, -, h5⟩ := h
    rw [stagePass, hN]
    exact ⟨h3, h5⟩
  · rintro k y hk ⟨ih1, ih2, ih3, ih4⟩
    have hkN : k * 2 ^ s + 2 ^ s ≤ 2 ^ m := by
      rw [← hdvd, ← Nat.succ_mul]
      exact Nat.mul_le_mul_right _ hk
    have hsp := stageBlock_spec v (2 ^ (s - 1)) (2 ^ m) k d y hv (by rw [h2]; exact hkN)
    rw [h2, ih1] at hsp
    obtain ⟨s1, s2, s3, s4⟩ := hsp
    rw [Nat.zero_add]
    refine ⟨s1, fun b j hb hj => ?_, fun e he hke => ?_, fun c hc => ?_⟩
    · by_cases hbk : b = k
      · subst hbk
        rw [(s2 j hj).1, (s2 j hj).2, ih3 _ (by omega) (by omega), ih3 _ (by omega) (by omega)]
        exact ⟨rfl, rfl⟩
      · have hb1 : b * 2 ^ s + 2 ^ s ≤ k * 2 ^ s := by
          rw [← Nat.succ_mul]
          exact Nat.mul_le_mul_right _ (by omega)
        rw [s3 _ (by omega) (by omega), s3 _ (by omega) (by omega)]
        exact ih2 b j (by omega) hj
    · rw [Nat.succ_mul] at hke
      rw [s3 e he (by omega), ih3 e he (by omega)]
    · rw [s4 c hc, ih4 c hc]

end Sys2Proof.Machine
end

