-- ==== Sys2Proof/Laws/State.lean ====
section
/-! SUPPORT. One lemma per field of State and update, so that no proof unfolds a record update. -/

namespace Sys2Proof.Machine

open Sys2Proof

/-! ### launch (R130) -/

@[simp] theorem State.launch_busy (s : State) (c : Word) : (s.launch c).busy = true := rfl
@[simp] theorem State.launch_done (s : State) (c : Word) : (s.launch c).done = false := rfl
@[simp] theorem State.launch_ovr (s : State) (c : Word) : (s.launch c).ovr = s.ovr := rfl
@[simp] theorem State.launch_errcode (s : State) (c : Word) : (s.launch c).errcode = .ok := rfl
@[simp] theorem State.launch_doneIe (s : State) (c : Word) : (s.launch c).doneIe = s.doneIe := rfl
@[simp] theorem State.launch_len (s : State) (c : Word) : (s.launch c).len = s.len := rfl
@[simp] theorem State.launch_xre (s : State) (c : Word) : (s.launch c).xre = s.xre := rfl
@[simp] theorem State.launch_xim (s : State) (c : Word) : (s.launch c).xim = s.xim := rfl
@[simp] theorem State.launch_yre (s : State) (c : Word) : (s.launch c).yre = s.yre := rfl
@[simp] theorem State.launch_yim (s : State) (c : Word) : (s.launch c).yim = s.yim := rfl
@[simp] theorem State.launch_scr (s : State) (c : Word) : (s.launch c).scr = s.scr := rfl
@[simp] theorem State.launch_scrsz (s : State) (c : Word) : (s.launch c).scrsz = s.scrsz := rfl
@[simp] theorem State.launch_ph (s : State) (c : Word) : (s.launch c).ph = .run .check [] := rfl
@[simp] theorem State.launch_cmd (s : State) (c : Word) : (s.launch c).cmd = c := rfl
@[simp] theorem State.launch_n (s : State) (c : Word) : (s.launch c).n = s.n := rfl
@[simp] theorem State.launch_mlen (s : State) (c : Word) : (s.launch c).mlen = s.mlen := rfl
@[simp] theorem State.launch_vlen (s : State) (c : Word) : (s.launch c).vlen = s.vlen := rfl
@[simp] theorem State.launch_dp (s : State) (c : Word) : (s.launch c).dp = s.dp := rfl
@[simp] theorem State.launch_mem (s : State) (c : Word) : (s.launch c).mem = s.mem := rfl
@[simp] theorem State.launch_holes (s : State) (c : Word) : (s.launch c).holes = s.holes := rfl
@[simp] theorem State.launch_raced (s : State) (c : Word) : (s.launch c).raced = s.raced := rfl
@[simp] theorem State.launch_unseen (s : State) (c : Word) : (s.launch c).unseen = s.unseen := rfl
@[simp] theorem State.launch_draws (s : State) (c : Word) : (s.launch c).draws = s.draws := rfl
@[simp] theorem State.launch_inputs (s : State) (c : Word) : (s.launch c).inputs = s.inputs := rfl
@[simp] theorem State.launch_hostData (s : State) (c : Word) : (s.launch c).hostData = s.hostData := rfl

/-! ### complete (R136) -/

@[simp] theorem State.complete_busy (s : State) (code : ErrCode) : (s.complete code).busy = false := rfl
@[simp] theorem State.complete_done (s : State) (code : ErrCode) : (s.complete code).done = true := rfl
@[simp] theorem State.complete_ovr (s : State) (code : ErrCode) : (s.complete code).ovr = s.ovr := rfl
@[simp] theorem State.complete_errcode (s : State) (code : ErrCode) : (s.complete code).errcode = code := rfl
@[simp] theorem State.complete_doneIe (s : State) (code : ErrCode) : (s.complete code).doneIe = s.doneIe := rfl
@[simp] theorem State.complete_len (s : State) (code : ErrCode) : (s.complete code).len = s.len := rfl
@[simp] theorem State.complete_xre (s : State) (code : ErrCode) : (s.complete code).xre = s.xre := rfl
@[simp] theorem State.complete_xim (s : State) (code : ErrCode) : (s.complete code).xim = s.xim := rfl
@[simp] theorem State.complete_yre (s : State) (code : ErrCode) : (s.complete code).yre = s.yre := rfl
@[simp] theorem State.complete_yim (s : State) (code : ErrCode) : (s.complete code).yim = s.yim := rfl
@[simp] theorem State.complete_scr (s : State) (code : ErrCode) : (s.complete code).scr = s.scr := rfl
@[simp] theorem State.complete_scrsz (s : State) (code : ErrCode) : (s.complete code).scrsz = s.scrsz := rfl
@[simp] theorem State.complete_ph (s : State) (code : ErrCode) : (s.complete code).ph = .idle := rfl
@[simp] theorem State.complete_cmd (s : State) (code : ErrCode) : (s.complete code).cmd = s.cmd := rfl
@[simp] theorem State.complete_n (s : State) (code : ErrCode) : (s.complete code).n = s.n := rfl
@[simp] theorem State.complete_mlen (s : State) (code : ErrCode) : (s.complete code).mlen = s.mlen := rfl
@[simp] theorem State.complete_vlen (s : State) (code : ErrCode) : (s.complete code).vlen = s.vlen := rfl
@[simp] theorem State.complete_dp (s : State) (code : ErrCode) : (s.complete code).dp = s.dp := rfl
@[simp] theorem State.complete_mem (s : State) (code : ErrCode) : (s.complete code).mem = s.mem := rfl
@[simp] theorem State.complete_holes (s : State) (code : ErrCode) : (s.complete code).holes = s.holes := rfl
@[simp] theorem State.complete_raced (s : State) (code : ErrCode) : (s.complete code).raced = s.raced := rfl
@[simp] theorem State.complete_unseen (s : State) (code : ErrCode) : (s.complete code).unseen = s.unseen := rfl
@[simp] theorem State.complete_draws (s : State) (code : ErrCode) : (s.complete code).draws = s.draws := rfl
@[simp] theorem State.complete_inputs (s : State) (code : ErrCode) : (s.complete code).inputs = s.inputs := rfl
@[simp] theorem State.complete_hostData (s : State) (code : ErrCode) : (s.complete code).hostData = s.hostData := rfl

/-! ### acknowledge (R126) -/

@[simp] theorem State.acknowledge_busy (s : State) (v : Word) : (s.acknowledge v).busy = s.busy := rfl
@[simp] theorem State.acknowledge_done (s : State) (v : Word) : (s.acknowledge v).done = (s.done && !v.getLsbD 1) := rfl
@[simp] theorem State.acknowledge_ovr (s : State) (v : Word) : (s.acknowledge v).ovr = (s.ovr && !v.getLsbD 3) := rfl
@[simp] theorem State.acknowledge_errcode (s : State) (v : Word) : (s.acknowledge v).errcode = s.errcode := rfl
@[simp] theorem State.acknowledge_doneIe (s : State) (v : Word) : (s.acknowledge v).doneIe = s.doneIe := rfl
@[simp] theorem State.acknowledge_len (s : State) (v : Word) : (s.acknowledge v).len = s.len := rfl
@[simp] theorem State.acknowledge_xre (s : State) (v : Word) : (s.acknowledge v).xre = s.xre := rfl
@[simp] theorem State.acknowledge_xim (s : State) (v : Word) : (s.acknowledge v).xim = s.xim := rfl
@[simp] theorem State.acknowledge_yre (s : State) (v : Word) : (s.acknowledge v).yre = s.yre := rfl
@[simp] theorem State.acknowledge_yim (s : State) (v : Word) : (s.acknowledge v).yim = s.yim := rfl
@[simp] theorem State.acknowledge_scr (s : State) (v : Word) : (s.acknowledge v).scr = s.scr := rfl
@[simp] theorem State.acknowledge_scrsz (s : State) (v : Word) : (s.acknowledge v).scrsz = s.scrsz := rfl
@[simp] theorem State.acknowledge_ph (s : State) (v : Word) : (s.acknowledge v).ph = s.ph := rfl
@[simp] theorem State.acknowledge_cmd (s : State) (v : Word) : (s.acknowledge v).cmd = s.cmd := rfl
@[simp] theorem State.acknowledge_n (s : State) (v : Word) : (s.acknowledge v).n = s.n := rfl
@[simp] theorem State.acknowledge_mlen (s : State) (v : Word) : (s.acknowledge v).mlen = s.mlen := rfl
@[simp] theorem State.acknowledge_vlen (s : State) (v : Word) : (s.acknowledge v).vlen = s.vlen := rfl
@[simp] theorem State.acknowledge_dp (s : State) (v : Word) : (s.acknowledge v).dp = s.dp := rfl
@[simp] theorem State.acknowledge_mem (s : State) (v : Word) : (s.acknowledge v).mem = s.mem := rfl
@[simp] theorem State.acknowledge_holes (s : State) (v : Word) : (s.acknowledge v).holes = s.holes := rfl
@[simp] theorem State.acknowledge_raced (s : State) (v : Word) : (s.acknowledge v).raced = s.raced := rfl
@[simp] theorem State.acknowledge_unseen (s : State) (v : Word) : (s.acknowledge v).unseen = s.unseen := rfl
@[simp] theorem State.acknowledge_draws (s : State) (v : Word) : (s.acknowledge v).draws = s.draws := rfl
@[simp] theorem State.acknowledge_inputs (s : State) (v : Word) : (s.acknowledge v).inputs = s.inputs := rfl
@[simp] theorem State.acknowledge_hostData (s : State) (v : Word) : (s.acknowledge v).hostData = s.hostData := rfl

/-! ### writeIrqen (R127) -/

@[simp] theorem State.writeIrqen_busy (s : State) (v : Word) : (s.writeIrqen v).busy = s.busy := rfl
@[simp] theorem State.writeIrqen_done (s : State) (v : Word) : (s.writeIrqen v).done = s.done := rfl
@[simp] theorem State.writeIrqen_ovr (s : State) (v : Word) : (s.writeIrqen v).ovr = s.ovr := rfl
@[simp] theorem State.writeIrqen_errcode (s : State) (v : Word) : (s.writeIrqen v).errcode = s.errcode := rfl
@[simp] theorem State.writeIrqen_doneIe (s : State) (v : Word) : (s.writeIrqen v).doneIe = v.getLsbD 0 := rfl
@[simp] theorem State.writeIrqen_len (s : State) (v : Word) : (s.writeIrqen v).len = s.len := rfl
@[simp] theorem State.writeIrqen_xre (s : State) (v : Word) : (s.writeIrqen v).xre = s.xre := rfl
@[simp] theorem State.writeIrqen_xim (s : State) (v : Word) : (s.writeIrqen v).xim = s.xim := rfl
@[simp] theorem State.writeIrqen_yre (s : State) (v : Word) : (s.writeIrqen v).yre = s.yre := rfl
@[simp] theorem State.writeIrqen_yim (s : State) (v : Word) : (s.writeIrqen v).yim = s.yim := rfl
@[simp] theorem State.writeIrqen_scr (s : State) (v : Word) : (s.writeIrqen v).scr = s.scr := rfl
@[simp] theorem State.writeIrqen_scrsz (s : State) (v : Word) : (s.writeIrqen v).scrsz = s.scrsz := rfl
@[simp] theorem State.writeIrqen_ph (s : State) (v : Word) : (s.writeIrqen v).ph = s.ph := rfl
@[simp] theorem State.writeIrqen_cmd (s : State) (v : Word) : (s.writeIrqen v).cmd = s.cmd := rfl
@[simp] theorem State.writeIrqen_n (s : State) (v : Word) : (s.writeIrqen v).n = s.n := rfl
@[simp] theorem State.writeIrqen_mlen (s : State) (v : Word) : (s.writeIrqen v).mlen = s.mlen := rfl
@[simp] theorem State.writeIrqen_vlen (s : State) (v : Word) : (s.writeIrqen v).vlen = s.vlen := rfl
@[simp] theorem State.writeIrqen_dp (s : State) (v : Word) : (s.writeIrqen v).dp = s.dp := rfl
@[simp] theorem State.writeIrqen_mem (s : State) (v : Word) : (s.writeIrqen v).mem = s.mem := rfl
@[simp] theorem State.writeIrqen_holes (s : State) (v : Word) : (s.writeIrqen v).holes = s.holes := rfl
@[simp] theorem State.writeIrqen_raced (s : State) (v : Word) : (s.writeIrqen v).raced = s.raced := rfl
@[simp] theorem State.writeIrqen_unseen (s : State) (v : Word) : (s.writeIrqen v).unseen = s.unseen := rfl
@[simp] theorem State.writeIrqen_draws (s : State) (v : Word) : (s.writeIrqen v).draws = s.draws := rfl
@[simp] theorem State.writeIrqen_inputs (s : State) (v : Word) : (s.writeIrqen v).inputs = s.inputs := rfl
@[simp] theorem State.writeIrqen_hostData (s : State) (v : Word) : (s.writeIrqen v).hostData = s.hostData := rfl

/-! ### dropWrite (R125) -/

@[simp] theorem State.dropWrite_busy (s : State) : (s.dropWrite).busy = s.busy := rfl
@[simp] theorem State.dropWrite_done (s : State) : (s.dropWrite).done = s.done := rfl
@[simp] theorem State.dropWrite_ovr (s : State) : (s.dropWrite).ovr = true := rfl
@[simp] theorem State.dropWrite_errcode (s : State) : (s.dropWrite).errcode = s.errcode := rfl
@[simp] theorem State.dropWrite_doneIe (s : State) : (s.dropWrite).doneIe = s.doneIe := rfl
@[simp] theorem State.dropWrite_len (s : State) : (s.dropWrite).len = s.len := rfl
@[simp] theorem State.dropWrite_xre (s : State) : (s.dropWrite).xre = s.xre := rfl
@[simp] theorem State.dropWrite_xim (s : State) : (s.dropWrite).xim = s.xim := rfl
@[simp] theorem State.dropWrite_yre (s : State) : (s.dropWrite).yre = s.yre := rfl
@[simp] theorem State.dropWrite_yim (s : State) : (s.dropWrite).yim = s.yim := rfl
@[simp] theorem State.dropWrite_scr (s : State) : (s.dropWrite).scr = s.scr := rfl
@[simp] theorem State.dropWrite_scrsz (s : State) : (s.dropWrite).scrsz = s.scrsz := rfl
@[simp] theorem State.dropWrite_ph (s : State) : (s.dropWrite).ph = s.ph := rfl
@[simp] theorem State.dropWrite_cmd (s : State) : (s.dropWrite).cmd = s.cmd := rfl
@[simp] theorem State.dropWrite_n (s : State) : (s.dropWrite).n = s.n := rfl
@[simp] theorem State.dropWrite_mlen (s : State) : (s.dropWrite).mlen = s.mlen := rfl
@[simp] theorem State.dropWrite_vlen (s : State) : (s.dropWrite).vlen = s.vlen := rfl
@[simp] theorem State.dropWrite_dp (s : State) : (s.dropWrite).dp = s.dp := rfl
@[simp] theorem State.dropWrite_mem (s : State) : (s.dropWrite).mem = s.mem := rfl
@[simp] theorem State.dropWrite_holes (s : State) : (s.dropWrite).holes = s.holes := rfl
@[simp] theorem State.dropWrite_raced (s : State) : (s.dropWrite).raced = s.raced := rfl
@[simp] theorem State.dropWrite_unseen (s : State) : (s.dropWrite).unseen = s.unseen := rfl
@[simp] theorem State.dropWrite_draws (s : State) : (s.dropWrite).draws = s.draws := rfl
@[simp] theorem State.dropWrite_inputs (s : State) : (s.dropWrite).inputs = s.inputs := rfl
@[simp] theorem State.dropWrite_hostData (s : State) : (s.dropWrite).hostData = s.hostData := rfl

/-! ### work (a phase's operation) -/

@[simp] theorem State.work_busy (s : State) (f : Draw → Work → Work) : (s.work f).busy = s.busy := rfl
@[simp] theorem State.work_done (s : State) (f : Draw → Work → Work) : (s.work f).done = s.done := rfl
@[simp] theorem State.work_ovr (s : State) (f : Draw → Work → Work) : (s.work f).ovr = s.ovr := rfl
@[simp] theorem State.work_errcode (s : State) (f : Draw → Work → Work) : (s.work f).errcode = s.errcode := rfl
@[simp] theorem State.work_doneIe (s : State) (f : Draw → Work → Work) : (s.work f).doneIe = s.doneIe := rfl
@[simp] theorem State.work_len (s : State) (f : Draw → Work → Work) : (s.work f).len = s.len := rfl
@[simp] theorem State.work_xre (s : State) (f : Draw → Work → Work) : (s.work f).xre = s.xre := rfl
@[simp] theorem State.work_xim (s : State) (f : Draw → Work → Work) : (s.work f).xim = s.xim := rfl
@[simp] theorem State.work_yre (s : State) (f : Draw → Work → Work) : (s.work f).yre = s.yre := rfl
@[simp] theorem State.work_yim (s : State) (f : Draw → Work → Work) : (s.work f).yim = s.yim := rfl
@[simp] theorem State.work_scr (s : State) (f : Draw → Work → Work) : (s.work f).scr = s.scr := rfl
@[simp] theorem State.work_scrsz (s : State) (f : Draw → Work → Work) : (s.work f).scrsz = s.scrsz := rfl
@[simp] theorem State.work_ph (s : State) (f : Draw → Work → Work) : (s.work f).ph = s.ph := rfl
@[simp] theorem State.work_cmd (s : State) (f : Draw → Work → Work) : (s.work f).cmd = s.cmd := rfl
@[simp] theorem State.work_n (s : State) (f : Draw → Work → Work) : (s.work f).n = s.n := rfl
@[simp] theorem State.work_mlen (s : State) (f : Draw → Work → Work) : (s.work f).mlen = s.mlen := rfl
@[simp] theorem State.work_vlen (s : State) (f : Draw → Work → Work) : (s.work f).vlen = s.vlen := rfl
@[simp] theorem State.work_dp (s : State) (f : Draw → Work → Work) : (s.work f).dp = (f [s.draws, 0] ⟨s.dp, s.mem⟩).dp := rfl
@[simp] theorem State.work_mem (s : State) (f : Draw → Work → Work) : (s.work f).mem = (f [s.draws, 0] ⟨s.dp, s.mem⟩).mem := rfl
@[simp] theorem State.work_holes (s : State) (f : Draw → Work → Work) : (s.work f).holes = s.holes := rfl
@[simp] theorem State.work_raced (s : State) (f : Draw → Work → Work) : (s.work f).raced = s.raced := rfl
@[simp] theorem State.work_unseen (s : State) (f : Draw → Work → Work) : (s.work f).unseen = s.unseen := rfl
@[simp] theorem State.work_draws (s : State) (f : Draw → Work → Work) : (s.work f).draws = s.draws + 1 := rfl
@[simp] theorem State.work_inputs (s : State) (f : Draw → Work → Work) : (s.work f).inputs = s.inputs := rfl
@[simp] theorem State.work_hostData (s : State) (f : Draw → Work → Work) : (s.work f).hostData = s.hostData := rfl

/-! ### setLength (R42) -/

@[simp] theorem State.setLength_busy (s : State) (v : Vec) : (s.setLength v).busy = s.busy := rfl
@[simp] theorem State.setLength_done (s : State) (v : Vec) : (s.setLength v).done = s.done := rfl
@[simp] theorem State.setLength_ovr (s : State) (v : Vec) : (s.setLength v).ovr = s.ovr := rfl
@[simp] theorem State.setLength_errcode (s : State) (v : Vec) : (s.setLength v).errcode = s.errcode := rfl
@[simp] theorem State.setLength_doneIe (s : State) (v : Vec) : (s.setLength v).doneIe = s.doneIe := rfl
@[simp] theorem State.setLength_len (s : State) (v : Vec) : (s.setLength v).len = s.len := rfl
@[simp] theorem State.setLength_xre (s : State) (v : Vec) : (s.setLength v).xre = s.xre := rfl
@[simp] theorem State.setLength_xim (s : State) (v : Vec) : (s.setLength v).xim = s.xim := rfl
@[simp] theorem State.setLength_yre (s : State) (v : Vec) : (s.setLength v).yre = s.yre := rfl
@[simp] theorem State.setLength_yim (s : State) (v : Vec) : (s.setLength v).yim = s.yim := rfl
@[simp] theorem State.setLength_scr (s : State) (v : Vec) : (s.setLength v).scr = s.scr := rfl
@[simp] theorem State.setLength_scrsz (s : State) (v : Vec) : (s.setLength v).scrsz = s.scrsz := rfl
@[simp] theorem State.setLength_ph (s : State) (v : Vec) : (s.setLength v).ph = s.ph := rfl
@[simp] theorem State.setLength_cmd (s : State) (v : Vec) : (s.setLength v).cmd = s.cmd := rfl
@[simp] theorem State.setLength_n (s : State) (v : Vec) : (s.setLength v).n = s.n := rfl
@[simp] theorem State.setLength_mlen (s : State) (v : Vec) : (s.setLength v).mlen = s.mlen := rfl
@[simp] theorem State.setLength_vlen (s : State) (v : Vec) : (s.setLength v).vlen = s.lengthOf v := rfl
@[simp] theorem State.setLength_dp (s : State) (v : Vec) : (s.setLength v).dp = s.dp := rfl
@[simp] theorem State.setLength_mem (s : State) (v : Vec) : (s.setLength v).mem = s.mem := rfl
@[simp] theorem State.setLength_holes (s : State) (v : Vec) : (s.setLength v).holes = s.holes := rfl
@[simp] theorem State.setLength_raced (s : State) (v : Vec) : (s.setLength v).raced = s.raced := rfl
@[simp] theorem State.setLength_unseen (s : State) (v : Vec) : (s.setLength v).unseen = s.unseen := rfl
@[simp] theorem State.setLength_draws (s : State) (v : Vec) : (s.setLength v).draws = s.draws := rfl
@[simp] theorem State.setLength_inputs (s : State) (v : Vec) : (s.setLength v).inputs = s.inputs := rfl
@[simp] theorem State.setLength_hostData (s : State) (v : Vec) : (s.setLength v).hostData = s.hostData := rfl

/-! ### takeOperands (R42, R132) -/

@[simp] theorem State.takeOperands_busy (s : State) (i : Instr) : (s.takeOperands i).busy = s.busy := by unfold State.takeOperands; split <;> rfl
@[simp] theorem State.takeOperands_done (s : State) (i : Instr) : (s.takeOperands i).done = s.done := by unfold State.takeOperands; split <;> rfl
@[simp] theorem State.takeOperands_ovr (s : State) (i : Instr) : (s.takeOperands i).ovr = s.ovr := by unfold State.takeOperands; split <;> rfl
@[simp] theorem State.takeOperands_errcode (s : State) (i : Instr) : (s.takeOperands i).errcode = s.errcode := by unfold State.takeOperands; split <;> rfl
@[simp] theorem State.takeOperands_doneIe (s : State) (i : Instr) : (s.takeOperands i).doneIe = s.doneIe := by unfold State.takeOperands; split <;> rfl
@[simp] theorem State.takeOperands_len (s : State) (i : Instr) : (s.takeOperands i).len = s.len := by unfold State.takeOperands; split <;> rfl
@[simp] theorem State.takeOperands_xre (s : State) (i : Instr) : (s.takeOperands i).xre = s.xre := by unfold State.takeOperands; split <;> rfl
@[simp] theorem State.takeOperands_xim (s : State) (i : Instr) : (s.takeOperands i).xim = s.xim := by unfold State.takeOperands; split <;> rfl
@[simp] theorem State.takeOperands_yre (s : State) (i : Instr) : (s.takeOperands i).yre = s.yre := by unfold State.takeOperands; split <;> rfl
@[simp] theorem State.takeOperands_yim (s : State) (i : Instr) : (s.takeOperands i).yim = s.yim := by unfold State.takeOperands; split <;> rfl
@[simp] theorem State.takeOperands_scr (s : State) (i : Instr) : (s.takeOperands i).scr = s.scr := by unfold State.takeOperands; split <;> rfl
@[simp] theorem State.takeOperands_scrsz (s : State) (i : Instr) : (s.takeOperands i).scrsz = s.scrsz := by unfold State.takeOperands; split <;> rfl
@[simp] theorem State.takeOperands_ph (s : State) (i : Instr) : (s.takeOperands i).ph = s.ph := by unfold State.takeOperands; split <;> rfl
@[simp] theorem State.takeOperands_cmd (s : State) (i : Instr) : (s.takeOperands i).cmd = s.cmd := by unfold State.takeOperands; split <;> rfl
@[simp] theorem State.takeOperands_vlen (s : State) (i : Instr) : (s.takeOperands i).vlen = s.vlen := by unfold State.takeOperands; split <;> rfl
@[simp] theorem State.takeOperands_dp (s : State) (i : Instr) : (s.takeOperands i).dp = s.dp := by unfold State.takeOperands; split <;> rfl
@[simp] theorem State.takeOperands_mem (s : State) (i : Instr) : (s.takeOperands i).mem = s.mem := by unfold State.takeOperands; split <;> rfl
@[simp] theorem State.takeOperands_holes (s : State) (i : Instr) : (s.takeOperands i).holes = s.holes := by unfold State.takeOperands; split <;> rfl
@[simp] theorem State.takeOperands_raced (s : State) (i : Instr) : (s.takeOperands i).raced = s.raced := by unfold State.takeOperands; split <;> rfl
@[simp] theorem State.takeOperands_unseen (s : State) (i : Instr) : (s.takeOperands i).unseen = s.unseen := by unfold State.takeOperands; split <;> rfl
@[simp] theorem State.takeOperands_draws (s : State) (i : Instr) : (s.takeOperands i).draws = s.draws := by unfold State.takeOperands; split <;> rfl
@[simp] theorem State.takeOperands_inputs (s : State) (i : Instr) : (s.takeOperands i).inputs = s.inputs := by unfold State.takeOperands; split <;> rfl
@[simp] theorem State.takeOperands_hostData (s : State) (i : Instr) : (s.takeOperands i).hostData = s.hostData := by unfold State.takeOperands; split <;> rfl

/-! ### settleRace (R76(b)) -/

@[simp] theorem State.settleRace_busy (s : State) (i : Instr) : (s.settleRace i).busy = s.busy := by unfold State.settleRace; split <;> simp_all
@[simp] theorem State.settleRace_done (s : State) (i : Instr) : (s.settleRace i).done = s.done := by unfold State.settleRace; split <;> simp_all
@[simp] theorem State.settleRace_ovr (s : State) (i : Instr) : (s.settleRace i).ovr = s.ovr := by unfold State.settleRace; split <;> simp_all
@[simp] theorem State.settleRace_errcode (s : State) (i : Instr) : (s.settleRace i).errcode = s.errcode := by unfold State.settleRace; split <;> simp_all
@[simp] theorem State.settleRace_doneIe (s : State) (i : Instr) : (s.settleRace i).doneIe = s.doneIe := by unfold State.settleRace; split <;> simp_all
@[simp] theorem State.settleRace_len (s : State) (i : Instr) : (s.settleRace i).len = s.len := by unfold State.settleRace; split <;> simp_all
@[simp] theorem State.settleRace_xre (s : State) (i : Instr) : (s.settleRace i).xre = s.xre := by unfold State.settleRace; split <;> simp_all
@[simp] theorem State.settleRace_xim (s : State) (i : Instr) : (s.settleRace i).xim = s.xim := by unfold State.settleRace; split <;> simp_all
@[simp] theorem State.settleRace_yre (s : State) (i : Instr) : (s.settleRace i).yre = s.yre := by unfold State.settleRace; split <;> simp_all
@[simp] theorem State.settleRace_yim (s : State) (i : Instr) : (s.settleRace i).yim = s.yim := by unfold State.settleRace; split <;> simp_all
@[simp] theorem State.settleRace_scr (s : State) (i : Instr) : (s.settleRace i).scr = s.scr := by unfold State.settleRace; split <;> simp_all
@[simp] theorem State.settleRace_scrsz (s : State) (i : Instr) : (s.settleRace i).scrsz = s.scrsz := by unfold State.settleRace; split <;> simp_all
@[simp] theorem State.settleRace_ph (s : State) (i : Instr) : (s.settleRace i).ph = s.ph := by unfold State.settleRace; split <;> simp_all
@[simp] theorem State.settleRace_cmd (s : State) (i : Instr) : (s.settleRace i).cmd = s.cmd := by unfold State.settleRace; split <;> simp_all
@[simp] theorem State.settleRace_n (s : State) (i : Instr) : (s.settleRace i).n = s.n := by unfold State.settleRace; split <;> simp_all
@[simp] theorem State.settleRace_mlen (s : State) (i : Instr) : (s.settleRace i).mlen = s.mlen := by unfold State.settleRace; split <;> simp_all
@[simp] theorem State.settleRace_vlen (s : State) (i : Instr) : (s.settleRace i).vlen = s.vlen := by unfold State.settleRace; split <;> simp_all
@[simp] theorem State.settleRace_dp (s : State) (i : Instr) : (s.settleRace i).dp = s.dp := by unfold State.settleRace; split <;> simp_all
@[simp] theorem State.settleRace_holes (s : State) (i : Instr) : (s.settleRace i).holes = s.holes := by unfold State.settleRace; split <;> simp_all
@[simp] theorem State.settleRace_raced (s : State) (i : Instr) : (s.settleRace i).raced = false := by unfold State.settleRace; split <;> simp_all
@[simp] theorem State.settleRace_unseen (s : State) (i : Instr) : (s.settleRace i).unseen = s.unseen := by unfold State.settleRace; split <;> simp_all
@[simp] theorem State.settleRace_inputs (s : State) (i : Instr) : (s.settleRace i).inputs = s.inputs := by unfold State.settleRace; split <;> simp_all
@[simp] theorem State.settleRace_hostData (s : State) (i : Instr) : (s.settleRace i).hostData = s.hostData := by unfold State.settleRace; split <;> simp_all

/-! ### finishCommand (R134, R136) -/

@[simp] theorem State.finishCommand_busy (s : State) (i : Instr) (code : ErrCode) : (s.finishCommand i code).busy = false := by simp [State.finishCommand]
@[simp] theorem State.finishCommand_done (s : State) (i : Instr) (code : ErrCode) : (s.finishCommand i code).done = true := by simp [State.finishCommand]
@[simp] theorem State.finishCommand_ovr (s : State) (i : Instr) (code : ErrCode) : (s.finishCommand i code).ovr = s.ovr := by simp [State.finishCommand]
@[simp] theorem State.finishCommand_errcode (s : State) (i : Instr) (code : ErrCode) : (s.finishCommand i code).errcode = code := by simp [State.finishCommand]
@[simp] theorem State.finishCommand_doneIe (s : State) (i : Instr) (code : ErrCode) : (s.finishCommand i code).doneIe = s.doneIe := by simp [State.finishCommand]
@[simp] theorem State.finishCommand_len (s : State) (i : Instr) (code : ErrCode) : (s.finishCommand i code).len = s.len := by simp [State.finishCommand]
@[simp] theorem State.finishCommand_xre (s : State) (i : Instr) (code : ErrCode) : (s.finishCommand i code).xre = s.xre := by simp [State.finishCommand]
@[simp] theorem State.finishCommand_xim (s : State) (i : Instr) (code : ErrCode) : (s.finishCommand i code).xim = s.xim := by simp [State.finishCommand]
@[simp] theorem State.finishCommand_yre (s : State) (i : Instr) (code : ErrCode) : (s.finishCommand i code).yre = s.yre := by simp [State.finishCommand]
@[simp] theorem State.finishCommand_yim (s : State) (i : Instr) (code : ErrCode) : (s.finishCommand i code).yim = s.yim := by simp [State.finishCommand]
@[simp] theorem State.finishCommand_scr (s : State) (i : Instr) (code : ErrCode) : (s.finishCommand i code).scr = s.scr := by simp [State.finishCommand]
@[simp] theorem State.finishCommand_scrsz (s : State) (i : Instr) (code : ErrCode) : (s.finishCommand i code).scrsz = s.scrsz := by simp [State.finishCommand]
@[simp] theorem State.finishCommand_ph (s : State) (i : Instr) (code : ErrCode) : (s.finishCommand i code).ph = .idle := by simp [State.finishCommand]
@[simp] theorem State.finishCommand_cmd (s : State) (i : Instr) (code : ErrCode) : (s.finishCommand i code).cmd = s.cmd := by simp [State.finishCommand]
@[simp] theorem State.finishCommand_n (s : State) (i : Instr) (code : ErrCode) : (s.finishCommand i code).n = s.n := by simp [State.finishCommand]
@[simp] theorem State.finishCommand_mlen (s : State) (i : Instr) (code : ErrCode) : (s.finishCommand i code).mlen = s.mlen := by simp [State.finishCommand]
@[simp] theorem State.finishCommand_vlen (s : State) (i : Instr) (code : ErrCode) : (s.finishCommand i code).vlen = s.vlen := by simp [State.finishCommand]
@[simp] theorem State.finishCommand_dp (s : State) (i : Instr) (code : ErrCode) : (s.finishCommand i code).dp = s.dp := by simp [State.finishCommand]
@[simp] theorem State.finishCommand_mem (s : State) (i : Instr) (code : ErrCode) : (s.finishCommand i code).mem = (s.settleRace i).mem := by simp [State.finishCommand]
@[simp] theorem State.finishCommand_holes (s : State) (i : Instr) (code : ErrCode) : (s.finishCommand i code).holes = s.holes := by simp [State.finishCommand]
@[simp] theorem State.finishCommand_raced (s : State) (i : Instr) (code : ErrCode) : (s.finishCommand i code).raced = false := by simp [State.finishCommand]
@[simp] theorem State.finishCommand_unseen (s : State) (i : Instr) (code : ErrCode) : (s.finishCommand i code).unseen = s.unseen ++ s.rwRegions i := rfl
@[simp] theorem State.finishCommand_draws (s : State) (i : Instr) (code : ErrCode) : (s.finishCommand i code).draws = (s.settleRace i).draws := by simp [State.finishCommand]
@[simp] theorem State.finishCommand_inputs (s : State) (i : Instr) (code : ErrCode) : (s.finishCommand i code).inputs = s.inputs := by simp [State.finishCommand]
@[simp] theorem State.finishCommand_hostData (s : State) (i : Instr) (code : ErrCode) : (s.finishCommand i code).hostData = s.hostData := by simp [State.finishCommand]

/-! ### hostReadRegister (R122: a register read has no side effect) -/

@[simp] theorem State.hostReadRegister_busy (s : State) (off k : Nat) : (s.hostReadRegister off k).busy = s.busy := rfl
@[simp] theorem State.hostReadRegister_done (s : State) (off k : Nat) : (s.hostReadRegister off k).done = s.done := rfl
@[simp] theorem State.hostReadRegister_ovr (s : State) (off k : Nat) : (s.hostReadRegister off k).ovr = s.ovr := rfl
@[simp] theorem State.hostReadRegister_errcode (s : State) (off k : Nat) : (s.hostReadRegister off k).errcode = s.errcode := rfl
@[simp] theorem State.hostReadRegister_doneIe (s : State) (off k : Nat) : (s.hostReadRegister off k).doneIe = s.doneIe := rfl
@[simp] theorem State.hostReadRegister_len (s : State) (off k : Nat) : (s.hostReadRegister off k).len = s.len := rfl
@[simp] theorem State.hostReadRegister_xre (s : State) (off k : Nat) : (s.hostReadRegister off k).xre = s.xre := rfl
@[simp] theorem State.hostReadRegister_xim (s : State) (off k : Nat) : (s.hostReadRegister off k).xim = s.xim := rfl
@[simp] theorem State.hostReadRegister_yre (s : State) (off k : Nat) : (s.hostReadRegister off k).yre = s.yre := rfl
@[simp] theorem State.hostReadRegister_yim (s : State) (off k : Nat) : (s.hostReadRegister off k).yim = s.yim := rfl
@[simp] theorem State.hostReadRegister_scr (s : State) (off k : Nat) : (s.hostReadRegister off k).scr = s.scr := rfl
@[simp] theorem State.hostReadRegister_scrsz (s : State) (off k : Nat) : (s.hostReadRegister off k).scrsz = s.scrsz := rfl
@[simp] theorem State.hostReadRegister_ph (s : State) (off k : Nat) : (s.hostReadRegister off k).ph = s.ph := rfl
@[simp] theorem State.hostReadRegister_cmd (s : State) (off k : Nat) : (s.hostReadRegister off k).cmd = s.cmd := rfl
@[simp] theorem State.hostReadRegister_n (s : State) (off k : Nat) : (s.hostReadRegister off k).n = s.n := rfl
@[simp] theorem State.hostReadRegister_mlen (s : State) (off k : Nat) : (s.hostReadRegister off k).mlen = s.mlen := rfl
@[simp] theorem State.hostReadRegister_vlen (s : State) (off k : Nat) : (s.hostReadRegister off k).vlen = s.vlen := rfl
@[simp] theorem State.hostReadRegister_dp (s : State) (off k : Nat) : (s.hostReadRegister off k).dp = s.dp := rfl
@[simp] theorem State.hostReadRegister_mem (s : State) (off k : Nat) : (s.hostReadRegister off k).mem = s.mem := rfl
@[simp] theorem State.hostReadRegister_holes (s : State) (off k : Nat) : (s.hostReadRegister off k).holes = s.holes := rfl
@[simp] theorem State.hostReadRegister_raced (s : State) (off k : Nat) : (s.hostReadRegister off k).raced = s.raced := rfl
@[simp] theorem State.hostReadRegister_unseen (s : State) (off k : Nat) : (s.hostReadRegister off k).unseen = if s.seesDone off k then [] else s.unseen := rfl
@[simp] theorem State.hostReadRegister_draws (s : State) (off k : Nat) : (s.hostReadRegister off k).draws = s.draws := rfl
@[simp] theorem State.hostReadRegister_inputs (s : State) (off k : Nat) : (s.hostReadRegister off k).inputs = s.inputs := rfl

/-! ### n and M after the operands are taken -/

theorem State.takeOperands_n_of_ne (s : State) (i : Instr) (h : i ≠ .nop) : (s.takeOperands i).n = s.len := by
  simp [State.takeOperands, h]

theorem State.takeOperands_mlen_of_bluestein (s : State) (i : Instr) (h : i ≠ .nop)
    (hb : onBluestein i s.len.toNat = true) :
    (s.takeOperands i).mlen = BitVec.ofNat 32 (paddedLength s.len.toNat) := by
  simp [State.takeOperands, h, hb]

/-- Without a race there is nothing to settle. -/
theorem State.settleRace_of_not_raced (s : State) (i : Instr) (h : s.raced = false) : s.settleRace i = s := by
  simp [State.settleRace, h]

/-- Without a race the end of a command is completion alone (R136), its results not yet seen (R71). -/
theorem State.finishCommand_of_not_raced (s : State) (i : Instr) (code : ErrCode) (h : s.raced = false) :
    s.finishCommand i code = { s.complete code with unseen := s.unseen ++ s.rwRegions i } := by
  simp [State.finishCommand, State.settleRace_of_not_raced s i h]

end Sys2Proof.Machine
end

