-- ==== Sys2Proof/Laws/Operands.lean ====
section
/-! SUPPORT. What a passed check says (R133), and the arithmetic of lengths (R250). -/

namespace Sys2Proof.Machine

open Sys2Proof

/-- The bit test of rule R133 says that a positive length is a power of two. -/
theorem eq_two_pow_of_isPow2 {n : Nat} (hn : 1 ≤ n) (h : isPow2 n = true) : n = 2 ^ n.log2 := by
  have h0 : n &&& (n - 1) = 0 := by simpa [isPow2] using h
  have hle := Nat.log2_self_le (show n ≠ 0 by omega)
  by_contra hne
  have hlt : 2 ^ n.log2 < n := by omega
  have hup : n < 2 ^ (n.log2 + 1) := Nat.lt_log2_self
  have hb : n.testBit n.log2 = true := by
    rw [Nat.testBit_eq_decide_div_mod_eq, decide_eq_true_eq]
    have : n / 2 ^ n.log2 = 1 := by
      rw [Nat.div_eq_iff (Nat.two_pow_pos _)]
      rw [Nat.pow_succ] at hup
      omega
    rw [this]
  have hb' : (n - 1).testBit n.log2 = true := by
    rw [Nat.testBit_eq_decide_div_mod_eq, decide_eq_true_eq]
    have : (n - 1) / 2 ^ n.log2 = 1 := by
      rw [Nat.div_eq_iff (Nat.two_pow_pos _)]
      rw [Nat.pow_succ] at hup
      omega
    rw [this]
  have := Nat.testBit_and n (n - 1) n.log2
  rw [h0, hb, hb'] at this
  simp at this

/-- A power of two passes the bit test of rule R133. -/
theorem isPow2_two_pow (k : Nat) : isPow2 (2 ^ k) = true := by
  have : 2 ^ k &&& (2 ^ k - 1) = 0 := by
    rw [Nat.and_two_pow_sub_one_eq_mod]
    exact Nat.mod_self _
  simp [isPow2, this]

/-- M is a power of two (R250). -/
theorem paddedLength_eq_two_pow (n : Nat) : paddedLength n = 2 ^ (paddedLength n).log2 := by
  unfold paddedLength
  split
  · rfl
  · rw [Nat.log2_two_pow]

theorem paddedLength_pos (n : Nat) : 1 ≤ paddedLength n := by
  rw [paddedLength_eq_two_pow]
  exact Nat.two_pow_pos _

/-- M is at least 2n - 1 (R250). -/
theorem le_paddedLength (n : Nat) : 2 * n - 1 ≤ paddedLength n := by
  unfold paddedLength
  split
  · omega
  · have := Nat.lt_log2_self (n := 2 * n - 2)
    omega

/-- M is at least n (R250). -/
theorem self_le_paddedLength (n : Nat) : n ≤ paddedLength n := by
  have h1 := le_paddedLength n
  have h2 := paddedLength_pos n
  omega

/-- M is no greater than any power of two that is at least 2n - 1 (R250). -/
theorem paddedLength_le {n k : Nat} (hk : 2 * n - 1 ≤ 2 ^ k) : paddedLength n ≤ 2 ^ k := by
  unfold paddedLength
  split
  · exact Nat.one_le_two_pow
  · have := (Nat.log2_lt (show 2 * n - 2 ≠ 0 by omega)).mpr (show 2 * n - 2 < 2 ^ k by omega)
    exact Nat.pow_le_pow_right (by omega) (by omega)

/-- The bit test of rule R133 says exactly that a positive length is a power of two. -/
theorem isPow2_iff {n : Nat} (hn : 1 ≤ n) : isPow2 n = true ↔ ∃ k, n = 2 ^ k :=
  ⟨fun h => ⟨_, eq_two_pow_of_isPow2 hn h⟩, fun ⟨k, hk⟩ => hk ▸ isPow2_two_pow k⟩

/-- Two regions do not overlap when one ends before the other begins (R133). -/
theorem Region.overlaps_eq_false (r q : Region) :
    r.overlaps q = false ↔ q.base + q.size ≤ r.base ∨ r.base + r.size ≤ q.base := by
  simp only [Region.overlaps, Bool.and_eq_false_iff, decide_eq_false_iff_not, Nat.not_lt]

/-- What holds when a command other than NOP passes its check: every test of rule R133, at its place. -/
structure CheckPassed (i : Instr) (s : State) : Prop where
  lenPos : 1 ≤ s.len.toNat
  lenLt : s.len.toNat < 2 ^ 31
  pow2 : isRadix2 i = true → isPow2 s.len.toNat = true
  stageOk : badStage i s.len.toNat = false
  notLong : s.tooLongFails i = false
  aligned : ∀ r ∈ s.usedRegions i, r.base % 4 = 0
  inRange : ∀ r ∈ s.usedRegions i, r.base + r.size ≤ Config.memSize
  noOverlap : s.overlapFails i = false
  scratchSize : onBluestein i s.len.toNat = true → 24 * paddedLength s.len.toNat ≤ s.scrsz.toNat

theorem check_passed {i : Instr} {s : State} (hi : i ≠ .nop) (h : check i s = .ok) : CheckPassed i s := by
  unfold check at h
  simp only [hi, if_false] at h
  split at h
  · exact absurd h (by simp)
  rename_i h1
  split at h
  · exact absurd h (by simp)
  rename_i h2
  split at h
  · exact absurd h (by simp)
  rename_i h3
  split at h
  · exact absurd h (by simp)
  rename_i h4
  split at h
  · exact absurd h (by simp)
  rename_i h5
  split at h
  · exact absurd h (by simp)
  rename_i h6
  split at h
  · exact absurd h (by simp)
  rename_i h7
  split at h
  · exact absurd h (by simp)
  rename_i h8
  refine ⟨by omega, by omega, fun hr => by simpa [hr] using h2, by simpa using h3, by simpa using h4,
    fun r hr => ?_, fun r hr => ?_, by simpa using h7, fun hb => ?_⟩
  · by_contra hc
    exact h5 (List.any_eq_true.mpr ⟨r, hr, decide_eq_true hc⟩)
  · by_contra hc
    exact h6 (List.any_eq_true.mpr ⟨r, hr, decide_eq_true (Nat.not_le.mp hc)⟩)
  · simpa [hb] using h8

theorem check_nop (s : State) : check .nop s = .ok := by simp [check]

/-- On the Bluestein path M fits the length limit (R285), so it is M that the 32-bit register holds. -/
theorem CheckPassed.mlen {i : Instr} {s : State} (h : CheckPassed i s) (hi : i ≠ .nop)
    (hb : onBluestein i s.len.toNat = true) : (s.takeOperands i).mlen.toNat = paddedLength s.len.toNat := by
  have hl := h.notLong
  simp only [State.tooLongFails, hb, Bool.true_and, Bool.or_eq_false_iff, decide_eq_false_iff_not, Nat.not_lt] at hl
  have hN : Config.nMax = 65536 := rfl
  rw [State.takeOperands_mlen_of_bluestein s i hi hb, BitVec.toNat_ofNat, Nat.mod_eq_of_lt (by omega)]

/-- The X arrays share no byte (R133, R288). -/
theorem CheckPassed.xApart {i : Instr} {s : State} (h : CheckPassed i s) :
    s.xre.toNat + 4 * s.len.toNat ≤ s.xim.toNat ∨ s.xim.toNat + 4 * s.len.toNat ≤ s.xre.toNat := by
  have h1 := h.noOverlap
  simp only [State.overlapFails, State.xOverlap, Region.overlaps_eq_false, Bool.or_eq_false_iff] at h1
  omega

/-- The X regions lie in the memory space (R133, R287). -/
theorem CheckPassed.xRange {i : Instr} {s : State} (h : CheckPassed i s) :
    s.xre.toNat + 4 * s.len.toNat ≤ Config.memSize ∧ s.xim.toNat + 4 * s.len.toNat ≤ Config.memSize :=
  ⟨h.inRange ⟨s.xre.toNat, 4 * s.len.toNat⟩ (by simp [State.usedRegions, State.xRegions]),
    h.inRange ⟨s.xim.toNat, 4 * s.len.toNat⟩ (by simp [State.usedRegions, State.xRegions])⟩

/-- The Y regions of CMUL lie in the memory space (R133, R287). -/
theorem CheckPassed.yRange {s : State} (h : CheckPassed .cmul s) :
    s.yre.toNat + 4 * s.len.toNat ≤ Config.memSize ∧ s.yim.toNat + 4 * s.len.toNat ≤ Config.memSize :=
  ⟨h.inRange ⟨s.yre.toNat, 4 * s.len.toNat⟩ (by simp [State.usedRegions, State.yRegions]),
    h.inRange ⟨s.yim.toNat, 4 * s.len.toNat⟩ (by simp [State.usedRegions, State.yRegions])⟩

/-- The scratch region lies in the memory space (R133, R287). -/
theorem CheckPassed.scratchRange {i : Instr} {s : State} (h : CheckPassed i s)
    (hb : onBluestein i s.len.toNat = true) :
    s.scr.toNat + 24 * paddedLength s.len.toNat ≤ Config.memSize :=
  h.inRange s.scratchRegion (by simp [State.usedRegions, hb])

/-- The scratch region shares no byte with X (R133, R288). -/
theorem CheckPassed.scratchClear {i : Instr} {s : State} (h : CheckPassed i s)
    (hb : onBluestein i s.len.toNat = true) :
    (s.scr.toNat + 24 * paddedLength s.len.toNat ≤ s.xre.toNat ∨ s.xre.toNat + 4 * s.len.toNat ≤ s.scr.toNat) ∧
      (s.scr.toNat + 24 * paddedLength s.len.toNat ≤ s.xim.toNat ∨ s.xim.toNat + 4 * s.len.toNat ≤ s.scr.toNat) := by
  have h1 := h.noOverlap
  simp only [State.overlapFails, hb, Bool.true_and, Bool.or_eq_false_iff, State.scratchOverlap, State.xRegions,
    State.scratchRegion, List.any_cons, List.any_nil, Bool.or_false, Region.overlaps_eq_false] at h1
  omega

/-- An array of CMUL's Y shares no byte with an array of X of another base (R133, R288). -/
theorem CheckPassed.yReadable {s : State} (h : CheckPassed .cmul s) {y x : Nat}
    (hy : y = s.yre.toNat ∨ y = s.yim.toNat) (hx : x = s.xre.toNat ∨ x = s.xim.toNat) :
    y = x ∨ y + 4 * s.len.toNat ≤ x ∨ x + 4 * s.len.toNat ≤ y := by
  have h1 := h.noOverlap
  simp only [State.overlapFails, State.yOverlap, decide_true, Bool.true_and, Bool.or_eq_false_iff, State.xRegions,
    State.yRegions, List.any_cons, List.any_nil, Bool.or_false, Bool.and_eq_false_iff,
    Region.overlaps_eq_false, bne_eq_false_iff_eq] at h1
  rcases hy with rfl | rfl <;> rcases hx with rfl | rfl <;> omega

end Sys2Proof.Machine
end

