-- ==== Sys2Proof/Laws/Sequencer.lean ====
section
/-! SUPPORT. What a phase, a list of phases and a command do to the state: the registers they leave, the bytes they
leave, and the whole effect of an admitted command. -/

namespace Sys2Proof.Machine

open Sys2Proof

/-! ### The registers a phase leaves -/

theorem SameInterface.refl (s : State) : SameInterface s s := by constructor <;> rfl

theorem SameInterface.trans {s t u : State} (h : SameInterface s t) (g : SameInterface t u) : SameInterface s u := by
  constructor
  · rw [g.ovr, h.ovr]
  · rw [g.doneIe, h.doneIe]
  · rw [g.len, h.len]
  · rw [g.xre, h.xre]
  · rw [g.xim, h.xim]
  · rw [g.yre, h.yre]
  · rw [g.yim, h.yim]
  · rw [g.scr, h.scr]
  · rw [g.scrsz, h.scrsz]
  · rw [g.cmd, h.cmd]
  · rw [g.holes, h.holes]
  · rw [g.inputs, h.inputs]
  · rw [g.hostData, h.hostData]

/-- Two states on which a phase works with the same operands. -/
structure SameOperands (s t : State) : Prop extends SameInterface s t where
  n : t.n = s.n
  mlen : t.mlen = s.mlen

theorem SameOperands.refl (s : State) : SameOperands s s := ⟨.refl s, rfl, rfl⟩

theorem SameOperands.trans {s t u : State} (h : SameOperands s t) (g : SameOperands t u) : SameOperands s u :=
  ⟨h.toSameInterface.trans g.toSameInterface, by rw [g.n, h.n], by rw [g.mlen, h.mlen]⟩

theorem SameOperands.bases {s t : State} (h : SameOperands s t) (v : Vec) : t.bases v = s.bases v := by
  cases v <;> simp [State.bases, h.xre, h.xim, h.yre, h.yim, h.scr, h.mlen]

theorem SameOperands.lengthOf {s t : State} (h : SameOperands s t) (v : Vec) : t.lengthOf v = s.lengthOf v := by
  cases v <;> simp [State.lengthOf, h.n, h.mlen]

theorem SameOperands.iterationCount {s t : State} (h : SameOperands s t) (p : Phase) :
    iterationCount p t = iterationCount p s := by
  cases p <;> simp [Machine.iterationCount, h.lengthOf, h.n, h.mlen]

theorem SameOperands.iterationAccesses {s t : State} (h : SameOperands s t) (p : Phase) (k : Nat) :
    iterationAccesses p t k = iterationAccesses p s k := by
  cases p <;> simp [Machine.iterationAccesses, h.bases, h.lengthOf, h.mlen, h.scr]

theorem SameOperands.phaseAccesses {s t : State} (h : SameOperands s t) (p : Phase) :
    phaseAccesses p t = phaseAccesses p s := by
  rw [Machine.phaseAccesses, Machine.phaseAccesses, h.iterationCount, funext (h.iterationAccesses p)]

/-- Which accesses the platform answers depends on its holes alone (R68). -/
theorem SameInterface.answers {s t : State} (h : SameInterface s t) : t.answers = s.answers := by
  funext a
  simp [State.answers, h.holes]

theorem SameOperands.phaseAdmitted {s t : State} (h : SameOperands s t) (p : Phase) :
    phaseAdmitted p t = phaseAdmitted p s := by
  rw [Machine.phaseAdmitted, Machine.phaseAdmitted, h.phaseAccesses, h.answers]

theorem SameInterface.xRegions {s t : State} (h : SameInterface s t) : t.xRegions = s.xRegions := by
  simp [State.xRegions, h.xre, h.xim, h.len]

theorem SameInterface.yRegions {s t : State} (h : SameInterface s t) : t.yRegions = s.yRegions := by
  simp [State.yRegions, h.yre, h.yim, h.len]

theorem SameInterface.scratchRegion {s t : State} (h : SameInterface s t) : t.scratchRegion = s.scratchRegion := by
  simp [State.scratchRegion, h.scr, h.len]

/-- The check reads registers only (R133). -/
theorem SameInterface.check {s t : State} (h : SameInterface s t) (i : Instr) : check i t = check i s := by
  simp only [Machine.check, State.tooLongFails, State.usedRegions, State.overlapFails, State.xOverlap, State.yOverlap,
    State.scratchOverlap, h.xRegions, h.yRegions, h.scratchRegion, h.len, h.xre, h.xim, h.yre, h.yim, h.scrsz]
  rfl

theorem SameInterface.rwRegions {s t : State} (h : SameInterface s t) (i : Instr) : t.rwRegions i = s.rwRegions i := by
  simp only [State.rwRegions, h.check i, h.xRegions, h.scratchRegion, h.len]

theorem SameInterface.roRegions {s t : State} (h : SameInterface s t) (i : Instr) : t.roRegions i = s.roRegions i := by
  simp only [State.roRegions, h.check i, h.yRegions]

theorem takeOperands_same (s : State) (i : Instr) : SameInterface s (s.takeOperands i) := by
  constructor <;> simp

theorem finishCommand_same (s : State) (i : Instr) (code : ErrCode) : SameInterface s (s.finishCommand i code) := by
  constructor <;> simp

/-- No phase changes an operand (R31, R125). -/
theorem doPhase_same (t : Config.Trig) (i : Instr) (p : Phase) (s : State) : SameOperands s (doPhase t i p s) := by
  cases p <;> exact ⟨⟨by simp [doPhase], by simp [doPhase], by simp [doPhase], by simp [doPhase], by simp [doPhase],
    by simp [doPhase], by simp [doPhase], by simp [doPhase], by simp [doPhase], by simp [doPhase], by simp [doPhase],
    by simp [doPhase], by simp [doPhase]⟩, by simp [doPhase], by simp [doPhase]⟩

/-- Only Finish writes STATUS (R136); the other phases leave BUSY, DONE, ERRCODE, the race mark and PH. -/
theorem doPhase_status (t : Config.Trig) (i : Instr) {p : Phase} (hp : p ≠ .finish) (s : State) :
    (doPhase t i p s).busy = s.busy ∧ (doPhase t i p s).done = s.done ∧ (doPhase t i p s).errcode = s.errcode ∧
      (doPhase t i p s).raced = s.raced ∧ (doPhase t i p s).ph = s.ph := by
  cases p <;> first | exact absurd rfl hp | exact ⟨rfl, rfl, rfl, rfl, rfl⟩

/-- Only Finish adds to the unseen results (R71). -/
theorem doPhase_unseen (t : Config.Trig) (i : Instr) {p : Phase} (hp : p ≠ .finish) (s : State) :
    (doPhase t i p s).unseen = s.unseen := by
  cases p <;> first | exact absurd rfl hp | rfl

/-- A phase does not look at PH. -/
theorem doPhase_ph (t : Config.Trig) (i : Instr) {p : Phase} (hp : p ≠ .finish) (s : State) (q : PH) :
    doPhase t i p { s with ph := q } = { doPhase t i p s with ph := q } := by
  cases p <;> first | exact absurd rfl hp | rfl

theorem phaseAdmitted_ph (p : Phase) (s : State) (q : PH) :
    phaseAdmitted p { s with ph := q } = phaseAdmitted p s :=
  SameOperands.phaseAdmitted (s := s) ⟨by constructor <;> rfl, rfl, rfl⟩ p

theorem finishCommand_ph (s : State) (i : Instr) (code : ErrCode) (q : PH) :
    State.finishCommand { s with ph := q } i code = s.finishCommand i code := by
  simp only [State.finishCommand, State.settleRace, State.complete]
  split <;> rfl

/-! ### A phase that stops at a refused access -/

theorem takeWhile_append_all {α : Type} {f : α → Bool} {as : List α} (bs : List α) (h : as.all f = true) :
    (as ++ bs).takeWhile f = as ++ bs.takeWhile f := by
  induction as with
  | nil => rfl
  | cons a as ih =>
    simp only [List.all_cons, Bool.and_eq_true] at h
    simp only [List.cons_append, List.takeWhile_cons, h.1, if_true, ih h.2]

theorem takeWhile_append_of_not_all {α : Type} {f : α → Bool} {as : List α} (bs : List α) (h : as.all f = false) :
    (as ++ bs).takeWhile f = as.takeWhile f := by
  induction as with
  | nil => simp at h
  | cons a as ih =>
    simp only [List.cons_append, List.takeWhile_cons]
    split
    · rename_i ha
      simp only [List.all_cons, ha, Bool.true_and] at h
      rw [ih h]
    · rfl

/-- The accesses before the first refused one: every iteration before, and a part of the iteration that meets it. -/
theorem answeredAccesses_eq {p : Phase} {s : State} {k : Nat} (hk : k < iterationCount p s)
    (hb : ∀ j, j < k → (iterationAccesses p s j).all s.answers = true)
    (hr : (iterationAccesses p s k).all s.answers = false) :
    answeredAccesses p s =
      (List.range k).flatMap (iterationAccesses p s) ++ (iterationAccesses p s k).takeWhile s.answers := by
  obtain ⟨d, hd⟩ : ∃ d, iterationCount p s = k + (d + 1) := ⟨iterationCount p s - k - 1, by omega⟩
  have hall : ((List.range k).flatMap (iterationAccesses p s)).all s.answers = true := by
    simpa [List.all_flatMap] using hb
  rw [answeredAccesses, phaseAccesses, hd, List.range_add, List.flatMap_append, takeWhile_append_all _ hall,
    List.range_succ_eq_map, List.map_cons, List.flatMap_cons, Nat.add_zero, takeWhile_append_of_not_all _ hr]

/-- The iteration that meets the first refused access. -/
theorem refusedIteration_eq {p : Phase} {s : State} {k : Nat} (hk : k < iterationCount p s)
    (hb : ∀ j, j < k → (iterationAccesses p s j).all s.answers = true)
    (hr : (iterationAccesses p s k).all s.answers = false) : refusedIteration p s = k := by
  have h : (List.range (iterationCount p s)).find? (fun k => !(iterationAccesses p s k).all s.answers) = some k := by
    rw [List.find?_range_eq_some]
    exact ⟨by simp [hr], List.mem_range.mpr hk, fun j hj => by simpa using hb j hj⟩
  rw [refusedIteration, h, Option.getD_some]

/-- A phase stops in some iteration: every access of the iterations before is answered, one of its own is not. -/
theorem exists_refused {p : Phase} {s : State} (h : phaseAdmitted p s = false) :
    ∃ k, k < iterationCount p s ∧ (∀ j, j < k → (iterationAccesses p s j).all s.answers = true) ∧
      (iterationAccesses p s k).all s.answers = false := by
  have hex : ∃ k, k < iterationCount p s ∧ (iterationAccesses p s k).all s.answers = false := by
    by_contra hn
    simp only [not_exists, not_and, Bool.not_eq_false] at hn
    have : phaseAdmitted p s = true := by
      rw [phaseAdmitted, phaseAccesses, List.all_flatMap, List.all_eq_true]
      exact fun k hk => by simpa using hn k (List.mem_range.mp hk)
    rw [h] at this
    cases this
  classical
  refine ⟨Nat.find hex, (Nat.find_spec hex).1, fun j hj => ?_, (Nat.find_spec hex).2⟩
  have := Nat.find_min hex hj
  have hlt := (Nat.find_spec hex).1
  simpa [show j < iterationCount p s by omega] using this

/-- The copied words hold the later memory's bytes, every other byte is as before. -/
theorem readByte_copyWrites (late m : Memory) (as : List Access) (c : Nat) :
    Memory.readByte (copyWrites late m as) c = Memory.readByte m c ∨
      Memory.readByte (copyWrites late m as) c = Memory.readByte late c := by
  induction as generalizing m with
  | nil => exact .inl rfl
  | cons a as ih =>
    simp only [copyWrites, List.foldl_cons]
    split
    · rcases ih (Memory.write32 m a.base (Memory.read32 late a.base)) with h | h
      · by_cases hc : a.base ≤ c ∧ c < a.base + 4
        · exact .inr (h.trans (Memory.readByte_eq_of_read32_eq (Memory.read32_write32_same _ _ _) hc))
        · exact .inl (h.trans (Memory.readByte_write32_outside _ _ _ (by omega)))
      · exact .inr h
    · exact ih m

/-- A byte that no copied word holds is as before. -/
theorem readByte_copyWrites_of_not_written (late m : Memory) {as : List Access} {c : Nat}
    (h : ∀ a ∈ as, a.writes = true → c < a.base ∨ a.base + 4 ≤ c) :
    Memory.readByte (copyWrites late m as) c = Memory.readByte m c := by
  induction as generalizing m with
  | nil => rfl
  | cons a as ih =>
    have ih' := fun m => ih m fun b hb => h b (List.mem_cons_of_mem _ hb)
    simp only [copyWrites, List.foldl_cons]
    split
    · rename_i hw
      exact (ih' _).trans (Memory.readByte_write32_outside _ _ _ (h a List.mem_cons_self hw))
    · exact ih' m

/-- A byte of a copied word is the later memory's. -/
theorem readByte_copyWrites_of_written (late m : Memory) {as : List Access} {a : Access} {c : Nat} (ha : a ∈ as)
    (hw : a.writes = true) (hc : a.base ≤ c ∧ c < a.base + 4) :
    Memory.readByte (copyWrites late m as) c = Memory.readByte late c := by
  induction as generalizing m with
  | nil => simp at ha
  | cons b as ih =>
    rcases List.mem_cons.mp ha with rfl | ha
    · have h := readByte_copyWrites late (Memory.write32 m a.base (Memory.read32 late a.base)) as c
      simp only [copyWrites, List.foldl_cons, hw, if_true] at h ⊢
      exact h.elim (fun h => h.trans (Memory.readByte_eq_of_read32_eq (Memory.read32_write32_same _ _ _) hc)) id
    · exact ih _ ha

theorem wf_copyWrites (late : Memory) {m : Memory} (as : List Access) (h : Memory.wf m = true) :
    Memory.wf (copyWrites late m as) = true := by
  induction as generalizing m with
  | nil => exact h
  | cons a as ih =>
    simp only [copyWrites, List.foldl_cons]
    split
    · exact ih (Memory.wf_write32 _ _ h)
    · exact ih h

@[simp] theorem stopPhase_ph (t : Config.Trig) (i : Instr) (p : Phase) (rest : List Phase) (s : State) :
    (stopPhase t i p rest s).ph = .stuck p rest := rfl

@[simp] theorem stopPhase_mem (t : Config.Trig) (i : Instr) (p : Phase) (rest : List Phase) (s : State) :
    (stopPhase t i p rest s).mem = copyWrites (doPhase t i p s).mem s.mem (answeredAccesses p s) := rfl

/-- A stopped phase changes no operand (R31, R125). -/
theorem stopPhase_same (t : Config.Trig) (i : Instr) (p : Phase) (rest : List Phase) (s : State) :
    SameOperands s (stopPhase t i p rest s) :=
  (doPhase_same t i p s).trans ⟨by constructor <;> rfl, rfl, rfl⟩

/-- A stopped phase reports nothing: BUSY, DONE, ERRCODE and the race mark are as before (R68). -/
theorem stopPhase_status (t : Config.Trig) (i : Instr) {p : Phase} (hp : p ≠ .finish) (rest : List Phase) (s : State) :
    (stopPhase t i p rest s).busy = s.busy ∧ (stopPhase t i p rest s).done = s.done ∧
      (stopPhase t i p rest s).errcode = s.errcode ∧ (stopPhase t i p rest s).raced = s.raced := by
  obtain ⟨h1, h2, h3, h4, -⟩ := doPhase_status t i hp s
  exact ⟨h1, h2, h3, h4⟩

theorem stopPhase_unseen (t : Config.Trig) (i : Instr) {p : Phase} (hp : p ≠ .finish) (rest : List Phase) (s : State) :
    (stopPhase t i p rest s).unseen = s.unseen := doPhase_unseen t i hp s

/-- A stopped phase leaves the bytes that the whole phase leaves. -/
theorem stopPhase_leaves (t : Config.Trig) (i : Instr) (p : Phase) (rest : List Phase) {s : State} {c : Nat}
    (h : Memory.readByte (doPhase t i p s).mem c = Memory.readByte s.mem c) :
    Memory.readByte (stopPhase t i p rest s).mem c = Memory.readByte s.mem c :=
  (readByte_copyWrites _ _ _ c).elim id (·.trans h)

/-! ### Lists of phases -/

/-- The phases one after the other, none of them refused an access. -/
def applyPhases (t : Config.Trig) (i : Instr) (ps : List Phase) (s : State) : State :=
  ps.foldl (fun s p => doPhase t i p s) s

@[simp] theorem applyPhases_nil (t : Config.Trig) (i : Instr) (s : State) : applyPhases t i [] s = s := rfl

@[simp] theorem applyPhases_cons (t : Config.Trig) (i : Instr) (p : Phase) (ps : List Phase) (s : State) :
    applyPhases t i (p :: ps) s = applyPhases t i ps (doPhase t i p s) := rfl

theorem applyPhases_append (t : Config.Trig) (i : Instr) (ps qs : List Phase) (s : State) :
    applyPhases t i (ps ++ qs) s = applyPhases t i qs (applyPhases t i ps s) := by
  simp [applyPhases, List.foldl_append]

theorem applyPhases_same (t : Config.Trig) (i : Instr) (ps : List Phase) (s : State) :
    SameOperands s (applyPhases t i ps s) := by
  induction ps generalizing s with
  | nil => exact .refl s
  | cons p ps ih => exact (doPhase_same t i p s).trans (ih _)

theorem applyPhases_status (t : Config.Trig) (i : Instr) {ps : List Phase} (hp : ∀ p ∈ ps, p ≠ .finish) (s : State) :
    (applyPhases t i ps s).busy = s.busy ∧ (applyPhases t i ps s).done = s.done ∧
      (applyPhases t i ps s).errcode = s.errcode ∧ (applyPhases t i ps s).raced = s.raced ∧
      (applyPhases t i ps s).ph = s.ph := by
  induction ps generalizing s with
  | nil => exact ⟨rfl, rfl, rfl, rfl, rfl⟩
  | cons p ps ih =>
    obtain ⟨h1, h2, h3, h4, h5⟩ := doPhase_status t i (hp p List.mem_cons_self) s
    obtain ⟨g1, g2, g3, g4, g5⟩ := ih (fun q hq => hp q (List.mem_cons_of_mem _ hq)) (doPhase t i p s)
    simp only [applyPhases_cons]
    exact ⟨g1.trans h1, g2.trans h2, g3.trans h3, g4.trans h4, g5.trans h5⟩

theorem applyPhases_unseen (t : Config.Trig) (i : Instr) {ps : List Phase} (hp : ∀ p ∈ ps, p ≠ .finish) (s : State) :
    (applyPhases t i ps s).unseen = s.unseen := by
  induction ps generalizing s with
  | nil => rfl
  | cons p ps ih =>
    rw [applyPhases_cons, ih (fun q hq => hp q (List.mem_cons_of_mem _ hq)), doPhase_unseen t i (hp p List.mem_cons_self)]

theorem applyPhases_ph (t : Config.Trig) (i : Instr) {ps : List Phase} (hp : ∀ p ∈ ps, p ≠ .finish) (s : State)
    (q : PH) : applyPhases t i ps { s with ph := q } = { applyPhases t i ps s with ph := q } := by
  induction ps generalizing s with
  | nil => rfl
  | cons p ps ih =>
    simp only [applyPhases_cons]
    rw [doPhase_ph t i (hp p List.mem_cons_self), ih fun q hq => hp q (List.mem_cons_of_mem _ hq)]

/-- Every access of a phase lies in the memory space. -/
def PhaseFits (p : Phase) (s : State) : Prop := ∀ a ∈ phaseAccesses p s, a.base + a.size ≤ Config.memSize

theorem PhaseFits.congr {p : Phase} {s t : State} (h : SameOperands s t) (hf : PhaseFits p s) : PhaseFits p t := by
  unfold PhaseFits
  rw [h.phaseAccesses]
  exact hf

/-- A phase fits when each of its iterations does. -/
theorem phaseFits_of_iterations {p : Phase} {s : State}
    (h : ∀ k, k < iterationCount p s → ∀ a ∈ iterationAccesses p s k, a.base + a.size ≤ Config.memSize) :
    PhaseFits p s := by
  intro a ha
  simp only [phaseAccesses, List.mem_flatMap, List.mem_range] at ha
  obtain ⟨k, hk, ha⟩ := ha
  exact h k hk a ha

/-- With the decided MemAdmit, every phase that stays in the memory space is admitted (R68). -/
theorem phaseAdmitted_of_fits {p : Phase} {s : State} (hh : s.holes = []) (hf : PhaseFits p s) :
    phaseAdmitted p s = true := by
  refine List.all_eq_true.mpr fun a ha => ?_
  simp [State.answers, hh, hf a ha]

theorem phaseAdmitted_finish (s : State) : phaseAdmitted .finish s = true := rfl

/-- The phases of a command and Finish, where no access is refused: the phases' work, then completion with OK (R135,
R136). -/
theorem runPhases_finish (t : Config.Trig) (i : Instr) {ps : List Phase} (s : State) (hp : ∀ p ∈ ps, p ≠ .finish)
    (hh : s.holes = []) (hf : ∀ p ∈ ps, PhaseFits p s) :
    runPhases t i (ps ++ [.finish]) s = (applyPhases t i ps s).finishCommand i .ok := by
  induction ps generalizing s with
  | nil =>
    show runPhases t i [.finish] s = _
    rw [runPhases, phaseAdmitted_finish, if_pos rfl]
    simp only [runPhases, advance, doPhase, PH.ofList, finishCommand_ph, applyPhases_nil]
    rfl
  | cons p ps ih =>
    have hp0 := hp p List.mem_cons_self
    have hp' : ∀ q ∈ ps, q ≠ .finish := fun q hq => hp q (List.mem_cons_of_mem _ hq)
    rw [List.cons_append, runPhases, phaseAdmitted_ph,
      phaseAdmitted_of_fits hh (hf p List.mem_cons_self), if_pos rfl]
    have hsame := doPhase_same t i p s
    have hadv : advance t i p (ps ++ [.finish]) { s with ph := .run p (ps ++ [.finish]) } =
        { doPhase t i p s with ph := PH.ofList (ps ++ [.finish]) } := by
      rw [advance, doPhase_ph t i hp0 s]
    have hnext := ih { doPhase t i p s with ph := PH.ofList (ps ++ [.finish]) } hp' (hsame.holes.trans hh)
      (fun q hq => (hf q (List.mem_cons_of_mem _ hq)).congr (hsame.trans ⟨by constructor <;> rfl, rfl, rfl⟩))
    rw [applyPhases_ph t i hp', finishCommand_ph] at hnext
    rw [hadv, hnext, applyPhases_cons]

/-- A command that passes its check, with every address answered: its phases' work, then completion with OK. -/
theorem runCommand_ok (t : Config.Trig) {i : Instr} {ps : List Phase} {s : State} (hc : check i s = .ok)
    (hh : s.holes = []) (hp : ∀ p ∈ ps, p ≠ .finish) (hf : ∀ p ∈ ps, PhaseFits p (s.takeOperands i)) :
    runCommand t i ps s = (applyPhases t i ps (s.takeOperands i)).finishCommand i .ok := by
  simp only [runCommand, hc]
  exact runPhases_finish t i _ hp (by simpa using hh) hf

/-- A command that fails its check ends at once (R134). -/
theorem runCommand_error (t : Config.Trig) {i : Instr} {ps : List Phase} {s : State} (hc : check i s ≠ .ok) :
    runCommand t i ps s = s.finishCommand i (check i s) := by
  unfold runCommand
  split
  · rename_i h
    exact absurd h hc
  · rfl

/-- A failed command has no regions, so the end of a race changes no byte (R66, R134). -/
theorem settleRace_mem_of_error {s : State} {i : Instr} (hc : check i s ≠ .ok) : (s.settleRace i).mem = s.mem := by
  unfold State.settleRace
  split
  · simp [State.rwRegions, hc, Memory.havoc]
  · rfl

/-! ### Which phases fit -/

/-- A vector of a state lies in the memory space. -/
def VecFits (s : State) (v : Vec) : Prop :=
  (s.bases v).re + 4 * (s.lengthOf v).toNat ≤ Config.memSize ∧
    (s.bases v).im + 4 * (s.lengthOf v).toNat ≤ Config.memSize

/-- Every access of an element of a vector that fits lies in the memory space. -/
theorem fits_element {b : Bases} {k l : Nat} {a : Access} (h1 : b.re + 4 * l ≤ Config.memSize)
    (h2 : b.im + 4 * l ≤ Config.memSize) (hk : k < l) (ha : a ∈ elementReads b k ++ elementWrites b k) :
    a.base + a.size ≤ Config.memSize := by
  simp only [elementReads, elementWrites, List.mem_append, List.mem_cons, List.not_mem_nil, or_false] at ha
  rcases ha with (rfl | rfl) | rfl | rfl <;> simp only <;> omega

theorem fits_conj {s : State} {v : Vec} (h : VecFits s v) : PhaseFits (.conj v) s := by
  refine phaseFits_of_iterations fun k hk a ha => ?_
  have h2 := h.2
  simp only [iterationCount] at hk
  simp only [iterationAccesses, List.mem_cons, List.not_mem_nil, or_false] at ha
  rcases ha with rfl | rfl <;> simp only <;> omega

theorem fits_bitRev {s : State} {v : Vec} {m : Nat} (h : VecFits s v) (hm : (s.lengthOf v).toNat = 2 ^ m) :
    PhaseFits (.bitRev v) s := by
  refine phaseFits_of_iterations fun k hk a ha => ?_
  have h1 := h.1
  have h2 := h.2
  simp only [iterationCount] at hk
  simp only [iterationAccesses, hm, Nat.log2_two_pow] at ha
  have hr := revBits_lt m k
  rw [hm] at h1 h2 hk
  split at ha
  · simp only [swapAccesses, List.mem_append, List.mem_cons, List.not_mem_nil, or_false] at ha
    rcases ha with (rfl | rfl | rfl | rfl) | rfl | rfl | rfl | rfl <;> simp only <;> omega
  · simp at ha

/-- The pair of a butterfly of a stage lies in the vector (R203). -/
theorem butterflyAt_lt {l g q : Nat} (hg : 1 ≤ g) (hq : q < l / 2 ^ g * halfBlock g) :
    butterflyAt g q + halfBlock g < l := by
  have h2 : 2 ^ g = 2 * halfBlock g := by
    obtain ⟨k, rfl⟩ : ∃ k, g = k + 1 := ⟨g - 1, by omega⟩
    rw [halfBlock, Nat.add_sub_cancel, Nat.pow_succ]
    omega
  have hpos : 0 < halfBlock g := Nat.two_pow_pos _
  have hb : q / halfBlock g < l / 2 ^ g := Nat.div_lt_of_lt_mul (by rwa [Nat.mul_comm])
  have hj := Nat.mod_lt q hpos
  have hl : (q / halfBlock g + 1) * (2 * halfBlock g) ≤ l := by
    rw [← h2]
    exact (Nat.mul_le_mul_right _ hb).trans (Nat.div_mul_le_self _ _)
  rw [Nat.succ_mul] at hl
  unfold butterflyAt
  omega

theorem fits_stage {s : State} {v : Vec} {g : Nat} (hg : 1 ≤ g) (h : VecFits s v) : PhaseFits (.stage v g) s := by
  refine phaseFits_of_iterations fun k hk a ha => ?_
  have hu := butterflyAt_lt hg hk
  simp only [iterationAccesses, List.mem_append] at ha
  rcases ha with ((ha | ha) | ha) | ha
  · exact fits_element h.1 h.2 (by omega : butterflyAt g k < _) (List.mem_append.mpr (.inl ha))
  · exact fits_element h.1 h.2 hu (List.mem_append.mpr (.inl ha))
  · exact fits_element h.1 h.2 hu (List.mem_append.mpr (.inr ha))
  · exact fits_element h.1 h.2 (by omega : butterflyAt g k < _) (List.mem_append.mpr (.inr ha))

theorem fits_scale {s : State} {v : Vec} (h : VecFits s v) : PhaseFits (.scale v) s := by
  refine phaseFits_of_iterations fun k hk a ha => ?_
  refine fits_element h.1 h.2 hk ?_
  simp only [iterationAccesses, elementReads, elementWrites, List.mem_append, List.mem_cons, List.not_mem_nil,
    or_false] at ha ⊢
  tauto

theorem fits_chirpMul {s : State} (neg : Bool) (h : VecFits s .x) : PhaseFits (.chirpMul neg) s :=
  phaseFits_of_iterations fun _ hk _ ha => fits_element h.1 h.2 hk ha

theorem fits_pointMul {s : State} {d p q : Vec} (hd : VecFits s d) (hp : VecFits s p) (hq : VecFits s q)
    (hlp : s.lengthOf p = s.lengthOf d) (hlq : s.lengthOf q = s.lengthOf d) : PhaseFits (.pointMul d p q) s := by
  refine phaseFits_of_iterations fun k hk a ha => ?_
  unfold VecFits at hp hq
  rw [hlp] at hp
  rw [hlq] at hq
  simp only [iterationAccesses, List.mem_append] at ha
  rcases ha with (ha | ha) | ha
  · exact fits_element hp.1 hp.2 hk (List.mem_append.mpr (.inl ha))
  · exact fits_element hq.1 hq.2 hk (List.mem_append.mpr (.inl ha))
  · exact fits_element hd.1 hd.2 hk (List.mem_append.mpr (.inr ha))

/-- The scratch region of a state lies in the memory space and holds vectors of M ≥ 2n - 1 elements. -/
structure ScratchFits (s : State) : Prop where
  space : s.scr.toNat + 24 * s.mlen.toNat ≤ Config.memSize
  longEnough : 2 * s.n.toNat - 1 ≤ s.mlen.toNat
  lenPos : 1 ≤ s.n.toNat

theorem ScratchFits.vec {s : State} (h : ScratchFits s) : VecFits s .a ∧ VecFits s .b ∧ VecFits s .c := by
  have h1 := h.space
  simp only [VecFits, State.bases, State.lengthOf]
  omega

theorem fits_zero {s : State} (h : ScratchFits s) : PhaseFits .zero s := by
  refine phaseFits_of_iterations fun k hk a ha => ?_
  have h1 := h.space
  simp only [iterationCount] at hk
  simp only [iterationAccesses, List.mem_cons, List.not_mem_nil, or_false] at ha
  subst ha
  simp only
  omega

theorem fits_chirpFill {s : State} (hx : VecFits s .x) (h : ScratchFits s) : PhaseFits .chirpFill s := by
  refine phaseFits_of_iterations fun k hk a ha => ?_
  obtain ⟨hva, hvb, -⟩ := h.vec
  have h2 := h.longEnough
  simp only [iterationCount] at hk
  have hkm : k < (s.lengthOf .a).toNat := by
    simp only [State.lengthOf]
    omega
  simp only [iterationAccesses, List.mem_append] at ha
  rcases ha with ((ha | ha) | ha) | ha
  · exact fits_element hx.1 hx.2 hk (List.mem_append.mpr (.inl ha))
  · exact fits_element hva.1 hva.2 hkm (List.mem_append.mpr (.inr ha))
  · exact fits_element hvb.1 hvb.2 hkm (List.mem_append.mpr (.inr ha))
  · split at ha
    · refine fits_element hvb.1 hvb.2 (?_ : s.mlen.toNat - k < _) (List.mem_append.mpr (.inr ha))
      simp only [State.lengthOf]
      omega
    · simp at ha

theorem fits_extract {s : State} (hx : VecFits s .x) (h : ScratchFits s) : PhaseFits .extract s := by
  refine phaseFits_of_iterations fun k hk a ha => ?_
  obtain ⟨-, -, hvc⟩ := h.vec
  have h2 := h.longEnough
  simp only [iterationCount] at hk
  have hkm : k < (s.lengthOf .c).toNat := by
    simp only [State.lengthOf]
    omega
  simp only [iterationAccesses, List.mem_append] at ha
  rcases ha with ha | ha
  · exact fits_element hvc.1 hvc.2 hkm (List.mem_append.mpr (.inl ha))
  · exact fits_element hx.1 hx.2 hk (List.mem_append.mpr (.inr ha))

theorem fits_forward {s : State} {v : Vec} {m : Nat} (h : VecFits s v) (hm : (s.lengthOf v).toNat = 2 ^ m) :
    ∀ p ∈ forwardPhases v (2 ^ m), PhaseFits p s := by
  intro p hp
  simp only [forwardPhases, List.mem_cons, List.mem_map, List.mem_range] at hp
  rcases hp with rfl | ⟨k, -, rfl⟩
  · exact fits_bitRev h hm
  · exact fits_stage (by omega) h

theorem fits_inverse {s : State} {v : Vec} {m : Nat} (h : VecFits s v) (hm : (s.lengthOf v).toNat = 2 ^ m) :
    ∀ p ∈ inversePhases v (2 ^ m), PhaseFits p s := by
  intro p hp
  simp only [inversePhases, List.mem_cons, List.mem_append, List.not_mem_nil, or_false] at hp
  rcases hp with rfl | hp | rfl | rfl
  · exact fits_conj h
  · exact fits_forward h hm p hp
  · exact fits_conj h
  · exact fits_scale h

theorem fits_bluestein {s : State} {m : Nat} (hx : VecFits s .x) (h : ScratchFits s) (hm : s.mlen.toNat = 2 ^ m) :
    ∀ p ∈ bluesteinPhases (2 ^ m), PhaseFits p s := by
  obtain ⟨ha, hb, hc⟩ := h.vec
  intro p hp
  simp only [bluesteinPhases, List.mem_append, List.mem_cons, List.not_mem_nil, or_false] at hp
  rcases hp with ((((( rfl | rfl) | hp) | hp) | rfl) | hp) | rfl
  · exact fits_zero h
  · exact fits_chirpFill hx h
  · exact fits_forward ha hm p hp
  · exact fits_forward hb hm p hp
  · exact fits_pointMul hc ha hb rfl rfl
  · exact fits_inverse hc hm p hp
  · exact fits_extract hx h

theorem fits_bluesteinInverse {s : State} {m : Nat} (hx : VecFits s .x) (h : ScratchFits s)
    (hm : s.mlen.toNat = 2 ^ m) : ∀ p ∈ bluesteinInversePhases (2 ^ m), PhaseFits p s := by
  intro p hp
  simp only [bluesteinInversePhases, List.mem_cons, List.mem_append, List.not_mem_nil, or_false] at hp
  rcases hp with rfl | hp | rfl | rfl
  · exact fits_conj hx
  · exact fits_bluestein hx h hm p hp
  · exact fits_conj hx
  · exact fits_scale hx

/-- X of a command that passed its check lies in the memory space. -/
theorem CheckPassed.xFits {i : Instr} {s : State} (h : CheckPassed i s) (hi : i ≠ .nop) :
    VecFits (s.takeOperands i) .x := by
  have := h.xRange
  simp only [VecFits, State.bases, State.lengthOf, State.takeOperands_n_of_ne s i hi, State.takeOperands_xre,
    State.takeOperands_xim]
  exact this

/-- The scratch region of a command on the Bluestein path that passed its check. -/
theorem CheckPassed.scratchFits {i : Instr} {s : State} (h : CheckPassed i s) (hi : i ≠ .nop)
    (hb : onBluestein i s.len.toNat = true) : ScratchFits (s.takeOperands i) := by
  have h1 := h.mlen hi hb
  have h2 := le_paddedLength s.len.toNat
  have h3 := h.lenPos
  have h4 := h.scratchRange hb
  refine ⟨?_, ?_, ?_⟩
  · rw [h1, State.takeOperands_scr]
    exact h4
  · rw [h1, State.takeOperands_n_of_ne s i hi]
    exact h2
  · rw [State.takeOperands_n_of_ne s i hi]
    exact h3

/-! ### Which bytes a phase leaves -/

/-- The phase leaves the bytes outside a set of addresses. -/
def PhaseLeaves (R : Nat → Prop) (p : Phase) (s : State) : Prop :=
  ∀ (t : Config.Trig) (i : Instr) (c : Nat), ¬R c →
    Memory.readByte (doPhase t i p s).mem c = Memory.readByte s.mem c

/-- The vector of a state lies in a set of addresses, its arrays share no byte, and its length is a power of two where
that is asked. -/
structure VecIn (R : Nat → Prop) (s : State) (v : Vec) : Prop where
  inside : ∀ c, ¬R c → (s.bases v).outside (s.lengthOf v).toNat c
  apart : (s.bases v).apart (s.lengthOf v).toNat

theorem leaves_conj {R : Nat → Prop} {s : State} {v : Vec} (h : VecIn R s v) : PhaseLeaves R (.conj v) s :=
  fun _ _ c hc => (conjPass_spec (s.bases v) (s.lengthOf v).toNat ⟨s.dp, s.mem⟩).2 c (h.inside c hc).2

theorem leaves_bitRev {R : Nat → Prop} {s : State} {v : Vec} {m : Nat} (h : VecIn R s v)
    (hm : (s.lengthOf v).toNat = 2 ^ m) : PhaseLeaves R (.bitRev v) s := by
  intro _ _ c hc
  have h1 := h.inside c hc
  have h2 := h.apart
  rw [hm] at h1 h2
  simp only [doPhase, State.work_mem, hm]
  exact (bitRevPass_spec (s.bases v) m ⟨_, s.mem⟩ h2).2 c h1

theorem leaves_stage {R : Nat → Prop} {s : State} {v : Vec} {m k : Nat} (h : VecIn R s v)
    (hm : (s.lengthOf v).toNat = 2 ^ m) (hk : 1 ≤ k) (hkm : k ≤ m) : PhaseLeaves R (.stage v k) s := by
  intro t _ c hc
  have h1 := h.inside c hc
  have h2 := h.apart
  rw [hm] at h1 h2
  simp only [doPhase, State.work_mem, hm]
  exact (stagePass_spec (s.bases v) m k (twiddle t k) _ ⟨_, s.mem⟩ hk hkm h2).2 c h1

theorem leaves_scale {R : Nat → Prop} {s : State} {v : Vec} (h : VecIn R s v) : PhaseLeaves R (.scale v) s :=
  fun _ _ c hc => (scalePass_spec (s.bases v) (s.lengthOf v).toNat _ ⟨s.dp, s.mem⟩ h.apart).2 c (h.inside c hc)

theorem leaves_chirpMul {R : Nat → Prop} {s : State} (neg : Bool) (h : VecIn R s .x) :
    PhaseLeaves R (.chirpMul neg) s :=
  fun t _ c hc => (chirpMulPass_spec t (s.bases .x) s.n.toNat neg _ ⟨s.dp, s.mem⟩ h.apart).2 c (h.inside c hc)

theorem leaves_pointMul {R : Nat → Prop} {s : State} {d p q : Vec} (h : VecIn R s d)
    (hp : (s.bases p).readable (s.bases d) (s.lengthOf d).toNat)
    (hq : (s.bases q).readable (s.bases d) (s.lengthOf d).toNat) : PhaseLeaves R (.pointMul d p q) s :=
  fun _ _ c hc => (pointMulPass_spec (s.bases d) (s.bases p) (s.bases q) _ _ ⟨s.dp, s.mem⟩ h.apart hp hq).2 c
    (h.inside c hc)

/-- The scratch region lies in a set of addresses and shares no byte with X. -/
structure ScratchIn (R : Nat → Prop) (s : State) : Prop where
  inside : ∀ c, ¬R c → c < s.scr.toNat ∨ s.scr.toNat + 24 * s.mlen.toNat ≤ c
  clearRe : s.scr.toNat + 24 * s.mlen.toNat ≤ s.xre.toNat ∨ s.xre.toNat + 4 * s.n.toNat ≤ s.scr.toNat
  clearIm : s.scr.toNat + 24 * s.mlen.toNat ≤ s.xim.toNat ∨ s.xim.toNat + 4 * s.n.toNat ≤ s.scr.toNat
  longEnough : 2 * s.n.toNat - 1 ≤ s.mlen.toNat
  lenPos : 1 ≤ s.n.toNat

theorem ScratchIn.vec {R : Nat → Prop} {s : State} (h : ScratchIn R s) : VecIn R s .a ∧ VecIn R s .b ∧ VecIn R s .c := by
  refine ⟨⟨fun c hc => ?_, ?_⟩, ⟨fun c hc => ?_, ?_⟩, ⟨fun c hc => ?_, ?_⟩⟩
  all_goals simp only [Bases.outside, Bases.apart, State.bases, State.lengthOf]
  all_goals first
    | (have := h.inside c hc; omega)
    | omega

theorem ScratchIn.aClear {R : Nat → Prop} {s : State} (_ : ScratchIn R s) :
    (s.bases .a).clear s.mlen.toNat (s.bases .b) s.mlen.toNat := by
  intro a ha b hb
  simp only [State.bases, List.mem_cons, List.not_mem_nil, or_false] at ha hb
  omega

theorem ScratchIn.aClearX {R : Nat → Prop} {s : State} (h : ScratchIn R s) :
    (s.bases .a).clear s.mlen.toNat (s.bases .x) s.n.toNat := by
  have h1 := h.clearRe
  have h2 := h.clearIm
  intro a ha b hb
  simp only [State.bases, List.mem_cons, List.not_mem_nil, or_false] at ha hb
  rcases ha with rfl | rfl <;> rcases hb with rfl | rfl <;> omega

theorem ScratchIn.bClearX {R : Nat → Prop} {s : State} (h : ScratchIn R s) :
    (s.bases .b).clear s.mlen.toNat (s.bases .x) s.n.toNat := by
  have h1 := h.clearRe
  have h2 := h.clearIm
  intro a ha b hb
  simp only [State.bases, List.mem_cons, List.not_mem_nil, or_false] at ha hb
  rcases ha with rfl | rfl <;> rcases hb with rfl | rfl <;> omega

theorem ScratchIn.cReadable {R : Nat → Prop} {s : State} (h : ScratchIn R s) :
    (s.bases .c).readable (s.bases .x) s.n.toNat := by
  have h1 := h.clearRe
  have h2 := h.clearIm
  have h3 := h.longEnough
  have h4 := h.lenPos
  intro a ha b hb
  simp only [State.bases, List.mem_cons, List.not_mem_nil, or_false] at ha hb
  rcases ha with rfl | rfl <;> rcases hb with rfl | rfl <;> omega

theorem ScratchIn.abReadable {R : Nat → Prop} {s : State} (_ : ScratchIn R s) :
    (s.bases .a).readable (s.bases .c) s.mlen.toNat ∧ (s.bases .b).readable (s.bases .c) s.mlen.toNat := by
  constructor <;> intro a ha b hb <;> simp only [State.bases, List.mem_cons, List.not_mem_nil, or_false] at ha hb <;>
    omega

theorem leaves_zero {R : Nat → Prop} {s : State} (h : ScratchIn R s) : PhaseLeaves R .zero s :=
  fun _ _ c hc => (zeroPass_spec s.scr.toNat s.mlen.toNat ⟨s.dp, s.mem⟩).2 c (h.inside c hc)

theorem leaves_chirpFill {R : Nat → Prop} {s : State} (h : ScratchIn R s) : PhaseLeaves R .chirpFill s := by
  intro t _ c hc
  obtain ⟨ha, hb, -⟩ := h.vec
  exact (chirpFillPass_spec t (s.bases .x) (s.bases .a) (s.bases .b) s.n.toNat s.mlen.toNat _ ⟨s.dp, s.mem⟩ h.lenPos
    h.longEnough ha.apart hb.apart h.aClear h.aClearX h.bClearX).2.2 c (ha.inside c hc) (hb.inside c hc)

theorem leaves_extract {R : Nat → Prop} {s : State} (hx : VecIn R s .x) (h : ScratchIn R s) :
    PhaseLeaves R .extract s :=
  fun t _ c hc => (extractPass_spec t (s.bases .x) (s.bases .c) s.n.toNat _ ⟨s.dp, s.mem⟩ hx.apart h.cReadable).2 c
    (hx.inside c hc)

theorem VecIn.congr {R : Nat → Prop} {s t : State} {v : Vec} (h : SameOperands s t) (hv : VecIn R s v) : VecIn R t v :=
  ⟨by rw [h.bases, h.lengthOf]; exact hv.inside, by rw [h.bases, h.lengthOf]; exact hv.apart⟩

theorem ScratchIn.congr {R : Nat → Prop} {s t : State} (h : SameOperands s t) (hv : ScratchIn R s) : ScratchIn R t :=
  ⟨by rw [h.scr, h.mlen]; exact hv.inside, by rw [h.scr, h.mlen, h.xre, h.n]; exact hv.clearRe,
    by rw [h.scr, h.mlen, h.xim, h.n]; exact hv.clearIm, by rw [h.mlen, h.n]; exact hv.longEnough,
    by rw [h.n]; exact hv.lenPos⟩

theorem leaves_forward {R : Nat → Prop} {s : State} {v : Vec} {m : Nat} (h : VecIn R s v)
    (hm : (s.lengthOf v).toNat = 2 ^ m) : ∀ p ∈ forwardPhases v (2 ^ m), PhaseLeaves R p s := by
  intro p hp
  simp only [forwardPhases, Nat.log2_two_pow, List.mem_cons, List.mem_map, List.mem_range] at hp
  rcases hp with rfl | ⟨k, hk, rfl⟩
  · exact leaves_bitRev h hm
  · exact leaves_stage h hm (by omega) (by omega)

theorem leaves_inverse {R : Nat → Prop} {s : State} {v : Vec} {m : Nat} (h : VecIn R s v)
    (hm : (s.lengthOf v).toNat = 2 ^ m) : ∀ p ∈ inversePhases v (2 ^ m), PhaseLeaves R p s := by
  intro p hp
  simp only [inversePhases, List.mem_cons, List.mem_append, List.not_mem_nil, or_false] at hp
  rcases hp with rfl | hp | rfl | rfl
  · exact leaves_conj h
  · exact leaves_forward h hm p hp
  · exact leaves_conj h
  · exact leaves_scale h

theorem leaves_bluestein {R : Nat → Prop} {s : State} {m : Nat} (hx : VecIn R s .x) (h : ScratchIn R s)
    (hm : s.mlen.toNat = 2 ^ m) : ∀ p ∈ bluesteinPhases (2 ^ m), PhaseLeaves R p s := by
  obtain ⟨ha, hb, hc⟩ := h.vec
  intro p hp
  simp only [bluesteinPhases, List.mem_append, List.mem_cons, List.not_mem_nil, or_false] at hp
  rcases hp with ((((( rfl | rfl) | hp) | hp) | rfl) | hp) | rfl
  · exact leaves_zero h
  · exact leaves_chirpFill h
  · exact leaves_forward ha hm p hp
  · exact leaves_forward hb hm p hp
  · exact leaves_pointMul hc h.abReadable.1 h.abReadable.2
  · exact leaves_inverse hc hm p hp
  · exact leaves_extract hx h

theorem leaves_bluesteinInverse {R : Nat → Prop} {s : State} {m : Nat} (hx : VecIn R s .x) (h : ScratchIn R s)
    (hm : s.mlen.toNat = 2 ^ m) : ∀ p ∈ bluesteinInversePhases (2 ^ m), PhaseLeaves R p s := by
  intro p hp
  simp only [bluesteinInversePhases, List.mem_cons, List.mem_append, List.not_mem_nil, or_false] at hp
  rcases hp with rfl | hp | rfl | rfl
  · exact leaves_conj hx
  · exact leaves_bluestein hx h hm p hp
  · exact leaves_conj hx
  · exact leaves_scale hx

/-- Phases that each leave the bytes outside a set leave them together. -/
theorem applyPhases_leaves {R : Nat → Prop} (t : Config.Trig) (i : Instr) {ps : List Phase} {s : State}
    (h : ∀ p ∈ ps, ∀ s', SameOperands s s' → PhaseLeaves R p s') {c : Nat} (hc : ¬R c) :
    Memory.readByte (applyPhases t i ps s).mem c = Memory.readByte s.mem c := by
  induction ps generalizing s with
  | nil => rfl
  | cons p ps ih =>
    have h0 := doPhase_same t i p s
    rw [applyPhases_cons, ih fun q hq s' hs' => h q (List.mem_cons_of_mem _ hq) s' (h0.trans hs'),
      h p List.mem_cons_self s (.refl s) t i c hc]

/-! ### Free values in regions -/

theorem Memory.readByte_havocRegion (d : Draw) (m : Memory) (r : Region) {c : Nat} (hc : r.has c = false) :
    Memory.readByte (Memory.havocRegion d m r) c = Memory.readByte m c := by
  simp only [Region.has, Bool.and_eq_false_iff, decide_eq_false_iff_not] at hc
  refine forRange_induct (fun k m' => Memory.readByte m' c = Memory.readByte m c) rfl fun k m' hk h => ?_
  rw [Memory.readByte_writeByte_ne _ _ (by omega), h]

/-- Free values are put into the regions only (R76, R312). -/
theorem Memory.readByte_havoc (d : Draw) (m : Memory) (rs : List Region) {c : Nat} (hc : inRegions rs c = false) :
    Memory.readByte (Memory.havoc d m rs) c = Memory.readByte m c := by
  induction rs generalizing m with
  | nil => rfl
  | cons r rs ih =>
    simp only [inRegions, List.any_cons, Bool.or_eq_false_iff] at hc
    show Memory.readByte (Memory.havoc d (Memory.havocRegion d m r) rs) c = _
    rw [ih _ hc.2, Memory.readByte_havocRegion d m r hc.1]

theorem Memory.wf_havoc (d : Draw) {m : Memory} (rs : List Region) (h : Memory.wf m = true) :
    Memory.wf (Memory.havoc d m rs) = true := by
  induction rs generalizing m with
  | nil => exact h
  | cons r rs ih =>
    refine ih (forRange_induct (fun _ m => Memory.wf m = true) h fun k m' _ h' => ?_)
    exact Memory.wf_writeByte _ _ h'

theorem settleRace_leaves (s : State) (i : Instr) {c : Nat} (hc : inRegions (s.rwRegions i) c = false) :
    Memory.readByte (s.settleRace i).mem c = Memory.readByte s.mem c := by
  unfold State.settleRace
  split
  · exact Memory.readByte_havoc _ _ _ hc
  · rfl

end Sys2Proof.Machine
end

