-- ==== Sys2Proof/Laws/Canonical.lean ====
section
/-! SUPPORT. Every pass and every phase keeps the canonical form of memory, and a memory in canonical form lists only
addresses that read as something else than an unlisted one. -/

namespace Sys2Proof.Machine

open Sys2Proof

theorem wf_writeC {m : Memory} (v : Bases) (k : Nat) (z : Cplx) (h : Memory.wf m = true) :
    Memory.wf (writeC m v k z) = true := Memory.wf_write32 _ _ (Memory.wf_write32 _ _ h)

theorem wf_swap32 {m : Memory} (p q : Nat) (h : Memory.wf m = true) : Memory.wf (swap32 m p q) = true :=
  Memory.wf_write32 _ _ (Memory.wf_write32 _ _ h)

/-- A loop keeps the canonical form when its body does. -/
theorem wf_forRange {body : Nat → Work → Work} {lo cnt : Nat} {x : Work}
    (hb : ∀ k y, Memory.wf y.mem = true → Memory.wf (body k y).mem = true) (h : Memory.wf x.mem = true) :
    Memory.wf (forRange body lo cnt x).mem = true :=
  forRange_induct (fun _ y => Memory.wf y.mem = true) h fun k y _ hy => hb (lo + k) y hy

theorem wf_bitRevPass {x : Work} (v : Bases) (l : Nat) (h : Memory.wf x.mem = true) :
    Memory.wf (bitRevPass v l x).mem = true := by
  refine wf_forRange (fun k y hy => ?_) h
  simp only [bitRevStep]
  split
  · exact wf_swap32 _ _ (wf_swap32 _ _ hy)
  · exact hy

theorem wf_stagePass {x : Work} (v : Bases) (l s : Nat) (tw : Cplx) (d : Draw) (h : Memory.wf x.mem = true) :
    Memory.wf (stagePass v l s tw d x).mem = true :=
  wf_forRange (fun _ _ hy => wf_forRange (fun _ _ hz => wf_writeC _ _ _ (wf_writeC _ _ _ hz)) hy) h

theorem wf_conjPass {x : Work} (v : Bases) (l : Nat) (h : Memory.wf x.mem = true) :
    Memory.wf (conjPass v l x).mem = true := wf_forRange (fun _ _ hy => Memory.wf_write32 _ _ hy) h

theorem wf_scalePass {x : Work} (v : Bases) (l : Nat) (d : Draw) (h : Memory.wf x.mem = true) :
    Memory.wf (scalePass v l d x).mem = true :=
  wf_forRange (fun _ _ hy => Memory.wf_write32 _ _ (Memory.wf_write32 _ _ hy)) h

theorem wf_chirpMulPass {x : Work} (t : Config.Trig) (v : Bases) (n : Nat) (neg : Bool) (d : Draw)
    (h : Memory.wf x.mem = true) : Memory.wf (chirpMulPass t v n neg d x).mem = true :=
  wf_forRange (fun _ _ hy => wf_writeC _ _ _ hy) h

theorem wf_pointMulPass {x : Work} (dst p q : Bases) (l : Nat) (d : Draw) (h : Memory.wf x.mem = true) :
    Memory.wf (pointMulPass dst p q l d x).mem = true := wf_forRange (fun _ _ hy => wf_writeC _ _ _ hy) h

theorem wf_zeroPass {x : Work} (scr m : Nat) (h : Memory.wf x.mem = true) :
    Memory.wf (zeroPass scr m x).mem = true := by
  refine wf_forRange (fun k y hy => ?_) h
  exact Memory.wf_write32 (m := y.mem) (scr + 4 * k) zero32 hy

theorem wf_chirpFillPass {x : Work} (t : Config.Trig) (vx va vb : Bases) (n m : Nat) (d : Draw)
    (h : Memory.wf x.mem = true) : Memory.wf (chirpFillPass t vx va vb n m d x).mem = true := by
  refine wf_forRange (fun k y hy => ?_) h
  simp only [chirpFillStep]
  split
  · exact wf_writeC _ _ _ (wf_writeC _ _ _ (wf_writeC _ _ _ hy))
  · exact wf_writeC _ _ _ (wf_writeC _ _ _ hy)

theorem wf_extractPass {x : Work} (t : Config.Trig) (vx vc : Bases) (n : Nat) (d : Draw)
    (h : Memory.wf x.mem = true) : Memory.wf (extractPass t vx vc n d x).mem = true :=
  wf_forRange (fun _ _ hy => wf_writeC _ _ _ hy) h

theorem wf_settleRace {s : State} (i : Instr) (h : Memory.wf s.mem = true) :
    Memory.wf (s.settleRace i).mem = true := by
  unfold State.settleRace
  split
  · exact Memory.wf_havoc _ _ h
  · exact h

/-- Every phase keeps the canonical form of memory. -/
theorem wf_doPhase (t : Config.Trig) (i : Instr) (p : Phase) {s : State} (h : Memory.wf s.mem = true) :
    Memory.wf (doPhase t i p s).mem = true := by
  cases p with
  | check => exact h
  | conj v => exact wf_conjPass _ _ h
  | bitRev v => exact wf_bitRevPass _ _ h
  | stage v k => exact wf_stagePass _ _ _ _ _ h
  | scale v => exact wf_scalePass _ _ _ h
  | zero => exact wf_zeroPass _ _ h
  | chirpFill => exact wf_chirpFillPass _ _ _ _ _ _ _ h
  | pointMul d p q => exact wf_pointMulPass _ _ _ _ _ h
  | extract => exact wf_extractPass _ _ _ _ _ h
  | chirpMul neg => exact wf_chirpMulPass _ _ _ _ _ h
  | finish => exact wf_settleRace i h

theorem wf_applyPhases (t : Config.Trig) (i : Instr) (ps : List Phase) {s : State} (h : Memory.wf s.mem = true) :
    Memory.wf (applyPhases t i ps s).mem = true := by
  induction ps generalizing s with
  | nil => exact h
  | cons p ps ih => exact ih (wf_doPhase t i p h)

theorem wf_runPhases (t : Config.Trig) (i : Instr) (ps : List Phase) {s : State} (h : Memory.wf s.mem = true) :
    Memory.wf (runPhases t i ps s).mem = true := by
  induction ps generalizing s with
  | nil => exact h
  | cons p ps ih =>
    rw [runPhases]
    split
    · exact ih (wf_doPhase t i p h)
    · exact wf_copyWrites _ _ h

theorem wf_hostStore (racy : List Region) (d : Draw) {m : Memory} (a : Nat) (bs : List Byte)
    (h : Memory.wf m = true) : Memory.wf (hostStore racy d m a bs) = true := by
  induction bs generalizing m a with
  | nil => exact h
  | cons b bs ih => exact ih (a + 1) (Memory.wf_writeByte a _ h)

/-- A listed byte differs from what an unlisted one reads as. -/
theorem Memory.wfAbove_ne {lo : Option Nat} {m : Memory} (h : Memory.wfAbove lo m = true) {c : Host.Cell}
    (hc : c ∈ m) : Memory.readByte m c.1 ≠ Memory.unlisted := by
  induction m generalizing lo with
  | nil => simp at hc
  | cons d m ih =>
    obtain ⟨x, b⟩ := d
    simp only [Memory.wfAbove, Bool.and_eq_true, decide_eq_true_eq] at h
    rcases List.mem_cons.mp hc with rfl | hc
    · simpa [Memory.readByte] using h.1.2
    · have hne := ih h.2 hc
      have hx : x ≠ c.1 := by
        intro he
        exact hne (Memory.readByte_of_wfAbove h.2 (Nat.le_of_eq he.symm))
      simpa [Memory.readByte, hx] using hne

/-- In a memory in canonical form the listed addresses are bounded exactly when every address beyond the bound reads as
unlisted. -/
theorem Memory.below_iff {m : Memory} {n : Nat} (h : Memory.wf m = true) :
    Memory.below m n ↔ ∀ a, n ≤ a → Memory.readByte m a = Memory.unlisted := by
  constructor
  · intro hb a ha
    by_contra hc
    exact absurd (hb _ (Memory.readByte_mem_of_ne hc)) (by simp only; omega)
  · intro hr c hc
    by_contra hn
    exact Memory.wfAbove_ne h hc (hr _ (by omega))

end Sys2Proof.Machine
end

