-- ==== Sys2Proof/Laws/Commands.lean ====
section
/-! SUPPORT. Each command as its check, its phases and its completion: that exec is the one shared sequence, that the
phases of an admitted command stay in its regions, and what an admitted and a failed command answer. -/

namespace Sys2Proof.Machine

open Sys2Proof

/-- Every meaning is the shared sequence over the command's own phases (R131, R135). -/
theorem exec_eq (i : Instr) (s : State) : exec i s = .next (runCommand Config.trig i (phasesOf i s) s) := by
  cases i <;> rfl

theorem forwardPhases_ne_finish (v : Vec) (l : Nat) : ∀ p ∈ forwardPhases v l, p ≠ .finish := by
  intro p hp
  simp only [forwardPhases, List.mem_cons, List.mem_map] at hp
  rcases hp with rfl | ⟨_, -, rfl⟩ <;> simp

theorem inversePhases_ne_finish (v : Vec) (l : Nat) : ∀ p ∈ inversePhases v l, p ≠ .finish := by
  intro p hp
  simp only [inversePhases, List.mem_cons, List.mem_append, List.not_mem_nil, or_false] at hp
  rcases hp with rfl | hp | rfl | rfl
  · simp
  · exact forwardPhases_ne_finish v l p hp
  · simp
  · simp

theorem bluesteinPhases_ne_finish (m : Nat) : ∀ p ∈ bluesteinPhases m, p ≠ .finish := by
  intro p hp
  simp only [bluesteinPhases, List.mem_append, List.mem_cons, List.not_mem_nil, or_false] at hp
  rcases hp with ((((( rfl | rfl) | hp) | hp) | rfl) | hp) | rfl
  · simp
  · simp
  · exact forwardPhases_ne_finish _ _ p hp
  · exact forwardPhases_ne_finish _ _ p hp
  · simp
  · exact inversePhases_ne_finish _ _ p hp
  · simp

theorem bluesteinInversePhases_ne_finish (m : Nat) : ∀ p ∈ bluesteinInversePhases m, p ≠ .finish := by
  intro p hp
  simp only [bluesteinInversePhases, List.mem_cons, List.mem_append, List.not_mem_nil, or_false] at hp
  rcases hp with rfl | hp | rfl | rfl
  · simp
  · exact bluesteinPhases_ne_finish m p hp
  · simp
  · simp

/-- A command's own phases are between Check and Finish (R40). -/
theorem phasesOf_ne_finish (i : Instr) (s : State) : ∀ p ∈ phasesOf i s, p ≠ .finish := by
  intro p hp
  cases i with
  | nop => simp [phasesOf, phasesNop] at hp
  | dftF =>
    simp only [phasesOf, phasesDftF] at hp
    split at hp
    · exact forwardPhases_ne_finish _ _ p hp
    · exact bluesteinPhases_ne_finish _ p hp
  | dftI =>
    simp only [phasesOf, phasesDftI] at hp
    split at hp
    · exact inversePhases_ne_finish _ _ p hp
    · exact bluesteinInversePhases_ne_finish _ p hp
  | fft2F => exact forwardPhases_ne_finish _ _ p hp
  | fft2I => exact inversePhases_ne_finish _ _ p hp
  | blueF => exact bluesteinPhases_ne_finish _ p hp
  | blueI => exact bluesteinInversePhases_ne_finish _ p hp
  | bitrev =>
    simp only [phasesOf, phasesBitrev, List.mem_singleton] at hp
    simp [hp]
  | stage k =>
    simp only [phasesOf, phasesStage, List.mem_singleton] at hp
    simp [hp]
  | conj =>
    simp only [phasesOf, phasesConj, List.mem_singleton] at hp
    simp [hp]
  | scale =>
    simp only [phasesOf, phasesScale, List.mem_singleton] at hp
    simp [hp]
  | cmul =>
    simp only [phasesOf, phasesCmul, List.mem_singleton] at hp
    simp [hp]
  | chirpN =>
    simp only [phasesOf, phasesChirpN, List.mem_singleton] at hp
    simp [hp]
  | chirpP =>
    simp only [phasesOf, phasesChirpP, List.mem_singleton] at hp
    simp [hp]

/-- Taking the operands changes n and M only, so the phases worked out before it are those after it. -/
theorem phasesOf_takeOperands (i j : Instr) (s : State) : phasesOf i (s.takeOperands j) = phasesOf i s := by
  cases i <;> simp [phasesOf, phasesNop, phasesDftF, phasesDftI, phasesFft2F, phasesFft2I, phasesBlueF, phasesBlueI,
    phasesBitrev, phasesStage, phasesConj, phasesScale, phasesCmul, phasesChirpN, phasesChirpP]

theorem CheckPassed.yFits {s : State} (h : CheckPassed .cmul s) : VecFits (s.takeOperands .cmul) .y := by
  have := h.yRange
  simp only [VecFits, State.bases, State.lengthOf, State.takeOperands_n_of_ne s .cmul (by simp),
    State.takeOperands_yre, State.takeOperands_yim]
  exact this

/-- The vector length of a radix-2 command, or of M, is a power of two. -/
theorem lengthOf_x {i : Instr} {s s' : State} (hi : i ≠ .nop) (hs : SameOperands (s.takeOperands i) s') :
    (s'.lengthOf .x).toNat = s.len.toNat := by
  rw [hs.lengthOf]
  simp [State.lengthOf, State.takeOperands_n_of_ne s i hi]

theorem CheckPassed.mlenPow {i : Instr} {s s' : State} (h : CheckPassed i s) (hi : i ≠ .nop)
    (hb : onBluestein i s.len.toNat = true) (hs : SameOperands (s.takeOperands i) s') :
    s'.mlen.toNat = 2 ^ (paddedLength s.len.toNat).log2 := by
  rw [hs.mlen, h.mlen hi hb]
  exact paddedLength_eq_two_pow _

/-- The phases of a command that passed its check stay in the memory space (R62, R66). -/
theorem phasesOf_fit {i : Instr} {s : State} (hc : check i s = .ok) :
    ∀ p ∈ phasesOf i s, PhaseFits p (s.takeOperands i) := by
  by_cases hi : i = .nop
  · subst hi
    intro p hp
    simp [phasesOf, phasesNop] at hp
  have h := check_passed hi hc
  have hx := h.xFits hi
  have hl := lengthOf_x hi (SameOperands.refl (s.takeOperands i))
  have hpow : isPow2 s.len.toNat = true → ((s.takeOperands i).lengthOf .x).toNat = 2 ^ s.len.toNat.log2 :=
    fun hp => hl.trans (eq_two_pow_of_isPow2 h.lenPos hp)
  have hforward : isPow2 s.len.toNat = true →
      ∀ p ∈ forwardPhases .x s.len.toNat, PhaseFits p (s.takeOperands i) := by
    intro hp2 p hp
    rw [eq_two_pow_of_isPow2 h.lenPos hp2] at hp
    exact fits_forward hx (hpow hp2) p hp
  have hinverse : isPow2 s.len.toNat = true →
      ∀ p ∈ inversePhases .x s.len.toNat, PhaseFits p (s.takeOperands i) := by
    intro hp2 p hp
    rw [eq_two_pow_of_isPow2 h.lenPos hp2] at hp
    exact fits_inverse hx (hpow hp2) p hp
  have hblue : onBluestein i s.len.toNat = true →
      ∀ p ∈ bluesteinPhases (paddedLength s.len.toNat), PhaseFits p (s.takeOperands i) := by
    intro hb p hp
    rw [paddedLength_eq_two_pow] at hp
    exact fits_bluestein hx (h.scratchFits hi hb) (h.mlenPow hi hb (.refl _)) p hp
  have hblueI : onBluestein i s.len.toNat = true →
      ∀ p ∈ bluesteinInversePhases (paddedLength s.len.toNat), PhaseFits p (s.takeOperands i) := by
    intro hb p hp
    rw [paddedLength_eq_two_pow] at hp
    exact fits_bluesteinInverse hx (h.scratchFits hi hb) (h.mlenPow hi hb (.refl _)) p hp
  intro p hp
  cases i with
  | nop => exact absurd rfl hi
  | dftF =>
    simp only [phasesOf, phasesDftF] at hp
    split at hp
    · rename_i hp2
      exact hforward hp2 p hp
    · rename_i hp2
      exact hblue (by simp [onBluestein, isBlue, isDft, hp2]) p hp
  | dftI =>
    simp only [phasesOf, phasesDftI] at hp
    split at hp
    · rename_i hp2
      exact hinverse hp2 p hp
    · rename_i hp2
      exact hblueI (by simp [onBluestein, isBlue, isDft, hp2]) p hp
  | fft2F => exact hforward (h.pow2 rfl) p hp
  | fft2I => exact hinverse (h.pow2 rfl) p hp
  | blueF => exact hblue rfl p hp
  | blueI => exact hblueI rfl p hp
  | bitrev =>
    simp only [phasesOf, phasesBitrev, List.mem_singleton] at hp
    exact hp ▸ fits_bitRev hx (hpow (h.pow2 rfl))
  | stage k =>
    simp only [phasesOf, phasesStage, List.mem_singleton] at hp
    have hk := h.stageOk
    simp only [badStage, Bool.or_eq_false_iff, decide_eq_false_iff_not, Nat.not_lt] at hk
    exact hp ▸ fits_stage (by omega) hx
  | conj =>
    simp only [phasesOf, phasesConj, List.mem_singleton] at hp
    exact hp ▸ fits_conj hx
  | scale =>
    simp only [phasesOf, phasesScale, List.mem_singleton] at hp
    exact hp ▸ fits_scale hx
  | cmul =>
    simp only [phasesOf, phasesCmul, List.mem_singleton] at hp
    exact hp ▸ fits_pointMul hx hx h.yFits rfl rfl
  | chirpN =>
    simp only [phasesOf, phasesChirpN, List.mem_singleton] at hp
    exact hp ▸ fits_chirpMul _ hx
  | chirpP =>
    simp only [phasesOf, phasesChirpP, List.mem_singleton] at hp
    exact hp ▸ fits_chirpMul _ hx

/-! ### What a command answers -/

/-- The whole effect of an accepted command where every address is answered (R135, R136): its operands, its phases'
work in order, completion with OK. -/
theorem exec_ok {i : Instr} {s : State} (hc : check i s = .ok) (hh : s.holes = []) :
    exec i s =
      .next ((applyPhases Config.trig i (phasesOf i s) (s.takeOperands i)).finishCommand i .ok) := by
  rw [exec_eq, runCommand_ok Config.trig hc hh (phasesOf_ne_finish i s) (phasesOf_fit hc)]

/-- The whole effect of a command that fails its check (R134). -/
theorem exec_error {i : Instr} {s : State} (hc : check i s ≠ .ok) :
    exec i s = .next (s.finishCommand i (check i s)) := by
  rw [exec_eq, runCommand_error Config.trig hc]

/-- The state before completion of an accepted command that no host write raced with. -/
theorem exec_ok_not_raced {i : Instr} {s : State} (hc : check i s = .ok) (hh : s.holes = []) (hr : s.raced = false) :
    exec i s =
      .next
        { (applyPhases Config.trig i (phasesOf i s) (s.takeOperands i)).complete .ok with
          unseen := s.unseen ++ s.rwRegions i } := by
  have hr' : (applyPhases Config.trig i (phasesOf i s) (s.takeOperands i)).raced = false :=
    (applyPhases_status _ _ (phasesOf_ne_finish i s) _).2.2.2.1.trans (by simpa using hr)
  have hsame := (takeOperands_same s i).trans (applyPhases_same Config.trig i (phasesOf i s) (s.takeOperands i)).toSameInterface
  rw [exec_ok hc hh, State.finishCommand_of_not_raced _ _ _ hr', hsame.rwRegions,
    applyPhases_unseen _ _ (phasesOf_ne_finish i s), State.takeOperands_unseen]

/-! ### The bytes a command leaves -/

/-- The bytes of the read-write regions of a command (R66). -/
def inRw (s : State) (i : Instr) (c : Nat) : Prop := inRegions (s.rwRegions i) c = true

theorem not_inRw {s : State} {i : Instr} {c : Nat} (hi : i ≠ .nop) (hc : check i s = .ok) (h : ¬inRw s i c) :
    (c < s.xre.toNat ∨ s.xre.toNat + 4 * s.len.toNat ≤ c) ∧ (c < s.xim.toNat ∨ s.xim.toNat + 4 * s.len.toNat ≤ c) ∧
      (onBluestein i s.len.toNat = true →
        c < s.scr.toNat ∨ s.scr.toNat + 24 * paddedLength s.len.toNat ≤ c) := by
  have h' : inRegions (s.rwRegions i) c = false := by simpa [inRw] using h
  by_cases hb : onBluestein i s.len.toNat = true
  · simp [State.rwRegions, hi, hc, hb, State.xRegions, State.scratchRegion, inRegions, Region.has] at h'
    omega
  · simp [State.rwRegions, hi, hc, hb, State.xRegions, inRegions, Region.has] at h'
    exact ⟨by omega, by omega, fun hb' => absurd hb' hb⟩

theorem CheckPassed.xIn {i : Instr} {s s' : State} (h : CheckPassed i s) (hi : i ≠ .nop) (hc : check i s = .ok)
    (hs : SameOperands (s.takeOperands i) s') : VecIn (inRw s i) s' .x := by
  refine VecIn.congr hs ⟨fun c hc' => ?_, ?_⟩
  · have h1 := not_inRw hi hc hc'
    simp only [Bases.outside, State.bases, State.lengthOf, State.takeOperands_n_of_ne s i hi,
      State.takeOperands_xre, State.takeOperands_xim]
    omega
  · have h1 := h.xApart
    simp only [Bases.apart, State.bases, State.lengthOf, State.takeOperands_n_of_ne s i hi,
      State.takeOperands_xre, State.takeOperands_xim]
    omega

theorem CheckPassed.scratchIn {i : Instr} {s s' : State} (h : CheckPassed i s) (hi : i ≠ .nop)
    (hc : check i s = .ok) (hb : onBluestein i s.len.toNat = true) (hs : SameOperands (s.takeOperands i) s') :
    ScratchIn (inRw s i) s' := by
  have h1 := h.scratchClear hb
  have h2 := h.mlen hi hb
  refine ScratchIn.congr hs ⟨fun c hc' => ?_, ?_, ?_, ?_, ?_⟩
  · have h3 := (not_inRw hi hc hc').2.2 hb
    rw [h2, State.takeOperands_scr]
    exact h3
  · rw [h2, State.takeOperands_scr, State.takeOperands_xre, State.takeOperands_n_of_ne s i hi]
    exact h1.1
  · rw [h2, State.takeOperands_scr, State.takeOperands_xim, State.takeOperands_n_of_ne s i hi]
    exact h1.2
  · rw [h2, State.takeOperands_n_of_ne s i hi]
    exact le_paddedLength _
  · rw [State.takeOperands_n_of_ne s i hi]
    exact h.lenPos

theorem CheckPassed.yReadableBy {s s' : State} (h : CheckPassed .cmul s)
    (hs : SameOperands (s.takeOperands .cmul) s') : (s'.bases .y).readable (s'.bases .x) (s'.lengthOf .x).toNat := by
  have hn := State.takeOperands_n_of_ne s .cmul (by simp)
  intro a ha b hb
  simp only [State.bases, State.lengthOf, hs.xre, hs.xim, hs.yre, hs.yim, hs.n, State.takeOperands_xre,
    State.takeOperands_xim, State.takeOperands_yre, State.takeOperands_yim, hn, List.mem_cons, List.not_mem_nil,
    or_false] at ha hb ⊢
  exact h.yReadable ha hb

theorem CheckPassed.selfReadable {i : Instr} {s s' : State} (h : CheckPassed i s) (hi : i ≠ .nop)
    (hs : SameOperands (s.takeOperands i) s') : (s'.bases .x).readable (s'.bases .x) (s'.lengthOf .x).toNat := by
  have hn := State.takeOperands_n_of_ne s i hi
  have h1 := h.xApart
  intro a ha b hb
  simp only [State.bases, State.lengthOf, hs.xre, hs.xim, hs.n, State.takeOperands_xre,
    State.takeOperands_xim, hn, List.mem_cons, List.not_mem_nil, or_false] at ha hb ⊢
  rcases ha with rfl | rfl <;> rcases hb with rfl | rfl <;> omega

/-- Each phase of a command that passed its check leaves every byte outside the command's read-write regions. -/
theorem phasesOf_leave {i : Instr} {s : State} (hc : check i s = .ok) :
    ∀ p ∈ phasesOf i s, ∀ s', SameOperands (s.takeOperands i) s' → PhaseLeaves (inRw s i) p s' := by
  by_cases hi : i = .nop
  · subst hi
    intro p hp
    simp [phasesOf, phasesNop] at hp
  have h := check_passed hi hc
  intro p hp s' hs
  have hx := h.xIn hi hc hs
  have hl := lengthOf_x hi hs
  have hforward : isPow2 s.len.toNat = true → ∀ p ∈ forwardPhases .x s.len.toNat, PhaseLeaves (inRw s i) p s' := by
    intro hpow p hp
    have he := eq_two_pow_of_isPow2 h.lenPos hpow
    exact leaves_forward hx (hl.trans he) p (he ▸ hp)
  have hinverse : isPow2 s.len.toNat = true → ∀ p ∈ inversePhases .x s.len.toNat, PhaseLeaves (inRw s i) p s' := by
    intro hpow p hp
    have he := eq_two_pow_of_isPow2 h.lenPos hpow
    exact leaves_inverse hx (hl.trans he) p (he ▸ hp)
  have hblue : onBluestein i s.len.toNat = true →
      ∀ p ∈ bluesteinPhases (paddedLength s.len.toNat), PhaseLeaves (inRw s i) p s' := by
    intro hb p hp
    refine leaves_bluestein hx (h.scratchIn hi hc hb hs) (h.mlenPow hi hb hs) p ?_
    rw [← paddedLength_eq_two_pow]
    exact hp
  have hblueI : onBluestein i s.len.toNat = true →
      ∀ p ∈ bluesteinInversePhases (paddedLength s.len.toNat), PhaseLeaves (inRw s i) p s' := by
    intro hb p hp
    refine leaves_bluesteinInverse hx (h.scratchIn hi hc hb hs) (h.mlenPow hi hb hs) p ?_
    rw [← paddedLength_eq_two_pow]
    exact hp
  cases i with
  | nop => exact absurd rfl hi
  | dftF =>
    simp only [phasesOf, phasesDftF] at hp
    split at hp
    · rename_i hpow
      exact hforward hpow p hp
    · rename_i hpow
      exact hblue (by simp [onBluestein, isBlue, isDft, hpow]) p hp
  | dftI =>
    simp only [phasesOf, phasesDftI] at hp
    split at hp
    · rename_i hpow
      exact hinverse hpow p hp
    · rename_i hpow
      exact hblueI (by simp [onBluestein, isBlue, isDft, hpow]) p hp
  | fft2F => exact hforward (h.pow2 rfl) p hp
  | fft2I => exact hinverse (h.pow2 rfl) p hp
  | blueF => exact hblue rfl p hp
  | blueI => exact hblueI rfl p hp
  | bitrev =>
    simp only [phasesOf, phasesBitrev, List.mem_singleton] at hp
    exact hp ▸ leaves_bitRev hx (hl.trans (eq_two_pow_of_isPow2 h.lenPos (h.pow2 rfl)))
  | stage k =>
    simp only [phasesOf, phasesStage, List.mem_singleton] at hp
    have he := eq_two_pow_of_isPow2 h.lenPos (h.pow2 rfl)
    have hk := h.stageOk
    simp only [badStage, Bool.or_eq_false_iff, decide_eq_false_iff_not, Nat.not_lt] at hk
    refine hp ▸ leaves_stage hx (hl.trans he) (by omega) ?_
    exact (Nat.pow_le_pow_iff_right (by omega)).mp (hk.2.trans (Nat.le_of_eq he))
  | conj =>
    simp only [phasesOf, phasesConj, List.mem_singleton] at hp
    exact hp ▸ leaves_conj hx
  | scale =>
    simp only [phasesOf, phasesScale, List.mem_singleton] at hp
    exact hp ▸ leaves_scale hx
  | cmul =>
    simp only [phasesOf, phasesCmul, List.mem_singleton] at hp
    exact hp ▸ leaves_pointMul hx (h.selfReadable hi hs) (h.yReadableBy hs)
  | chirpN =>
    simp only [phasesOf, phasesChirpN, List.mem_singleton] at hp
    exact hp ▸ leaves_chirpMul _ hx
  | chirpP =>
    simp only [phasesOf, phasesChirpP, List.mem_singleton] at hp
    exact hp ▸ leaves_chirpMul _ hx

/-- The phases of a command that passed its check leave every byte outside its read-write regions (R66). -/
theorem applyPhasesOf_leaves {i : Instr} {s : State} (hc : check i s = .ok) {c : Nat}
    (h : inRegions (s.rwRegions i) c = false) :
    Memory.readByte (applyPhases Config.trig i (phasesOf i s) (s.takeOperands i)).mem c = Memory.readByte s.mem c := by
  rw [applyPhases_leaves (R := inRw s i) Config.trig i (phasesOf_leave hc) (by simp [inRw, h]), State.takeOperands_mem]

end Sys2Proof.Machine
end

