-- ==== Sys2Proof/Laws/Decode.lean ====
section
/-! SUPPORT. What the decoder and the encoder do to the fields of a word (R90, R94). -/

namespace Sys2Proof

/-- When a command without modifier and S is accepted (R92, R93). -/
theorem plainCommand_ok (m s : Nat) (i j : Instr) : plainCommand m s i = .ok j ↔ m = 0 ∧ s = 0 ∧ i = j := by
  unfold plainCommand
  by_cases hm : m = 0 <;> by_cases hs : s = 0 <;> simp [hm, hs]

/-- When a command with a modifier is accepted, and which of the two it is (R92). -/
theorem modifiedCommand_ok (m s : Nat) (i0 i1 j : Instr) :
    modifiedCommand m s i0 i1 = .ok j ↔ s = 0 ∧ ((m = 0 ∧ i0 = j) ∨ (m ≠ 0 ∧ i1 = j)) := by
  unfold modifiedCommand
  by_cases hm : m = 0 <;> by_cases hs : s = 0 <;> simp [hm, hs]

/-- A word decodes to a command exactly when its reserved fields are 0 and its OP, MD and S are the command's (R94). -/
theorem decodeWord_fields (w : Word) (i : Instr) :
    decodeWord w = .ok i ↔
      bitField 15 9 w = 0 ∧ bitField 31 21 w = 0 ∧ opField w = i.op ∧ mdField w = i.md ∧ sField w = i.s := by
  have hmd : mdField w < 2 := by unfold mdField bitField; exact Nat.mod_lt _ (by decide)
  unfold decodeWord
  by_cases h : bitField 15 9 w ≠ 0 ∨ bitField 31 21 w ≠ 0
  · rw [if_pos h]
    constructor
    · intro h'; simp at h'
    · rintro ⟨a, b, _⟩; exact absurd h (by simp [a, b])
  rw [if_neg h]
  have h1 : bitField 15 9 w = 0 := by omega
  have h2 : bitField 31 21 w = 0 := by omega
  simp only [h1, h2, true_and]
  generalize opField w = o
  generalize mdField w = m at *
  generalize sField w = s
  constructor
  · intro hd
    split at hd
    all_goals try simp only [plainCommand_ok, modifiedCommand_ok] at hd
    · obtain ⟨rfl, rfl, rfl⟩ := hd; exact ⟨rfl, rfl, rfl⟩
    · obtain ⟨rfl, ⟨rfl, rfl⟩ | ⟨hm, rfl⟩⟩ := hd
      · exact ⟨rfl, rfl, rfl⟩
      · exact ⟨rfl, by simp only [Instr.md]; omega, rfl⟩
    · obtain ⟨rfl, ⟨rfl, rfl⟩ | ⟨hm, rfl⟩⟩ := hd
      · exact ⟨rfl, rfl, rfl⟩
      · exact ⟨rfl, by simp only [Instr.md]; omega, rfl⟩
    · obtain ⟨rfl, ⟨rfl, rfl⟩ | ⟨hm, rfl⟩⟩ := hd
      · exact ⟨rfl, rfl, rfl⟩
      · exact ⟨rfl, by simp only [Instr.md]; omega, rfl⟩
    · obtain ⟨rfl, rfl, rfl⟩ := hd; exact ⟨rfl, rfl, rfl⟩
    · split at hd
      · rename_i hm
        cases hd; exact ⟨rfl, hm, rfl⟩
      · cases hd
    · obtain ⟨rfl, rfl, rfl⟩ := hd; exact ⟨rfl, rfl, rfl⟩
    · obtain ⟨rfl, rfl, rfl⟩ := hd; exact ⟨rfl, rfl, rfl⟩
    · obtain ⟨rfl, rfl, rfl⟩ := hd; exact ⟨rfl, rfl, rfl⟩
    · obtain ⟨rfl, ⟨rfl, rfl⟩ | ⟨hm, rfl⟩⟩ := hd
      · exact ⟨rfl, rfl, rfl⟩
      · exact ⟨rfl, by simp only [Instr.md]; omega, rfl⟩
    · cases hd
  · rintro ⟨rfl, rfl, rfl⟩
    cases i <;> rfl

/-- The fields of a command's word (R90). -/
theorem encode_fields (i : Instr) (h : i.WellFormed = true) :
    bitField 15 9 (encode i) = 0 ∧ bitField 31 21 (encode i) = 0 ∧ opField (encode i) = i.op ∧ mdField (encode i) = i.md ∧
      sField (encode i) = i.s := by
  cases i with
  | stage s =>
    have hs : s < 32 := by simpa [Instr.WellFormed] using h
    have ht : (encode (.stage s)).toNat = 17 + 65536 * s := by
      rw [encode, BitVec.toNat_ofNat]
      simp only [Instr.op, Instr.md, Instr.s]
      omega
    simp only [bitField, opField, mdField, sField, ht, Instr.op, Instr.md, Instr.s]
    omega
  | _ => decide

end Sys2Proof
end

