-- ==== Sys2Proof/Laws/Numerics.lean ====
section
/-! SUPPORT. The laws of the binary32 encodings and of the rounding: signs, magnitudes, NaN words, exact results. -/

namespace Sys2Proof.Machine

open Sys2Proof

/-! ### Words as sign and magnitude -/

theorem toNat_eq_sign_abs (w : Word) : w.toNat = (if sign32 w then 2 ^ 31 else 0) + abs32 w := by
  have := w.isLt
  unfold sign32 abs32
  split <;> rename_i h <;> simp only [decide_eq_true_eq] at h <;> omega

theorem abs32_lt (w : Word) : abs32 w < 2 ^ 31 := Nat.mod_lt _ (by omega)

/-- Two words of the same sign and magnitude are the same word. -/
theorem word_ext {a b : Word} (hs : sign32 a = sign32 b) (ha : abs32 a = abs32 b) : a = b := by
  apply BitVec.eq_of_toNat_eq
  rw [toNat_eq_sign_abs a, toNat_eq_sign_abs b, hs, ha]

theorem toNat_pack32 (neg : Bool) (mag : Nat) :
    (pack32 neg mag).toNat = (if neg then 2 ^ 31 else 0) + min mag inf32 := by
  have h : min mag inf32 ≤ inf32 := Nat.min_le_right _ _
  rw [pack32, BitVec.toNat_ofNat]
  generalize min mag inf32 = k at *
  unfold inf32 at h
  cases neg <;> simp <;> omega

@[simp] theorem sign32_pack32 (neg : Bool) (mag : Nat) : sign32 (pack32 neg mag) = neg := by
  have h : min mag inf32 ≤ inf32 := Nat.min_le_right _ _
  unfold sign32
  rw [toNat_pack32]
  generalize min mag inf32 = k at *
  unfold inf32 at h
  cases neg
  · simp
    omega
  · simp

@[simp] theorem abs32_pack32 (neg : Bool) (mag : Nat) : abs32 (pack32 neg mag) = min mag inf32 := by
  have h : min mag inf32 ≤ inf32 := Nat.min_le_right _ _
  unfold abs32
  rw [toNat_pack32]
  generalize min mag inf32 = k at *
  unfold inf32 at h
  cases neg <;> simp only [Bool.false_eq_true, if_true, if_false] <;> omega

/-- A packed word is never a NaN. -/
@[simp] theorem isNaN32_pack32 (neg : Bool) (mag : Nat) : isNaN32 (pack32 neg mag) = false := by
  simp [isNaN32]

/-- A word that is no NaN is packed from its own sign and magnitude. -/
theorem pack32_sign_abs {w : Word} (h : isNaN32 w = false) : pack32 (sign32 w) (abs32 w) = w := by
  have h' : abs32 w ≤ inf32 := by simpa [isNaN32] using h
  exact word_ext (by simp) (by simp [h'])

/-- A drawn NaN is a NaN word, whatever the draw (R162). -/
@[simp] theorem isNaN32_nan32 (d : Draw) : isNaN32 (nan32 d) = true := by
  have key : ∀ (s : Bool) (f : Nat), f < 8388607 →
      2139095040 < (BitVec.ofNat 32 ((if s then 2 ^ 31 else 0) + 2139095040 + 1 + f)).toNat % 2 ^ 31 := by
    intro s f hf
    rw [BitVec.toNat_ofNat]
    cases s <;> simp <;> omega
  exact decide_eq_true (key _ _ (Config.nanDraw d).2.isLt)

/-! ### neg32 (R164) -/

theorem toNat_neg32 (w : Word) : (neg32 w).toNat = if sign32 w then w.toNat - 2 ^ 31 else w.toNat + 2 ^ 31 := by
  have hw := w.isLt
  have h : ∀ n : Nat, n < 2 ^ 32 → n ^^^ 2 ^ 31 = if 2 ^ 31 ≤ n then n - 2 ^ 31 else n + 2 ^ 31 := by
    intro n hn
    by_cases hge : 2 ^ 31 ≤ n
    · obtain ⟨k, rfl⟩ := Nat.exists_eq_add_of_le hge
      have hk : k < 2 ^ 31 := by omega
      have hor := Nat.two_pow_add_eq_or_of_lt hk 1
      rw [Nat.mul_one] at hor
      rw [if_pos hge, Nat.add_sub_cancel_left, hor]
      apply Nat.eq_of_testBit_eq
      intro j
      rw [Nat.testBit_xor, Nat.testBit_or]
      by_cases hj : j = 31
      · subst hj
        rw [Nat.testBit_two_pow_self, Nat.testBit_lt_two_pow hk]
        rfl
      · rw [Nat.testBit_two_pow_of_ne (Ne.symm hj)]
        simp
    · have hlt : n < 2 ^ 31 := by omega
      have hor := Nat.two_pow_add_eq_or_of_lt hlt 1
      rw [Nat.mul_one] at hor
      rw [if_neg hge, Nat.add_comm, hor]
      apply Nat.eq_of_testBit_eq
      intro j
      rw [Nat.testBit_xor, Nat.testBit_or]
      by_cases hj : j = 31
      · subst hj
        rw [Nat.testBit_two_pow_self, Nat.testBit_lt_two_pow hlt]
        rfl
      · rw [Nat.testBit_two_pow_of_ne (Ne.symm hj)]
        simp
  rw [neg32, BitVec.toNat_xor]
  simp only [sign32, decide_eq_true_eq]
  exact h _ hw

@[simp] theorem sign32_neg32 (w : Word) : sign32 (neg32 w) = !sign32 w := by
  have hw := w.isLt
  have h := toNat_neg32 w
  unfold sign32 at *
  by_cases hs : 2 ^ 31 ≤ w.toNat
  · simp only [hs, decide_true, if_true] at h
    simp only [hs, h, decide_true, Bool.not_true, decide_eq_false_iff_not]
    omega
  · simp only [hs, decide_false, Bool.false_eq_true, if_false] at h
    simp only [hs, h, decide_false, Bool.not_false, decide_eq_true_eq]
    omega

@[simp] theorem abs32_neg32 (w : Word) : abs32 (neg32 w) = abs32 w := by
  have hw := w.isLt
  have h := toNat_neg32 w
  unfold abs32
  unfold sign32 at h
  by_cases hs : 2 ^ 31 ≤ w.toNat
  · simp only [hs, decide_true, if_true] at h
    rw [h]
    omega
  · simp only [hs, decide_false, Bool.false_eq_true, if_false] at h
    rw [h]
    omega

@[simp] theorem neg32_neg32 (w : Word) : neg32 (neg32 w) = w := word_ext (by simp) (by simp)

@[simp] theorem isNaN32_neg32 (w : Word) : isNaN32 (neg32 w) = isNaN32 w := by simp [isNaN32]

@[simp] theorem isInf32_neg32 (w : Word) : isInf32 (neg32 w) = isInf32 w := by simp [isInf32]

@[simp] theorem isZero32_neg32 (w : Word) : isZero32 (neg32 w) = isZero32 w := by simp [isZero32]

@[simp] theorem units32_neg32 (w : Word) : units32 (neg32 w) = units32 w := by simp [units32]

@[simp] theorem value32_neg32 (w : Word) : value32 (neg32 w) = -value32 w := by
  unfold value32
  cases h : sign32 w <;> simp [h]

@[simp] theorem neg32_pack32 (neg : Bool) (mag : Nat) : neg32 (pack32 neg mag) = pack32 (!neg) mag :=
  word_ext (by simp) (by simp)

/-! ### Rounding -/

/-- A value that is an integer number of units of the rounding quantum is not changed. -/
theorem roundEven_mul (q den : Nat) (h : 0 < den) : roundEven (q * den) den = q := by
  unfold roundEven
  simp only [Nat.mul_mod_left, Nat.mul_div_cancel _ h]
  split
  · rename_i hc
    omega
  · rfl

theorem roundEven_zero (den : Nat) (h : 0 < den) : roundEven 0 den = 0 := by
  simpa using roundEven_mul 0 den h

/-- The magnitude, in units of the least subnormal, of an encoding with `p` significand bits. -/
def magUnits (p e : Nat) : Nat :=
  if e / 2 ^ (p - 1) = 0 then e % 2 ^ (p - 1) else (2 ^ (p - 1) + e % 2 ^ (p - 1)) * 2 ^ (e / 2 ^ (p - 1) - 1)

theorem units32_eq_magUnits (w : Word) : units32 w = magUnits 24 (abs32 w) := rfl

/-- An exactly representable value rounds to its own encoding. -/
theorem roundMag_magUnits (p e c : Nat) (hc : 0 < c) : roundMag p (magUnits p e * c) c = e := by
  have hP : 0 < 2 ^ (p - 1) := Nat.two_pow_pos _
  have hdm := Nat.div_add_mod e (2 ^ (p - 1))
  have hlt := Nat.mod_lt e hP
  unfold roundMag roundShift
  rw [Nat.mul_div_cancel _ hc]
  unfold magUnits
  generalize e / 2 ^ (p - 1) = E at *
  generalize e % 2 ^ (p - 1) = f at *
  by_cases hE : E = 0
  · subst hE
    have hlog : f.log2 - (p - 1) = 0 := by
      by_cases hf : f = 0
      · subst hf
        simp
      · have := (Nat.log2_lt hf).mpr hlt
        omega
    simp only [if_true, hlog, Nat.pow_zero, Nat.mul_one, Nat.zero_mul, Nat.zero_add]
    rw [roundEven_mul _ _ hc]
    omega
  · have hlog : ((2 ^ (p - 1) + f) * 2 ^ (E - 1)).log2 = p - 1 + (E - 1) := by
      rw [Nat.log2_eq_iff (by positivity)]
      constructor
      · rw [Nat.pow_add]
        exact Nat.mul_le_mul_right _ (by omega)
      · rw [show p - 1 + (E - 1) + 1 = (p - 1 + 1) + (E - 1) by omega, Nat.pow_add]
        refine Nat.mul_lt_mul_of_pos_right ?_ (Nat.two_pow_pos _)
        rw [Nat.pow_succ]
        omega
    simp only [hE, if_false, hlog, Nat.add_sub_cancel_left]
    rw [Nat.mul_assoc, Nat.mul_comm (2 ^ (E - 1)) c, roundEven_mul _ _ (by positivity)]
    obtain ⟨k, rfl⟩ := Nat.exists_eq_succ_of_ne_zero hE
    rw [Nat.mul_comm, Nat.succ_mul] at hdm
    rw [Nat.succ_sub_one]
    omega

theorem roundMag_zero (p den : Nat) (h : 0 < den) : roundMag p 0 den = 0 := by
  unfold roundMag roundShift
  simp [roundEven_zero _ h]

/-! ### Rounding gives the nearest value, ties to even -/

theorem gap_zero (a : Nat) : gap a a = 0 := by simp [gap]

/-- The rounded quotient is within half a unit of the quotient, and even where it is exactly half a unit away. -/
theorem roundEven_half (num den : Nat) (h : 0 < den) :
    2 * gap (roundEven num den * den) num ≤ den ∧
      (2 * gap (roundEven num den * den) num = den → roundEven num den % 2 = 0) := by
  have h1 := Nat.div_add_mod num den
  have h2 := Nat.mod_lt num h
  unfold roundEven gap
  generalize num / den = q at *
  generalize num % den = r at *
  rw [Nat.mul_comm] at h1
  simp only
  split
  · rename_i hc
    rw [Nat.add_mul, Nat.one_mul]
    generalize q * den = x at *
    omega
  · rename_i hc
    generalize q * den = x at *
    omega

/-- No integer is nearer to the quotient than the rounded one; another as near as it means that the rounded one is
even. -/
theorem roundEven_nearest (num den : Nat) (h : 0 < den) (k : Nat) :
    gap (roundEven num den * den) num ≤ gap (k * den) num ∧
      (gap (roundEven num den * den) num = gap (k * den) num → k = roundEven num den ∨ roundEven num den % 2 = 0) := by
  obtain ⟨h1, h2⟩ := roundEven_half num den h
  generalize roundEven num den = q at *
  by_cases hk : k = q
  · subst hk
    exact ⟨Nat.le_refl _, fun _ => .inl rfl⟩
  have hfar : den ≤ gap (k * den) (q * den) := by
    unfold gap
    rcases Nat.lt_or_gt_of_ne hk with hlt | hlt
    · have : (k + 1) * den ≤ q * den := Nat.mul_le_mul_right _ hlt
      rw [Nat.add_mul, Nat.one_mul] at this
      omega
    · have : (q + 1) * den ≤ k * den := Nat.mul_le_mul_right _ hlt
      rw [Nat.add_mul, Nat.one_mul] at this
      omega
  unfold gap at *
  generalize k * den = x at *
  generalize q * den = y at *
  exact ⟨by omega, fun he => .inr (h2 (by omega))⟩

/-- The value of a significand `q` of at most `p` bits (or the carry 2^p) at the exponent shift `t`. -/
theorem magUnits_shift (p t q : Nat) (hp : 1 ≤ p) (hq : q ≤ 2 ^ p) (ht : t = 0 ∨ 2 ^ (p - 1) ≤ q) :
    magUnits p (t * 2 ^ (p - 1) + q) = q * 2 ^ t := by
  have hP : 0 < 2 ^ (p - 1) := Nat.two_pow_pos _
  have h2 : 2 ^ p = 2 * 2 ^ (p - 1) := by
    rw [← Nat.pow_succ']
    congr 1
    omega
  unfold magUnits
  rcases Nat.lt_or_ge q (2 ^ (p - 1)) with hlt | hge
  · obtain rfl : t = 0 := by omega
    simp [Nat.div_eq_of_lt hlt, Nat.mod_eq_of_lt hlt]
  · rcases Nat.lt_or_ge q (2 ^ p) with hl | hg
    · have hd : (t * 2 ^ (p - 1) + q) / 2 ^ (p - 1) = t + 1 := by
        rw [Nat.div_eq_iff hP]
        rw [Nat.add_mul]
        omega
      have hm : (t * 2 ^ (p - 1) + q) % 2 ^ (p - 1) = q - 2 ^ (p - 1) := by
        have := Nat.div_add_mod (t * 2 ^ (p - 1) + q) (2 ^ (p - 1))
        rw [hd, Nat.mul_comm, Nat.add_mul] at this
        omega
      rw [hd, hm, if_neg (by omega)]
      congr 1
      omega
    · obtain rfl : q = 2 ^ p := by omega
      have hd : (t * 2 ^ (p - 1) + 2 ^ p) / 2 ^ (p - 1) = t + 2 := by
        rw [h2, ← Nat.add_mul, Nat.mul_div_cancel _ hP]
      have hm : (t * 2 ^ (p - 1) + 2 ^ p) % 2 ^ (p - 1) = 0 := by
        rw [h2, ← Nat.add_mul, Nat.mul_mod_left]
      rw [hd, hm, if_neg (by omega), h2, Nat.add_zero, show t + 2 - 1 = t + 1 by omega, Nat.pow_succ]
      ring

/-- A value of `p` significand bits is a multiple of 2^t, or less than the least normal value of shift t. -/
theorem magUnits_multiple (p t e : Nat) : (∃ k, magUnits p e = k * 2 ^ t) ∨ magUnits p e < 2 ^ (p - 1) * 2 ^ t := by
  have hP : 0 < 2 ^ (p - 1) := Nat.two_pow_pos _
  have hlt := Nat.mod_lt e hP
  unfold magUnits
  generalize e / 2 ^ (p - 1) = E at *
  generalize e % 2 ^ (p - 1) = f at *
  by_cases hE : E = 0
  · rw [if_pos hE]
    right
    exact Nat.lt_of_lt_of_le hlt (Nat.le_mul_of_pos_right _ (Nat.two_pow_pos t))
  · rw [if_neg hE]
    rcases Nat.lt_or_ge (E - 1) t with hl | hg
    · right
      obtain ⟨r, rfl⟩ : ∃ r, t = (E - 1) + 1 + r := ⟨t - E, by omega⟩
      rw [Nat.pow_add, Nat.pow_succ, ← Nat.mul_assoc, ← Nat.mul_assoc]
      refine Nat.lt_of_lt_of_le ?_ (Nat.le_mul_of_pos_right _ (Nat.two_pow_pos r))
      rw [Nat.mul_assoc, Nat.mul_comm (2 ^ (E - 1)) 2, ← Nat.mul_assoc]
      exact Nat.mul_lt_mul_of_pos_right (by omega) (Nat.two_pow_pos _)
    · left
      obtain ⟨r, hr⟩ : ∃ r, E - 1 = r + t := ⟨E - 1 - t, by omega⟩
      exact ⟨(2 ^ (p - 1) + f) * 2 ^ r, by rw [hr, Nat.pow_add, Nat.mul_assoc]⟩

/-- The significand that rounding gives, with its shift. -/
theorem roundMag_significand (p num den : Nat) (hp : 1 ≤ p) (hd : 0 < den) :
    let t := roundShift p num den
    let q := roundEven num (den * 2 ^ t)
    magUnits p (roundMag p num den) = q * 2 ^ t ∧ (t = 0 ∨ 2 ^ (p - 1) * (den * 2 ^ t) ≤ num) := by
  intro t q
  have hD : 0 < den * 2 ^ t := Nat.mul_pos hd (Nat.two_pow_pos t)
  obtain ⟨h1, -⟩ := roundEven_half num (den * 2 ^ t) hD
  change 2 * gap (q * (den * 2 ^ t)) num ≤ den * 2 ^ t at h1
  have hlow : t = 0 ∨ 2 ^ (p - 1) * (den * 2 ^ t) ≤ num := by
    by_cases ht : t = 0
    · exact .inl ht
    · right
      have htd : t = (num / den).log2 - (p - 1) := rfl
      have hq0 : num / den ≠ 0 := by
        intro h0
        rw [h0] at htd
        simp at htd
        exact ht htd
      have := Nat.log2_self_le hq0
      rw [show (num / den).log2 = p - 1 + t by omega, Nat.pow_add] at this
      calc 2 ^ (p - 1) * (den * 2 ^ t) = (2 ^ (p - 1) * 2 ^ t) * den := by ring
        _ ≤ num / den * den := Nat.mul_le_mul_right _ this
        _ ≤ num := Nat.div_mul_le_self _ _
  have hup : num < 2 ^ p * (den * 2 ^ t) := by
    have h2 : num / den < 2 ^ (p + t) := by
      refine Nat.lt_of_lt_of_le Nat.lt_log2_self (Nat.pow_le_pow_right (by omega) ?_)
      have htd : t = (num / den).log2 - (p - 1) := rfl
      omega
    have h3 := (Nat.div_lt_iff_lt_mul hd).mp h2
    calc num < 2 ^ (p + t) * den := h3
      _ = 2 ^ p * (den * 2 ^ t) := by rw [Nat.pow_add]; ring
  refine ⟨?_, hlow⟩
  have hqle : q ≤ 2 ^ p := by
    by_contra hc
    have h4 : (2 ^ p + 1) * (den * 2 ^ t) ≤ q * (den * 2 ^ t) := Nat.mul_le_mul_right _ (by omega)
    rw [Nat.add_mul, Nat.one_mul] at h4
    unfold gap at h1
    omega
  have hqge : t = 0 ∨ 2 ^ (p - 1) ≤ q := by
    rcases hlow with h0 | h0
    · exact .inl h0
    · right
      by_contra hc
      have h4 : (q + 1) * (den * 2 ^ t) ≤ 2 ^ (p - 1) * (den * 2 ^ t) := Nat.mul_le_mul_right _ (by omega)
      rw [Nat.add_mul, Nat.one_mul] at h4
      unfold gap at h1
      omega
  exact magUnits_shift p t q hp hqle hqge

/-- Rounding gives a value that no representable value is nearer than, and one of even encoding on a tie (R160, R161,
R163, R166, R167). -/
theorem roundMag_nearest (p num den : Nat) (hp : 2 ≤ p) (hd : 0 < den) (e : Nat) :
    gap (magUnits p (roundMag p num den) * den) num ≤ gap (magUnits p e * den) num ∧
      (gap (magUnits p (roundMag p num den) * den) num = gap (magUnits p e * den) num →
        magUnits p e = magUnits p (roundMag p num den) ∨ roundMag p num den % 2 = 0) := by
  obtain ⟨hval, hlow⟩ := roundMag_significand p num den (by omega) hd
  have hdef : roundMag p num den =
      roundShift p num den * 2 ^ (p - 1) + roundEven num (den * 2 ^ roundShift p num den) := rfl
  have heven : roundMag p num den % 2 = roundEven num (den * 2 ^ roundShift p num den) % 2 := by
    obtain ⟨r, hr⟩ : ∃ r, p - 1 = r + 1 := ⟨p - 2, by omega⟩
    rw [hdef, hr, Nat.pow_succ, ← Nat.mul_assoc]
    omega
  rw [hval, heven]
  generalize roundShift p num den = t at *
  have hD : 0 < den * 2 ^ t := Nat.mul_pos hd (Nat.two_pow_pos t)
  have hassoc : ∀ k, k * 2 ^ t * den = k * (den * 2 ^ t) := fun k => by ring
  rcases magUnits_multiple p t e with ⟨k, hk⟩ | hk
  · rw [hk, hassoc, hassoc]
    obtain ⟨h1, h2⟩ := roundEven_nearest num (den * 2 ^ t) hD k
    exact ⟨h1, fun h => (h2 h).imp (fun h' => by rw [h']) id⟩
  · obtain ⟨h1, -⟩ := roundEven_nearest num (den * 2 ^ t) hD (2 ^ (p - 1))
    rw [hassoc]
    have hlt : magUnits p e * den < 2 ^ (p - 1) * (den * 2 ^ t) := by
      rw [← hassoc]
      exact Nat.mul_lt_mul_of_pos_right hk hd
    rcases hlow with h0 | h0
    · subst h0
      obtain ⟨h3, h4⟩ := roundEven_nearest num (den * 2 ^ 0) hD (magUnits p e)
      simp only [Nat.pow_zero, Nat.mul_one] at *
      exact ⟨h3, fun h => (h4 h)⟩
    · unfold gap at *
      generalize magUnits p e * den = x at *
      generalize 2 ^ (p - 1) * (den * 2 ^ t) = y at *
      generalize roundEven num (den * 2 ^ t) * (den * 2 ^ t) = z at *
      omega

/-- Encodings are in the order of their values. -/
theorem magUnits_lt_succ (p e : Nat) : magUnits p e < magUnits p (e + 1) := by
  have hP : 0 < 2 ^ (p - 1) := Nat.two_pow_pos _
  have hdm := Nat.div_add_mod e (2 ^ (p - 1))
  have hlt := Nat.mod_lt e hP
  rw [Nat.mul_comm] at hdm
  rcases Nat.lt_or_ge (e % 2 ^ (p - 1) + 1) (2 ^ (p - 1)) with hc | hc
  · have hd : (e + 1) / 2 ^ (p - 1) = e / 2 ^ (p - 1) := by
      rw [Nat.div_eq_iff hP]
      omega
    have hm : (e + 1) % 2 ^ (p - 1) = e % 2 ^ (p - 1) + 1 := by
      have := Nat.div_add_mod (e + 1) (2 ^ (p - 1))
      rw [hd, Nat.mul_comm] at this
      omega
    unfold magUnits
    rw [hd, hm]
    split
    · omega
    · exact Nat.mul_lt_mul_of_pos_right (by omega) (Nat.two_pow_pos _)
  · have hd : (e + 1) / 2 ^ (p - 1) = e / 2 ^ (p - 1) + 1 := by
      rw [Nat.div_eq_iff hP, Nat.add_mul]
      omega
    have hm : (e + 1) % 2 ^ (p - 1) = 0 := by
      have := Nat.div_add_mod (e + 1) (2 ^ (p - 1))
      rw [hd, Nat.mul_comm, Nat.add_mul] at this
      omega
    unfold magUnits
    rw [hd, hm, if_neg (Nat.succ_ne_zero _)]
    split
    · rename_i h0
      simp only [h0, Nat.zero_add, Nat.sub_self, Nat.pow_zero, Nat.mul_one]
      omega
    · rename_i h0
      obtain ⟨r, hr⟩ := Nat.exists_eq_succ_of_ne_zero h0
      rw [hr, Nat.succ_sub_one, Nat.add_sub_cancel, Nat.pow_succ, Nat.mul_comm _ 2, ← Nat.mul_assoc]
      exact Nat.mul_lt_mul_of_pos_right (by omega) (Nat.two_pow_pos _)

theorem magUnits_strictMono (p : Nat) : StrictMono (magUnits p) := strictMono_nat_of_lt_succ (magUnits_lt_succ p)

/-- The rounded magnitude is the infinity's encoding or more exactly when the value reaches the midpoint between the
largest finite value and the value that would follow it (R160). -/
theorem roundMag_overflow (p num den e : Nat) (hp : 2 ≤ p) (hd : 0 < den) (he : e % 2 = 1) :
    e + 1 ≤ roundMag p num den ↔ (magUnits p e + magUnits p (e + 1)) * den ≤ 2 * num := by
  have hmono := magUnits_strictMono p
  have hn1 := roundMag_nearest p num den hp hd (e + 1)
  have hn0 := roundMag_nearest p num den hp hd e
  have hs := magUnits_lt_succ p e
  rw [Nat.add_mul]
  generalize roundMag p num den = r at *
  have hsd := Nat.mul_lt_mul_of_pos_right hs hd
  constructor
  · intro hr
    have h1 : magUnits p (e + 1) ≤ magUnits p r := hmono.monotone hr
    have h2 := Nat.mul_le_mul_right den h1
    have h3 := hn0.1
    unfold gap at h3
    omega
  · intro hnum
    by_contra hr
    have h1 : magUnits p r ≤ magUnits p e := hmono.monotone (by omega)
    have h2 := Nat.mul_le_mul_right den h1
    have h3 := hn1.1
    have h4 := hn1.2
    unfold gap at h3 h4
    have heq : magUnits p r * den = magUnits p e * den := by omega
    have her : magUnits p r = magUnits p e := Nat.eq_of_mul_eq_mul_right hd heq
    have hre : r = e := hmono.injective her
    subst hre
    rcases h4 (by omega) with h5 | h5
    · omega
    · omega

/-! ### The rounded word -/

theorem lsb_of_even (r : Word) (h : abs32 r % 2 = 0) : r.getLsbD 0 = false := by
  have h1 := toNat_eq_sign_abs r
  have h2 : r.toNat % 2 = 0 := by
    rw [h1]
    split <;> omega
  rw [BitVec.getLsbD, Nat.testBit_zero]
  simp [h2]

theorem double_mul_le_iff {a c den num : Nat} (h : a = 2 * c) : a * den ≤ 2 * num ↔ c * den ≤ num := by
  rw [h, Nat.mul_assoc]
  omega

/-- Packing a rounded magnitude gives the correctly rounded binary32 (R160, R161, R163, R167). -/
theorem rounds32_pack32 (neg : Bool) (num den : Nat) (hd : 0 < den) :
    Rounds32 neg num den (pack32 neg (roundMag 24 num den)) := by
  have hi : inf32 = 2139095039 + 1 := rfl
  have hov := roundMag_overflow 24 num den 2139095039 (by omega) hd (by omega)
  have hm1 : magUnits 24 2139095039 = 2 ^ 277 - 2 ^ 253 := by decide +kernel
  have hm2 : magUnits 24 (2139095039 + 1) = 2 ^ 277 := by decide +kernel
  rw [hm1, hm2] at hov
  have hinf : isInf32 (pack32 neg (roundMag 24 num den)) = true ↔ inf32 ≤ roundMag 24 num den := by
    simp only [isInf32, abs32_pack32, decide_eq_true_eq]
    omega
  refine ⟨by simp, by simp, ?_, ?_⟩
  · exact hinf.trans (hov.trans (double_mul_le_iff (by decide +kernel)))
  · intro hf w hw1 hw2
    have hlt : roundMag 24 num den < inf32 := by
      rw [← Nat.not_le, ← hinf]
      simp [hf]
    have habs : abs32 (pack32 neg (roundMag 24 num den)) = roundMag 24 num den := by
      rw [abs32_pack32]
      omega
    obtain ⟨h1, h2⟩ := roundMag_nearest 24 num den (by omega) hd (abs32 w)
    rw [units32_eq_magUnits, units32_eq_magUnits, habs]
    exact ⟨h1, fun h => (h2 h).imp id fun he => lsb_of_even _ (by rw [habs]; exact he)⟩

theorem toNat_pack64 (neg : Bool) (mag : Nat) :
    (pack64 neg mag).toNat = (if neg then 2 ^ 63 else 0) + min mag inf64 := by
  have h : min mag inf64 ≤ inf64 := Nat.min_le_right _ _
  have hi : inf64 = 9218868437227405312 := rfl
  rw [pack64, BitVec.toNat_ofNat]
  generalize min mag inf64 = k at *
  cases neg
  · simp
    omega
  · simp
    omega

@[simp] theorem sign64_pack64 (neg : Bool) (mag : Nat) : sign64 (pack64 neg mag) = neg := by
  have h : min mag inf64 ≤ inf64 := Nat.min_le_right _ _
  have hi : inf64 = 9218868437227405312 := rfl
  unfold sign64
  rw [toNat_pack64]
  generalize min mag inf64 = k at *
  cases neg
  · simp
    omega
  · simp

@[simp] theorem abs64_pack64 (neg : Bool) (mag : Nat) : abs64 (pack64 neg mag) = min mag inf64 := by
  have h : min mag inf64 ≤ inf64 := Nat.min_le_right _ _
  have hi : inf64 = 9218868437227405312 := rfl
  unfold abs64
  rw [toNat_pack64]
  generalize min mag inf64 = k at *
  cases neg <;> simp <;> omega

@[simp] theorem isNaN64_pack64 (neg : Bool) (mag : Nat) : isNaN64 (pack64 neg mag) = false := by
  simp [isNaN64]

theorem units64_eq_magUnits (x : DWord) : units64 x = magUnits 53 (abs64 x) := rfl

theorem toNat_eq_sign_abs64 (x : DWord) : x.toNat = (if sign64 x then 2 ^ 63 else 0) + abs64 x := by
  have := x.isLt
  unfold sign64 abs64
  split
  · rename_i h
    simp only [decide_eq_true_eq] at h
    omega
  · rename_i h
    simp only [decide_eq_true_eq] at h
    omega

theorem lsb64_of_even (r : DWord) (h : abs64 r % 2 = 0) : r.getLsbD 0 = false := by
  have h1 := toNat_eq_sign_abs64 r
  have h2 : r.toNat % 2 = 0 := by
    rw [h1]
    split <;> omega
  rw [BitVec.getLsbD, Nat.testBit_zero]
  simp [h2]

/-- Packing a rounded magnitude gives the correctly rounded binary64 (R165, R166). -/
theorem rounds64_pack64 (neg : Bool) (num den : Nat) (hd : 0 < den) :
    Rounds64 neg num den (pack64 neg (roundMag 53 num den)) := by
  have hi : inf64 = 9218868437227405311 + 1 := rfl
  have hov := roundMag_overflow 53 num den 9218868437227405311 (by omega) hd (by omega)
  have hm1 : magUnits 53 9218868437227405311 = 2 ^ 2098 - 2 ^ 2045 := by decide +kernel
  have hm2 : magUnits 53 (9218868437227405311 + 1) = 2 ^ 2098 := by decide +kernel
  rw [hm1, hm2] at hov
  have hinf : isInf64 (pack64 neg (roundMag 53 num den)) = true ↔ inf64 ≤ roundMag 53 num den := by
    simp only [isInf64, abs64_pack64, decide_eq_true_eq]
    omega
  refine ⟨by simp, by simp, ?_, ?_⟩
  · exact hinf.trans (hov.trans (double_mul_le_iff (by decide +kernel)))
  · intro hf w hw1 hw2
    have hlt : roundMag 53 num den < inf64 := by
      rw [← Nat.not_le, ← hinf]
      simp [hf]
    have habs : abs64 (pack64 neg (roundMag 53 num den)) = roundMag 53 num den := by
      rw [abs64_pack64]
      omega
    obtain ⟨h1, h2⟩ := roundMag_nearest 53 num den (by omega) hd (abs64 w)
    rw [units64_eq_magUnits, units64_eq_magUnits, habs]
    exact ⟨h1, fun h => (h2 h).imp id fun he => lsb64_of_even _ (by rw [habs]; exact he)⟩

/-! ### Scaling both sides of a quotient -/

theorem roundEven_scale (num den c : Nat) (hc : 0 < c) : roundEven (num * c) (den * c) = roundEven num den := by
  unfold roundEven
  rw [Nat.mul_div_mul_right _ _ hc, Nat.mul_mod_mul_right]
  have h1 : den * c < 2 * (num % den * c) ↔ den < 2 * (num % den) := by
    rw [← Nat.mul_assoc]
    exact Nat.mul_lt_mul_right hc
  have h2 : 2 * (num % den * c) = den * c ↔ 2 * (num % den) = den := by
    rw [← Nat.mul_assoc]
    exact Nat.mul_left_inj (by omega)
  simp only [h1, h2]

/-- Rounding looks at the quotient only. -/
theorem roundMag_scale (p num den c : Nat) (hc : 0 < c) : roundMag p (num * c) (den * c) = roundMag p num den := by
  unfold roundMag roundShift
  simp only [Nat.mul_div_mul_right _ _ hc]
  rw [Nat.mul_right_comm, roundEven_scale _ _ _ hc]

/-! ### Where a result is no NaN, the draw does not matter (R162) -/

theorem add32_draw {d : Draw} {a b : Word} (d' : Draw) (h : isNaN32 (add32 d a b) = false) :
    add32 d' a b = add32 d a b := by
  unfold add32 at *
  split_ifs at * <;> simp_all

theorem sub32_draw {d : Draw} {a b : Word} (d' : Draw) (h : isNaN32 (sub32 d a b) = false) :
    sub32 d' a b = sub32 d a b := add32_draw d' h

theorem mul32_draw {d : Draw} {a b : Word} (d' : Draw) (h : isNaN32 (mul32 d a b) = false) :
    mul32 d' a b = mul32 d a b := by
  unfold mul32 at *
  split_ifs at * <;> simp_all

theorem rn32_draw {d : Draw} {x : DWord} (d' : Draw) (h : isNaN32 (rn32 d x) = false) : rn32 d' x = rn32 d x := by
  unfold rn32 at *
  by_cases hn : isNaN64 x = true
  · rw [if_pos hn, isNaN32_nan32] at h
    exact absurd h (by simp)
  · rw [if_neg hn, if_neg hn]

/-- A NaN operand makes a NaN sum (R162). -/
theorem isNaN32_add32_of_nan {d : Draw} {a b : Word} (h : isNaN32 a = true ∨ isNaN32 b = true) :
    isNaN32 (add32 d a b) = true := by
  have h' : (isNaN32 a || isNaN32 b) = true := by simpa using h
  unfold add32
  rw [if_pos h']
  exact isNaN32_nan32 d

theorem isNaN32_sub32_of_nan {d : Draw} {a b : Word} (h : isNaN32 a = true ∨ isNaN32 b = true) :
    isNaN32 (sub32 d a b) = true := isNaN32_add32_of_nan (by simpa using h)

/-- A NaN operand makes a NaN product (R162). -/
theorem isNaN32_mul32_of_nan {d : Draw} {a b : Word} (h : isNaN32 a = true ∨ isNaN32 b = true) :
    isNaN32 (mul32 d a b) = true := by
  have h' : (isNaN32 a || isNaN32 b) = true := by simpa using h
  unfold mul32
  simp only [h', if_true]
  exact isNaN32_nan32 d

theorem add32_comm (d : Draw) (a b : Word) : add32 d a b = add32 d b a := by
  unfold add32
  rw [Bool.or_comm (isNaN32 a), Int.add_comm (value32 a), Bool.and_comm (sign32 a)]
  by_cases hn : (isNaN32 b || isNaN32 a) = true
  · rw [if_pos hn, if_pos hn]
  rw [if_neg hn, if_neg hn]
  by_cases ha : isInf32 a = true <;> by_cases hb : isInf32 b = true
  · simp only [ha, hb, if_true, Bool.true_and]
    cases hs : sign32 a <;> cases hs' : sign32 b <;> simp
    all_goals
      have h1 : abs32 a = inf32 := by simpa [isInf32] using ha
      have h2 : abs32 b = inf32 := by simpa [isInf32] using hb
      exact word_ext (hs.trans hs'.symm) (h1.trans h2.symm)
  · simp [ha, hb]
  · simp [ha, hb]
  · simp only [ha, hb, if_false, Bool.false_eq_true]

theorem mul32_comm (d : Draw) (a b : Word) : mul32 d a b = mul32 d b a := by
  have hs : (sign32 a != sign32 b) = (sign32 b != sign32 a) := by
    cases sign32 a <;> cases sign32 b <;> rfl
  unfold mul32
  simp only [Bool.or_comm (isNaN32 a), Bool.or_comm (isInf32 a), Bool.or_comm (isZero32 a),
    Nat.mul_comm (units32 a), hs]

end Sys2Proof.Machine
end

