-- ==== Sys2Proof/Laws/PerInstr.lean ====
section
/-! SUPPORT. Statements about every command, one lemma per constructor: the fields of its word (R90, R91). -/

namespace Sys2Proof.Laws.EncodedFields

open Sys2Proof

/-- The word of a well-formed command has its reserved fields 0 and holds the command's OP, MD and S (R90, R91). -/
def Statement (i : Instr) : Prop :=
  i.WellFormed = true →
    bitField 15 9 (encode i) = 0 ∧ bitField 31 21 (encode i) = 0 ∧ opField (encode i) = i.op ∧
      mdField (encode i) = i.md ∧ sField (encode i) = i.s

theorem nop : Statement .nop := encode_fields .nop

theorem dftF : Statement .dftF := encode_fields .dftF

theorem dftI : Statement .dftI := encode_fields .dftI

theorem fft2F : Statement .fft2F := encode_fields .fft2F

theorem fft2I : Statement .fft2I := encode_fields .fft2I

theorem blueF : Statement .blueF := encode_fields .blueF

theorem blueI : Statement .blueI := encode_fields .blueI

theorem bitrev : Statement .bitrev := encode_fields .bitrev

theorem stage (s : Nat) : Statement (.stage s) := encode_fields (.stage s)

theorem conj : Statement .conj := encode_fields .conj

theorem scale : Statement .scale := encode_fields .scale

theorem cmul : Statement .cmul := encode_fields .cmul

theorem chirpN : Statement .chirpN := encode_fields .chirpN

theorem chirpP : Statement .chirpP := encode_fields .chirpP

end Sys2Proof.Laws.EncodedFields
end

