-- ==== Sys2Proof/Laws/Step.lean ====
section
/-! SUPPORT. What a step can do, said once: the inversion of step, of the unit's run and of the host's accesses. -/

namespace Sys2Proof.Machine

open Sys2Proof

/-- A read of STATUS that returns DONE = 1 gives the host STATUS and leaves no result unseen (R71, R122). -/
theorem hostReadRegister_status {s : State} (h : s.done = true) :
    s.hostReadRegister 0x0C 4 = { s with hostData := bytesOfWord s.statusWord, unseen := [] } := by
  simp [State.hostReadRegister, State.seesDone, registerAccess, State.readRegister, h]

/-- What a step that answers a next state did (R120): the unit ran because no event was due, a `wait` saw DONE, or the
first event was handled. -/
theorem step_cases {s t : State} (h : step s = .next t) :
    (s.inputs = [] ∧ unitRun s = .next t) ∨
    (∃ rest, s.inputs = .wait :: rest ∧ s.done = false ∧ unitRun s = .next t) ∨
    (∃ rest, s.inputs = .wait :: rest ∧ s.done = true ∧
      t = { s with inputs := rest, hostData := bytesOfWord s.statusWord, unseen := [] }) ∨
    (∃ e rest, s.inputs = e :: rest ∧ e ≠ .wait ∧ State.handle { s with inputs := rest } e = .next t) := by
  unfold step machineStep at h
  split at h
  · exact .inl ⟨by assumption, h⟩
  · rename_i rest hin
    split at h
    · rename_i hd
      simp only [State.handle, Host.Outcome.next.injEq] at h
      exact .inr (.inr (.inl ⟨rest, hin, hd, h ▸ hostReadRegister_status hd⟩))
    · rename_i hd
      exact .inr (.inl ⟨rest, hin, by simpa using hd, h⟩)
  · rename_i e rest hne hin
    exact .inr (.inr (.inr ⟨e, rest, hin, hne, h⟩))

/-- What the unit's run did: nothing while Idle (R304) or stuck (R68), the report of an illegal word (R281), a command from its Check
phase, or the phases of a command from the one it is in. -/
theorem unitRun_cases {s t : State} (h : unitRun s = .next t) :
    ((s.ph = .idle ∨ ∃ p rest, s.ph = .stuck p rest) ∧ t = s) ∨
    (∃ p rest e, s.ph = .run p rest ∧ decodeWord s.cmd = .error e ∧ t = s.complete .illegalCmd) ∨
    (∃ rest i, s.ph = .run .check rest ∧ decodeWord s.cmd = .ok i ∧ exec i s = .next t) ∨
    (∃ p rest i, s.ph = .run p rest ∧ p ≠ .check ∧ decodeWord s.cmd = .ok i ∧
      t = runPhases Config.trig i (p :: rest) s) := by
  unfold unitRun at h
  split at h
  · rename_i hp
    exact .inl ⟨.inl hp, by simpa using h.symm⟩
  · rename_i p rest hp
    exact .inl ⟨.inr ⟨p, rest, hp⟩, by simpa using h.symm⟩
  · rename_i p rest hp
    split at h
    · rename_i e hd
      exact .inr (.inl ⟨p, rest, e, hp, hd, by simpa [State.completeIllegal] using h.symm⟩)
    · rename_i i hd
      split at h
      · rename_i hc
        subst hc
        exact .inr (.inr (.inl ⟨rest, i, hp, hd, h⟩))
      · rename_i hc
        exact .inr (.inr (.inr ⟨p, rest, i, hp, hc, hd, by simpa using h.symm⟩))

/-- What one unit step does (R68, R120, R131, R304). -/
theorem unitStep_cases (tr : Config.Trig) (s : State) :
    ((s.ph = .idle ∨ ∃ p rest, s.ph = .stuck p rest) ∧ unitStep tr s = s) ∨
    (∃ p rest e, s.ph = .run p rest ∧ decodeWord s.cmd = .error e ∧ unitStep tr s = s.complete .illegalCmd) ∨
    (∃ rest i, s.ph = .run .check rest ∧ decodeWord s.cmd = .ok i ∧
      unitStep tr s = beginCommand i (phasesOf i s) s) ∨
    (∃ p rest i, s.ph = .run p rest ∧ p ≠ .check ∧ decodeWord s.cmd = .ok i ∧
      unitStep tr s = if phaseAdmitted p s then advance tr i p rest s else stopPhase tr i p rest s) := by
  unfold unitStep
  split
  · rename_i hp
    exact .inl ⟨.inl hp, rfl⟩
  · rename_i p rest hp
    exact .inl ⟨.inr ⟨p, rest, hp⟩, rfl⟩
  · rename_i p rest hp
    split
    · rename_i e hd
      exact .inr (.inl ⟨p, rest, e, hp, hd, rfl⟩)
    · rename_i i hd
      split
      · rename_i hc
        subst hc
        exact .inr (.inr (.inl ⟨rest, i, hp, hd, rfl⟩))
      · rename_i hc
        exact .inr (.inr (.inr ⟨p, rest, i, hp, hc, hd, rfl⟩))

/-- What a host read changes: the host's data, what the host has not seen (R71), and the draw counter for a memory
read. -/
theorem hostRead_cases {s t : State} {g : Target} {len : Nat} (h : s.hostRead g len = .next t) :
    t = { s with hostData := t.hostData, unseen := t.unseen, draws := t.draws } := by
  unfold State.hostRead at h
  split at h
  · simp only [Host.Outcome.next.injEq] at h
    rw [← h]
    rfl
  all_goals
    unfold State.hostReadMemory at h
    split at h
    · simp only [Host.Outcome.next.injEq] at h
      rw [← h]
    · simp at h

/-- What a host write changes: a register access changes the registers, a memory access the memory, the race mark and
the draw counter. -/
theorem hostWrite_cases {s t : State} {g : Target} {bytes : List Byte} (h : s.hostWrite g bytes = .next t) :
    (∃ off : Byte, t = s.hostWriteRegister off.toNat bytes) ∨
    (∃ a, s.answers ⟨a, bytes.length, true⟩ = true ∧
      t = { s with
        mem := hostStore (s.runningRw ++ s.runningRo) [s.draws, 5] s.mem a bytes
        raced := s.raced || touches (s.runningRw ++ s.runningRo) a bytes.length
        draws := s.draws + 1 }) := by
  unfold State.hostWrite at h
  split at h
  · rename_i off _
    simp only [Host.Outcome.next.injEq] at h
    exact .inl ⟨off, h.symm⟩
  all_goals
    rename_i a _
    unfold State.hostWriteMemory at h
    split at h
    · rename_i ha
      simp only [Host.Outcome.next.injEq] at h
      exact .inr ⟨a, ha, h.symm⟩
    · simp at h

/-- What a register write of the host can be (R121 to R130): nothing, a dropped write, a launch, an acknowledgement, a
write of IRQEN, or a configuration register. -/
theorem hostWriteRegister_cases (s : State) (off : Nat) (bytes : List Byte) :
    s.hostWriteRegister off bytes = s ∨ (s.busy = true ∧ s.hostWriteRegister off bytes = s.dropWrite) ∨
    (s.busy = false ∧ ∃ c, s.hostWriteRegister off bytes = s.launch c) ∨
    (∃ v, s.hostWriteRegister off bytes = s.acknowledge v) ∨
    (∃ v, s.hostWriteRegister off bytes = s.writeIrqen v) ∨
    (s.busy = false ∧ ∃ len xre xim yre yim scr scrsz, s.hostWriteRegister off bytes =
      { s with len := len, xre := xre, xim := xim, yre := yre, yim := yim, scr := scr, scrsz := scrsz }) := by
  unfold State.hostWriteRegister
  split
  · rename_i b0 b1 b2 b3
    split
    · generalize wordOfBytes b0 b1 b2 b3 = v
      unfold State.writeRegister
      split
      · rename_i hb
        simp only [Bool.and_eq_true] at hb
        exact .inr (.inl ⟨hb.1, rfl⟩)
      · rename_i hb
        have hidle : busyGuarded off = true → s.busy = false := by
          intro hg
          cases hs : s.busy
          · rfl
          · exact absurd (by simp [hs, hg]) hb
        unfold State.storeRegister
        split
        · exact .inr (.inr (.inl ⟨hidle (by decide), v, rfl⟩))
        · exact .inr (.inr (.inr (.inl ⟨v, rfl⟩)))
        · exact .inr (.inr (.inr (.inr (.inl ⟨v, rfl⟩))))
        all_goals first
          | exact .inr (.inr (.inr (.inr (.inr ⟨hidle (by decide), _, _, _, _, _, _, _, rfl⟩))))
          | exact .inl rfl
    · exact .inl rfl
  · exact .inl rfl

/-! ### The sequencer inside a command -/

/-- In a phase of a command the length registers already hold that command's operands (R132). -/
theorem State.InPhase.operands {s : State} {p : Phase} {rest : List Phase} {i : Instr} (h : s.InPhase p rest i) :
    SameOperands (s.takeOperands i) s := by
  by_cases hi : i = .nop
  · subst hi
    exact .refl s
  · refine ⟨?_, ?_, ?_⟩
    · constructor <;> simp
    · rw [State.takeOperands_n_of_ne s i hi, h.length hi]
    · by_cases hb : onBluestein i s.len.toNat = true
      · apply BitVec.eq_of_toNat_eq
        rw [h.padded hb, (check_passed hi h.checked).mlen hi hb]
      · simp [State.takeOperands, hi, hb]

/-- The phase a command is in is one of its own, or Finish, after which nothing follows (R40). -/
theorem State.InPhase.phase {s : State} {p : Phase} {rest : List Phase} {i : Instr} (h : s.InPhase p rest i) :
    (p = .finish ∧ rest = []) ∨ (p ≠ .finish ∧ rest ≠ [] ∧ p ∈ phasesOf i s) := by
  obtain ⟨pre, hpre⟩ := h.order
  have hne := phasesOf_ne_finish i s
  rcases List.eq_nil_or_concat rest with rfl | ⟨init, last, rfl⟩
  · left
    have := congrArg List.getLast? hpre
    simp at this
    exact ⟨this, rfl⟩
  · right
    rw [List.concat_eq_append, ← List.cons_append, ← List.append_assoc] at hpre
    obtain ⟨h1, -⟩ := List.append_inj' hpre rfl
    have hp : p ∈ phasesOf i s := by
      rw [← h1]
      simp
    exact ⟨hne p hp, by simp, hp⟩

/-- A phase of a command leaves every byte outside the command's read-write regions (R66). -/
theorem State.InPhase.leaves {s : State} {p : Phase} {rest : List Phase} {i : Instr} (h : s.InPhase p rest i)
    (t : Config.Trig) {c : Nat} (hc : inRegions (s.rwRegions i) c = false) :
    Memory.readByte (doPhase t i p s).mem c = Memory.readByte s.mem c := by
  rcases h.phase with ⟨rfl, -⟩ | ⟨-, -, hp⟩
  · exact settleRace_leaves s i hc
  · exact phasesOf_leave h.checked p hp s h.operands t i c (by simp [inRw, hc])

/-- The regions of a command that passed its check lie in the memory space (R62, R287). -/
theorem rwRegions_below {i : Instr} {s : State} {c : Nat} (hc : Config.memSize ≤ c) :
    inRegions (s.rwRegions i) c = false := by
  unfold State.rwRegions
  split
  · rfl
  · rename_i h
    simp only [not_or, not_not] at h
    have hp := check_passed h.1 h.2
    have hx := hp.xRange
    have hm : Config.memSize = 4294967296 := rfl
    by_cases hb : onBluestein i s.len.toNat = true
    · have hs := hp.scratchRange hb
      simp [hb, State.xRegions, State.scratchRegion, inRegions, Region.has]
      omega
    · simp [hb, State.xRegions, inRegions, Region.has]
      omega

end Sys2Proof.Machine
end

