-- ==== Sys2Proof/Tests/Slice0.lean ====
section
/-! SUPPORT. Tests: ill-formed terms, decoding, one-step results from the vectors of 95_test_vectors.md, and for each
statement with hypotheses a state that meets them. -/

namespace Sys2Proof.Tests

open Sys2Proof Sys2Proof.Machine

/-! ### Helpers -/

/-- Store words at a, a + 4, ... -/
def put (m : Memory) (a : Nat) : List Word → Memory
  | [] => m
  | w :: ws => put (Memory.write32 m a w) (a + 4) ws

/-- The base configuration of 95_test_vectors.md section 1, with X and Y stored. -/
def base (re im : List Word) (yre yim : List Word := []) : State :=
  { State.reset with
    len := BitVec.ofNat 32 re.length
    xre := 0x1000
    xim := 0x1100
    yre := 0x1200
    yim := 0x1300
    scr := 0x2000
    scrsz := 0x1000
    mem := put (put (put (put [] 0x1000 re) 0x1100 im) 0x1200 yre) 0x1300 yim }

/-- The base configuration with a length and empty memory. -/
def sized (n : Word) : State := { base [] [] with len := n }

/-- The words of an array. -/
def words (m : Memory) (a n : Nat) : List Word := (List.range n).map (fun k => Memory.read32 m (a + 4 * k))

/-- STATUS, X.re and X.im of a state. -/
def view (s : State) : Word × List Word × List Word :=
  (s.statusWord, words s.mem s.xre.toNat s.len.toNat, words s.mem s.xim.toNat s.len.toNat)

/-- The view of an outcome. -/
def viewOf : Host.Outcome State Fault Refusal → Option (Word × List Word × List Word)
  | .next t => some (view t)
  | .fault _ => none
  | .refused _ => none

/-- STATUS after the machine's next step from a launched word. -/
def statusAfter (s : State) (w : Nat) : Option Word :=
  match step (s.withFetchWord 32 w) with
  | .next t => some t.statusWord
  | .fault _ => none
  | .refused _ => none

/-- The reference pair of rule R9 at the angles of the tests: angle, cosine, sine (binary64, correctly rounded). -/
def angles : List (DWord × DWord × DWord) :=
  [(0x400921FB54442D18, 0xBFF0000000000000, 0x3CA1A62633145C07),
    (0x3FF921FB54442D18, 0x3C91A62633145C07, 0x3FF0000000000000),
    (0x3FE921FB54442D18, 0x3FE6A09E667F3BCD, 0x3FE6A09E667F3BCC),
    (0x0000000000000000, 0x3FF0000000000000, 0x0000000000000000),
    (0x3FF0C152382D7365, 0x3FE0000000000001, 0x3FEBB67AE8584CAA),
    (0x4010C152382D7365, 0xBFE0000000000004, 0xBFEBB67AE8584CA8)]

/-- The row of an angle. -/
def atAngle (x : DWord) : Option (DWord × DWord × DWord) := angles.find? (fun p => p.1 == x)

/-- The reference pair as a table. -/
def refTrig : Config.Trig where
  cos := fun x => ((atAngle x).map (fun p => p.2.1)).getD 0
  sin := fun x => ((atAngle x).map (fun p => p.2.2)).getD 0

/-- A command run with the reference pair. -/
def runRef (i : Instr) (s : State) : State := runCommand refTrig i (phasesOf i s) s

/-! ### Ill-formed terms (R93) -/

theorem test_stage_32_ill_formed : (Instr.stage 32).WellFormed = false := by decide

theorem test_stage_31_well_formed : (Instr.stage 31).WellFormed = true := by decide

/-! ### Words written out from rules R90 and R91: S 20:16, MD 8, OP 7:0 -/

theorem test_decode_nop : decodeWord 0b00000000000000000000000000000000 = .ok .nop := by decide

theorem test_decode_dftF : decodeWord 0b00000000000000000000000000000001 = .ok .dftF := by decide

theorem test_decode_dftI : decodeWord 0b00000000000000000000000100000001 = .ok .dftI := by decide

theorem test_decode_fft2F : decodeWord 0b00000000000000000000000000000010 = .ok .fft2F := by decide

theorem test_decode_fft2I : decodeWord 0b00000000000000000000000100000010 = .ok .fft2I := by decide

theorem test_decode_blueF : decodeWord 0b00000000000000000000000000000011 = .ok .blueF := by decide

theorem test_decode_blueI : decodeWord 0b00000000000000000000000100000011 = .ok .blueI := by decide

theorem test_decode_bitrev : decodeWord 0b00000000000000000000000000010000 = .ok .bitrev := by decide

theorem test_decode_stage_21 : decodeWord 0b00000000000101010000000000010001 = .ok (.stage 21) := by decide

theorem test_decode_conj : decodeWord 0b00000000000000000000000000010010 = .ok .conj := by decide

theorem test_decode_scale : decodeWord 0b00000000000000000000000000010011 = .ok .scale := by decide

theorem test_decode_cmul : decodeWord 0b00000000000000000000000000010100 = .ok .cmul := by decide

theorem test_decode_chirpN : decodeWord 0b00000000000000000000000000010101 = .ok .chirpN := by decide

theorem test_decode_chirpP : decodeWord 0b00000000000000000000000100010101 = .ok .chirpP := by decide

/-- The rejected words of vectors E2 to E7, each with its reason (R97). -/
theorem test_decode_rejects :
    decodeWord 0x00000004 = .error .unassignedOp ∧ decodeWord 0x00000110 = .error .modifierSet ∧
      decodeWord 0x00010012 = .error .stageFieldSet ∧ decodeWord 0x00200011 = .error .reservedBits ∧
      decodeWord 0x80000001 = .error .reservedBits ∧ decodeWord 0x00000200 = .error .reservedBits := by decide

theorem test_decode_table_word : decodeTableWord 32 0x00000115 = some .chirpP := by decide

theorem test_decode_bytes : decode [0x11, 0x00, 0x03, 0x00, 0xAA] = .ok (.stage 3, [0xAA]) := by decide

/-! ### Scalar vectors (95_test_vectors.md section 4) -/

theorem test_add32_ties :
    add32 [] 0x3F800000 0x33800000 = 0x3F800000 ∧ add32 [] 0x3F800000 0x33C00000 = 0x3F800001 ∧
      add32 [] 0x7F7FFFFF 0x73000000 = 0x7F800000 := by decide +kernel

theorem test_sub32_zeros :
    sub32 [] 0x80000000 0x00000000 = 0x80000000 ∧ sub32 [] 0x00000000 0x80000000 = 0x00000000 ∧
      sub32 [] 0x80000000 0x80000000 = 0x00000000 := by decide +kernel

theorem test_mul32_subnormal :
    mul32 [] 0x00800000 0x3F000000 = 0x00400000 ∧ mul32 [] 0x00800001 0x3F000000 = 0x00400000 ∧
      mul32 [] 0x3F800001 0x3F800001 = 0x3F800002 := by decide +kernel

theorem test_recip32_large : recip32 65536 = 0x37800000 ∧ recip32 2147483647 = 0x30000000 := by decide +kernel

theorem test_rn32_ties :
    rn32 [] 0x3FB999999999999A = 0x3DCCCCCD ∧ rn32 [] 0x3FF0000030000000 = 0x3F800002 ∧
      rn32 [] 0x3690000000000000 = 0x00000000 ∧ rn32 [] 0x3690000000000001 = 0x00000001 := by decide +kernel

theorem test_cmul_square : cmul [] ⟨0x3F3504F3, 0xBF3504F3⟩ ⟨0x3F3504F3, 0xBF3504F3⟩ = ⟨0x00000000, 0xBF7FFFFF⟩ := by
  decide +kernel

/-- TW[1] and TW[3] of rule R177, w_3 of stage 3, W_3[2] (95_test_vectors.md section 5). -/
theorem test_twiddle_and_chirp :
    twiddle refTrig 1 = ⟨0xBF800000, 0xA50D3132⟩ ∧ twiddle refTrig 3 = ⟨0x3F3504F3, 0xBF3504F3⟩ ∧
      rotation (fun _ => []) (twiddle refTrig 3) 3 = ⟨0xBF3504F2, 0xBF3504F2⟩ ∧
      chirp refTrig 3 2 = ⟨0xBF000000, 0xBF5DB3D7⟩ := by decide +kernel

/-! ### Registers (95_test_vectors.md sections 3.1, 3.2 and 3.4) -/

theorem test_status_busy_ovr : { sized 4 with busy := true, ovr := true }.statusWord = 0x00000009 := by decide

theorem test_status_code9_ovr :
    { sized 4 with done := true, ovr := true, errcode := .allocFail }.statusWord = 0x0000090E ∧
      ({ sized 4 with done := true, ovr := true, errcode := .allocFail }.acknowledge 0xFFFFFFFF).statusWord =
        0x00000904 := by decide

theorem test_irqen_write_all_ones : (State.reset.writeRegister 0x10 0xFFFFFFFF).readRegister 0x10 = 0x00000001 := by
  decide

theorem test_len_write_dropped_while_busy :
    ((State.reset.launch 0x00000000).writeRegister 0x14 8).readRegister 0x0C = 0x00000009 := by decide

/-! ### Check outcomes (95_test_vectors.md section 3.3) -/

/-- E16, E17, E25, E30. -/
theorem test_check_stage_and_ranges :
    check (.stage 1) (sized 1) = .badStage ∧ check (.stage 31) (sized 0x40000000) = .badStage ∧
      check .fft2F { sized 4 with xre := 0x1002 } = .misaligned ∧
      check .fft2F { sized 4 with xre := 0xFFFFFFF4 } = .range := by decide

/-- E19, E20, E22, E24. -/
theorem test_check_lengths :
    check .fft2F (sized 131072) = .tooLong ∧ check .dftF (sized 32769) = .tooLong ∧
      check .fft2F { sized 65536 with xim := 0x80000 } = .ok ∧
      check .conj { sized 131072 with xim := 0x100000 } = .ok := by decide

/-- E34 to E37. -/
theorem test_check_cmul_overlaps :
    check .cmul { sized 4 with yre := 0x1004 } = .overlap ∧ check .cmul { sized 4 with yim := 0x1200 } = .overlap ∧
      check .cmul { sized 4 with yre := 0x1000, yim := 0x1100 } = .ok ∧
      check .cmul { sized 4 with yre := 0x1100, yim := 0x1000 } = .ok := by decide

/-- E39 to E42. -/
theorem test_check_scratch :
    check .blueF { sized 3 with scr := 0x0FF8 } = .overlap ∧ check .blueF { sized 3 with scrsz := 191 } = .allocFail ∧
      check .blueF { sized 3 with scrsz := 192 } = .ok ∧ check .dftF { sized 5 with scrsz := 383 } = .allocFail := by
  decide

/-! ### Commands through the machine's step and through exec -/

/-- E1, E2, E14, E11: NOP with LEN = 0, an unassigned OP, STAGE 0, FFT2.F of length 6. -/
theorem test_step_status :
    statusAfter State.reset 0x00000000 = some 0x00000002 ∧ statusAfter (sized 4) 0x00000004 = some 0x00000106 ∧
      statusAfter (sized 8) 0x00000011 = some 0x00000406 ∧ statusAfter (sized 6) 0x00000002 = some 0x00000306 := by
  decide

/-- Section 6.5: NaN bits kept, sign flipped. -/
theorem test_conj_nan_payload :
    viewOf (exec .conj (base [0x3F800000, 0x40000000] [0x7FC00001, 0xFF800000])) =
      some (0x00000002, [0x3F800000, 0x40000000], [0xFFC00001, 0x7F800000]) := by decide +kernel

/-- Section 6.5. -/
theorem test_scale_by_three :
    viewOf (exec .scale (base [0x3F800000, 0x40000000, 0x40400000] [0x80000000, 0x40400000, 0x7F800000])) =
      some (0x00000002, [0x3EAAAAAB, 0x3F2AAAAB, 0x3F800000], [0x80000000, 0x3F800000, 0x7F800000]) := by
  decide +kernel

/-- Section 7.1, the third line: YRE = XIM and YIM = XRE. -/
theorem test_cmul_swapped_alias :
    viewOf
        (exec .cmul { base [0x3F800000, 0x40000000] [0x40400000, 0x40800000] with yre := 0x1100, yim := 0x1000 }) =
      some (0x00000002, [0x00000000, 0x00000000], [0x41200000, 0x41A00000]) := by decide +kernel

/-- Section 6.1: words are moved, a signalling NaN too. -/
theorem test_bitrev_four :
    viewOf
        (exec .bitrev
          (base [0x7FA00001, 0x3F800000, 0x00000001, 0x40400000] [0x80000000, 0x40000000, 0x7F800000, 0x40800000])) =
      some
        (0x00000002, [0x7FA00001, 0x00000001, 0x3F800000, 0x40400000],
          [0x80000000, 0x7F800000, 0x40000000, 0x40800000]) := by decide +kernel

/-- Section 6.2, the first corner case of STAGE 1. -/
theorem test_stage_1_signed_zeros :
    viewOf (exec (.stage 1) (base [0x80000000, 0x80000000] [0x80000000, 0x00000000])) =
      some (0x00000002, [0x80000000, 0x00000000], [0x00000000, 0x80000000]) := by decide +kernel

/-- Section 6.2, STAGE 3 with a rotation that drifts. -/
theorem test_stage_3_rotation :
    view (runRef (.stage 3) (base (List.replicate 8 0x3F800000) (List.replicate 8 0))) =
      (0x00000002,
        [0x40000000, 0x3FDA827A, 0x3F800000, 0x3E95F61C, 0x00000000, 0x3E95F61A, 0x3F800000, 0x3FDA8279],
        [0x00000000, 0xBF3504F3, 0xBF7FFFFF, 0xBF3504F2, 0x00000000, 0x3F3504F3, 0x3F7FFFFF, 0x3F3504F2]) := by
  decide +kernel

/-- Section 6.3: n = 2 through exec. -/
theorem test_fft2F_two :
    viewOf (exec .fft2F (base [0x3F800000, 0x40000000] [0x40400000, 0x40800000])) =
      some (0x00000002, [0x40400000, 0xBF800000], [0x40E00000, 0xBF800000]) := by decide +kernel

/-- Program P1. -/
theorem test_fft2F_four :
    view (runRef .fft2F (base [0x3F800000, 0x40000000, 0x40400000, 0x40800000] [0, 0, 0, 0])) =
      (0x00000002, [0x41200000, 0xC0000000, 0xC0000000, 0xC0000000], [0x00000000, 0x40000000, 0x00000000, 0xC0000000]) := by
  decide +kernel

/-- Section 6.4. -/
theorem test_fft2I_two :
    viewOf (exec .fft2I (base [0x3F800000, 0x3F800000] [0, 0])) =
      some (0x00000002, [0x3F800000, 0x00000000], [0x80000000, 0x00000000]) := by decide +kernel

/-- Section 6.4, the second n = 4 line. -/
theorem test_fft2I_four :
    view
        (runRef .fft2I
          (base [0x41200000, 0xC0000000, 0xC0000000, 0xC0000000] [0x00000000, 0x40000000, 0x00000000, 0xC0000000])) =
      (0x00000002, [0x3F800000, 0x40000000, 0x40400000, 0x40800000], [0x80000000, 0x248D3132, 0x00000000, 0xA48D3132]) := by
  decide +kernel

/-- Section 7.2. -/
theorem test_chirpN_three :
    view (runRef .chirpN (base [0x3F800000, 0x3F800000, 0x3F800000] [0, 0, 0])) =
      (0x00000002, [0x3F800000, 0x3F000000, 0xBF000000], [0x00000000, 0xBF5DB3D7, 0x3F5DB3D7]) := by decide +kernel

/-- Section 7.2. -/
theorem test_chirpP_three :
    view (runRef .chirpP (base [0x3F800000, 0x3F800000, 0x3F800000] [0, 0, 0])) =
      (0x00000002, [0x3F800000, 0x3F000000, 0xBF000000], [0x00000000, 0x3F5DB3D7, 0xBF5DB3D7]) := by decide +kernel

/-- Section 7.3, n = 2: the padded length is 4. -/
theorem test_blueF_two :
    view (runRef .blueF (base [0x3F800000, 0] [0, 0])) =
      (0x00000002, [0x3F800000, 0x3F800000], [0x80000000, 0x248D3132]) := by decide +kernel

/-- Section 7.4, n = 1. -/
theorem test_blueI_one :
    view (runRef .blueI (base [0x40A00000] [0xBF800000])) = (0x00000002, [0x40A00000], [0xBF800000]) := by
  decide +kernel

/-- Section 7.5: DFT.F of length 3 takes the Bluestein path with M = 8, of length 4 the radix-2 path (R262). -/
theorem test_dftF_paths :
    phasesOf .dftF (sized 3) = bluesteinPhases 8 ∧
      phasesOf .dftF (sized 4) = [.bitRev .x, .stage .x 1, .stage .x 2] := by decide

/-- Section 2, S2: DFT.F of length 2 through exec. -/
theorem test_dftF_two :
    viewOf (exec .dftF (base [0x3F800000, 0] [0, 0])) =
      some (0x00000002, [0x3F800000, 0x3F800000], [0x00000000, 0x00000000]) := by decide +kernel

/-- Section 7.5: DFT.I of length 2 takes the radix-2 path. -/
theorem test_dftI_two :
    viewOf (exec .dftI (base [0x3F800000, 0x3F800000] [0, 0])) =
      some (0x00000002, [0x3F800000, 0x00000000], [0x80000000, 0x00000000]) := by decide +kernel

/-! ### A refused access (R68): the accesses before it in the order of the pseudocode are performed -/

/-- R203: V[u] and V[v] are read, V[v] is written before V[u], real parts first. -/
theorem test_stage_access_order :
    iterationAccesses (.stage .x 1) (sized 2) 0 =
      [⟨0x1000, 4, false⟩, ⟨0x1100, 4, false⟩, ⟨0x1004, 4, false⟩, ⟨0x1104, 4, false⟩, ⟨0x1004, 4, true⟩,
        ⟨0x1104, 4, true⟩, ⟨0x1000, 4, true⟩, ⟨0x1100, 4, true⟩] := by decide

/-- R211: a refused write of X.im[1] leaves the word as it was, after X.im[0] is negated; STATUS is as before. -/
theorem test_conj_refused_write :
    viewOf
        (exec .conj { base [1, 2, 3] [0x3F800000, 0x40000000, 0x40400000] with holes := [⟨0x1104, 0x1108, false, true⟩] }) =
      some (0x00000000, [1, 2, 3], [0xBF800000, 0x40000000, 0x40400000]) := by decide +kernel

/-- R201: a refused write of X.re[2], the second word of the first exchange, comes after the write of X.re[1]. -/
theorem test_bitrev_refused_write :
    viewOf (exec .bitrev { base [10, 11, 12, 13] [20, 21, 22, 23] with holes := [⟨0x1008, 0x100C, false, true⟩] }) =
      some (0x00000000, [10, 12, 12, 13], [20, 21, 22, 23]) := by decide +kernel

/-! ### Witnesses: for each statement with hypotheses, a state and operands that meet them -/

theorem sized_inv (n : Word) : (sized n).Inv where
  memWf := rfl
  memBound := by intro c h; cases h
  busyPhase := by constructor <;> intro h <;> simp [sized, base, State.reset] at h
  inPhase := by intro p rest h; simp [sized, base, State.reset] at h
  stuckIn := by intro p rest h; simp [sized, base, State.reset] at h
  notBoth := by simp [sized, base, State.reset]
  busyCode := by intro h; simp [sized, base, State.reset] at h
  raceBusy := by intro h; simp [sized, base, State.reset] at h

/-- CONJ of length 4, launched. -/
def launched : State := (sized 4).launch (encode .conj)

theorem launched_inv : launched.Inv where
  memWf := rfl
  memBound := by intro c h; cases h
  busyPhase := by constructor <;> intro _ <;> simp [launched, State.launch]
  inPhase := by
    intro p rest h
    have h' : PH.run .check [] = PH.run p rest := h
    injection h' with h1 h2
    exact .inl ⟨h1.symm, h2.symm⟩
  stuckIn := by
    intro p rest h
    have h' : PH.run .check [] = PH.stuck p rest := h
    cases h'
  notBoth := by simp [launched, State.launch]
  busyCode := by intro _; rfl
  raceBusy := by intro h; simp [launched, State.launch, sized, base, State.reset] at h

/-- CONJ of length 4 past its check, in its one phase. -/
def inConj : State := unitStep Config.trig launched

theorem inConj_inv : inConj.Inv where
  memWf := by decide
  memBound := by intro c h; cases h
  busyPhase := by
    have h1 : inConj.busy = true := by decide
    have h2 : inConj.ph = .run (.conj .x) [.finish] := by decide
    rw [h1, h2]
    simp
  inPhase := by
    intro p rest h
    have h2 : inConj.ph = .run (.conj .x) [.finish] := by decide
    rw [h2] at h
    injection h with h3 h4
    subst h3 h4
    exact .inr ⟨.conj, by decide, by decide, by decide, by decide, by decide⟩
  stuckIn := by
    intro p rest h
    have h2 : inConj.ph = .run (.conj .x) [.finish] := by decide
    rw [h2] at h
    cases h
  notBoth := by decide
  busyCode := by decide
  raceBusy := by
    intro h
    have h1 : inConj.raced = false := by decide
    rw [h1] at h
    cases h

theorem witness_TableRowsExact :
    (31 : Nat) < 32 ∧ decodeWord (0x00000011 ||| (BitVec.ofNat 32 31 <<< 16)) = .ok (.stage 31) := by
  decide

theorem witness_BytesDecodeBack : (Instr.stage 31).WellFormed = true ∧ Instr.nop.WellFormed = true ∧ 3 < 4 := by decide

/-- Finite: the least positive binary64; NaN: a quiet NaN. -/
theorem witness_Rn32RoundsToNearest :
    (isNaN64 0x0000000000000001 = false ∧ isInf64 0x0000000000000001 = false) ∧ isNaN64 0x7FF8000000000000 = true := by
  decide

/-- The clauses in order: a sum and a difference that are not 0, that are 0, one infinity on either side, infinities of
one sign and of both. -/
theorem witness_AddSubRoundOnce :
    (isNaN32 0x7F7FFFFF = false ∧ isInf32 0x7F7FFFFF = false ∧ value32 0x7F7FFFFF + value32 0x7F7FFFFF ≠ 0 ∧
      value32 0x7F7FFFFF - value32 0x00000001 ≠ 0) ∧
    (isNaN32 0x80000000 = false ∧ isInf32 0x80000000 = false ∧ value32 0x80000000 + value32 0x00000000 = 0 ∧
      value32 0x80000000 - value32 0x00000000 = 0) ∧
    (isNaN32 0x7F800000 = false ∧ isInf32 0x7F800000 = true) ∧
    (isNaN32 0xFF800000 = false ∧ isInf32 0xFF800000 = true ∧ sign32 0xFF800000 ≠ sign32 0x7F800000) := by decide +kernel

/-- Finite factors; an infinity with a factor that is not 0; an infinity with a zero. -/
theorem witness_MulRoundsOnce :
    (isNaN32 0x00000001 = false ∧ isInf32 0x00000001 = false ∧ isZero32 0x00000001 = false) ∧
    (isNaN32 0xFF800000 = false ∧ isInf32 0xFF800000 = true ∧ isZero32 0xFF800000 = false) ∧
    (isNaN32 0x80000000 = false ∧ isZero32 0x80000000 = true) := by decide

theorem witness_RecipIsCorrectlyRounded :
    (1 ≤ 1 ∧ 1 ≤ 2147483647) ∧ (31 ≤ 31) ∧ isNaN32 0x7F7FFFFF = false ∧ isInf32 0x7F7FFFFF = false := by decide

theorem witness_AngleArithmeticRoundsOnce :
    2 ^ 53 - 1 < 2 ^ 53 ∧ isNaN64 0x0000000000000001 = false ∧ isInf64 0x0000000000000001 = false ∧
      isZero64 0x0000000000000001 = false := by decide

theorem witness_CmulCommutes :
    isNaN32 (cmul [] ⟨0x3F800000, 0x40000000⟩ ⟨0x40400000, 0x40800000⟩).re = false ∧
      isNaN32 (cmul [] ⟨0x3F800000, 0x40000000⟩ ⟨0x40400000, 0x40800000⟩).im = false := by decide +kernel

theorem witness_CmulByConjugate :
    isNaN32 (mul32 [] 0x3F800000 0x7F800000) = false ∧
      isNaN32 (cmul [] ⟨0x3F800000, 0x40000000⟩ (conjC ⟨0x40400000, 0x40800000⟩)).re = false := by decide +kernel

/-- A finite x with a -0 part, and a NaN part. -/
theorem witness_CmulCornerCases :
    (isNaN32 0x80000000 = false ∧ isInf32 0x80000000 = false) ∧ (isNaN32 0xC0000000 = false ∧ isInf32 0xC0000000 = false) ∧
      isNaN32 0x7F800001 = true := by decide

theorem witness_StageAngleExact : (1 ≤ 1 ∧ 1 ≤ 16) ∧ 1 ≤ 16 ∧ 16 ≤ 16 := by decide

/-- Both ends of the range of stages; the shortest chirp, and the last index of the longest. -/
theorem witness_TrigValuesRoundOnce :
    (1 ≤ 1 ∧ 1 ≤ 16) ∧ (1 ≤ 16 ∧ 16 ≤ 16) ∧ (1 ≤ 1 ∧ 1 < 2 ^ 31 ∧ 0 < 1) ∧
      (1 ≤ 2147483647 ∧ 2147483647 < 2 ^ 31 ∧ 2147483646 < 2147483647) := by decide

theorem witness_ResetRegisterValues : (0x08 : Nat) ≠ 0x00 ∧ (0x08 : Nat) ≠ 0x04 := by decide

theorem witness_ResetEventRestores : (sized 4).busy = false := rfl

/-- The lowest and the highest reserved offset, and a register. -/
theorem witness_RegisterReads :
    (0x2C#8).toNat % 4 = 0 ∧ ((0x30#8).toNat % 4 = 0 ∧ 0x30 ≤ (0x30#8).toNat) ∧
      (0xFC#8).toNat % 4 = 0 ∧ 0x30 ≤ (0xFC#8).toNat := by decide

theorem witness_ConfigurationWrites : (sized 4).busy = false := rfl

theorem witness_ReadOnlyWritesIgnored :
    ((0x04#8).toNat % 4 = 0) ∧ (0xFC#8).toNat % 4 = 0 ∧ 0x30 ≤ (0xFC#8).toNat := by decide

theorem witness_BusyRule :
    launched.busy = true ∧ (0x2C : Nat) ∈ [0x08, 0x14, 0x18, 0x1C, 0x20, 0x24, 0x28, 0x2C] ∧
      ∃ t, launched.hostWrite (.reg 0x14) [8, 0, 0, 0] = .next t := ⟨rfl, by decide, _, rfl⟩

theorem witness_NarrowAccessHasNoEffect :
    ([1] : List Byte).length < 4 ∧ (0x0E#8).toNat % 4 ≠ 0 ∧ (3 : Nat) < 4 := by decide

theorem witness_LaunchEffect : (sized 4).busy = false := rfl

theorem witness_InterruptLine :
    (sized 4).holes = [] ∧ (sized 4).busy = false ∧ (launched.busy = true ∧ busyGuarded 0x2C = true) ∧
      ((sized 4).launch 0x00000004).ph = .run .check [] ∧ IllegalWord ((sized 4).launch 0x00000004).cmd :=
  ⟨rfl, rfl, by decide, rfl, .inr (.inr (.inl (by decide)))⟩

/-- The last offset of the register block, and the first address past the block. -/
theorem witness_BusAccessesResolve :
    (0xFF#8).toNat = 255 ∧ Config.regBase + 256 ≤ Config.regBase + 256 := ⟨by decide, Nat.le_refl _⟩

/-- CONJ of length 4 just completed. -/
def completed : State := runPhases Config.trig .conj [.conj .x, .finish] inConj

/-- R71: the regions of the completed command are unseen until STATUS is read with DONE = 1, which a narrow read is not. -/
theorem test_done_read_ends_unseen :
    completed.unseen = [⟨0x1000, 16⟩, ⟨0x1100, 16⟩] ∧ (completed.hostReadRegister 0x0C 2).unseen = completed.unseen ∧
      (completed.hostReadRegister 0x14 4).unseen = completed.unseen ∧
      (completed.hostReadRegister 0x0C 4).unseen = [] := by decide

/-- While CONJ of length 4 runs: a write beside its regions, and a read of the last byte of memory, outside its regions and
the unseen ones; a completed command whose DONE has not been read. -/
theorem witness_HostMemoryIsPlain :
    (launched.answers ⟨0x1110, [7, 8].length, true⟩ = true ∧
      touches (launched.runningRw ++ launched.runningRo) 0x1110 [7, 8].length = false) ∧
    (launched.answers ⟨0xFFFFFFFF, 1, false⟩ = true ∧
      inRegions (launched.runningRw ++ launched.unseen) 0xFFFFFFFF = false) ∧
    (completed.busy = false ∧ completed.done = true ∧ completed.answers ⟨0x1100, 16, false⟩ = true ∧
      inRegions completed.unseen 0x110F = true) := by decide

/-- While CONJ of length 4 runs: a write of the last byte of X.im; and the command after a race. -/
theorem witness_RacingWriteStaysInRegions :
    (launched.answers ⟨0x110F, [7].length, true⟩ = true ∧
      touches (launched.runningRw ++ launched.runningRo) 0x110F [7].length = true) ∧
    (check .conj { launched with raced := true } = .ok ∧ ({ launched with raced := true } : State).holes = []) := by
  decide

/-- While CONJ of length 4 runs: a write of STATUS, and a write and a read beside its regions. -/
theorem witness_CarefulHostLosesNothing :
    (launched.careful (.write (.reg 0x0C) [8, 0, 0, 0]) = true ∧
      ∃ t, launched.handle (.write (.reg 0x0C) [8, 0, 0, 0]) = .next t) ∧
    (launched.careful (.write (.mem 0x1110) [7]) = true ∧ ∃ t, launched.handle (.write (.mem 0x1110) [7]) = .next t) ∧
    (launched.careful (.read (.mem 0x1110) 1) = true ∧ ∃ t, launched.handle (.read (.mem 0x1110) 1) = .next t) :=
  ⟨⟨by decide, _, rfl⟩, ⟨by decide, _, rfl⟩, by decide, _, rfl⟩

/-- One past the last byte, and a hole. -/
theorem witness_UnansweredHostAccessFaults :
    (sized 4).answers ⟨0x100000000, [7].length, true⟩ = false ∧
      ({ sized 4 with holes := [⟨0, 16, true, false⟩] } : State).answers ⟨15, 2, false⟩ = false := by decide

theorem witness_CheckReportsLowestCode :
    (({ sized 6 with xre := 2 } : State).len = 6 ∧ ({ sized 6 with xre := 2 } : State).xre = 2) ∧
      (({ sized 40000 with xre := 1, scrsz := 0 } : State).len = 40000 ∧
        ({ sized 40000 with xre := 1, scrsz := 0 } : State).xre = 1 ∧
        ({ sized 40000 with xre := 1, scrsz := 0 } : State).scrsz = 0) ∧
      (((sized 4).launch 0x00000004).ph = .run .check [] ∧ IllegalWord ((sized 4).launch 0x00000004).cmd) ∧
      ((sized 6).launch (encode .fft2F)).ph = .run .check [] ∧
      decodeWord ((sized 6).launch (encode .fft2F)).cmd = .ok .fft2F ∧
      check .fft2F ((sized 6).launch (encode .fft2F)) ≠ .ok :=
  ⟨by decide, by decide, ⟨rfl, .inr (.inr (.inl (by decide)))⟩, rfl, by decide, by decide⟩

/-- Both ends of the range of lengths of the table's last line, and a mirror index. -/
theorem witness_PaddedLengthLeast :
    (1 ≤ 1) ∧ (1 ≤ 15 ∧ 2 ^ (15 - 1) + 1 ≤ 16385 ∧ 32768 ≤ 2 ^ 15) ∧ (0 < 1 ∧ 1 < 2) := by decide

theorem witness_ErrorsAllOrNothing :
    (Instr.fft2F.WellFormed = true ∧ (sized 6).Inv ∧ (sized 6).busy = false ∧ (sized 6).inputs = [] ∧
      check .fft2F (sized 6) ≠ .ok) ∧
    IllegalWord 0x80000001 ∧
    (Instr.fft2F.WellFormed = true ∧ (sized 8).Inv ∧ (sized 8).busy = false ∧ (sized 8).inputs = [] ∧
      (sized 8).holes = [] ∧ check .fft2F (sized 8) = .ok) :=
  ⟨⟨rfl, sized_inv 6, rfl, rfl, by decide⟩, .inr (.inl (by decide)), rfl, sized_inv 8, rfl, rfl, rfl, by decide⟩

/-- Every command passes its check at length 4. -/
theorem witness_AcceptedCommandsComplete :
    ∀ i ∈ [Instr.nop, .dftF, .dftI, .fft2F, .fft2I, .blueF, .blueI, .bitrev, .stage 1, .stage 2, .conj, .scale, .cmul,
        .chirpN, .chirpP],
      check i (sized 4) = .ok ∧ (sized 4).holes = [] := by decide

/-- A word of each kind of rule R97. -/
theorem witness_IllegalWordReported :
    (sized 4).busy = false ∧ (sized 4).inputs = [] ∧ IllegalWord 0x00000200 ∧ IllegalWord 0x80000001 ∧
      IllegalWord 0x0000000F ∧ IllegalWord 0x000000FF ∧ IllegalWord 0x00000100 ∧ IllegalWord 0x00010012 :=
  ⟨rfl, rfl, .inl (by decide), .inr (.inl (by decide)), .inr (.inr (.inl (by decide))),
    .inr (.inr (.inr (.inl (by decide)))), .inr (.inr (.inr (.inr (.inl (by decide))))),
    .inr (.inr (.inr (.inr (.inr (by decide)))))⟩

theorem witness_NopOnlyCompletes :
    (({ sized 0 with done := true, ovr := true, errcode := .invalidLength } : State).len = 0 ∧
      ({ sized 0 with done := true, ovr := true, errcode := .invalidLength } : State).statusWord = 0x0000020E) ∧
      opBits 0x00000100 = 0 ∧ (0x00000100 : Word) ≠ 0 := by decide

theorem ready_four (i : Instr)
    (h : i ∈ [Instr.nop, .dftF, .dftI, .fft2F, .fft2I, .blueF, .blueI, .bitrev, .stage 1, .stage 2, .conj, .scale, .cmul,
      .chirpN, .chirpP]) : (sized 4).Ready i :=
  ⟨(witness_AcceptedCommandsComplete i h).1, rfl, rfl⟩

theorem witness_ConjNegatesImaginary : (sized 4).Ready .conj := ready_four _ (by decide)

theorem witness_ScaleMultipliesByReciprocal : (sized 4).Ready .scale := ready_four _ (by decide)

theorem witness_BitrevPermutes : (sized 4).Ready .bitrev ∧ (sized 4).len.toNat = 2 ^ 2 ∧ 1 < 2 ^ 2 ∧ IsReversed 2 1 2 :=
  ⟨ready_four _ (by decide), by decide, by decide, by decide, by decide⟩

theorem witness_BitrevTwiceRestores : (sized 4).Ready .bitrev ∧ Memory.wf (sized 4).mem = true :=
  ⟨ready_four _ (by decide), rfl⟩

/-- The first and the last stage of length 4. -/
theorem witness_StageButterflies :
    ((sized 4).Ready (.stage 1) ∧ (sized 4).Ready (.stage 2) ∧ (sized 4).len.toNat = 2 ^ 2) ∧ 1 < 2 ^ (2 - 1) ∧
      1 < 2 ^ (2 - 1) :=
  ⟨⟨ready_four _ (by decide), ready_four _ (by decide), by decide⟩, by decide, by decide⟩

/-- Length 1 and length 4. -/
theorem witness_ForwardTransformIsItsStages :
    ((sized 4).Ready .fft2F ∧ (sized 4).len.toNat = 2 ^ 2) ∧ (sized 1).Ready .fft2F ∧ (sized 1).len.toNat = 2 ^ 0 :=
  ⟨⟨ready_four _ (by decide), by decide⟩, ⟨by decide, rfl, rfl⟩, by decide⟩

theorem witness_InverseTransformIsConjugated : (sized 4).Ready .fft2I := ready_four _ (by decide)

/-- Y apart from X, and Y = X (R254, vector E36). -/
theorem witness_CmulMultipliesElements :
    (sized 4).Ready .cmul ∧ ({ sized 4 with yre := 0x1000, yim := 0x1100 } : State).Ready .cmul :=
  ⟨ready_four _ (by decide), by decide, rfl, rfl⟩

theorem witness_ChirpMultipliesElements : (sized 4).Ready .chirpN ∧ (sized 4).Ready .chirpP :=
  ⟨ready_four _ (by decide), ready_four _ (by decide)⟩

/-- Lengths 1 and 3. -/
theorem witness_BluesteinSequence :
    ((sized 3).Ready .blueF ∧ 8 = paddedLength (sized 3).len.toNat) ∧ (sized 1).Ready .blueF ∧
      1 = paddedLength (sized 1).len.toNat :=
  ⟨⟨⟨by decide, rfl, rfl⟩, by decide⟩, ⟨by decide, rfl, rfl⟩, by decide⟩

theorem witness_InverseBluesteinIsConjugated : (sized 4).Ready .blueI := ready_four _ (by decide)

theorem witness_DftDispatchesOnPowerOfTwo :
    ((sized 4).Ready .dftF ∧ (sized 4).Ready .dftI ∧ (sized 4).len.toNat = 2 ^ 2) ∧
      (sized 3).Ready .dftF ∧ (sized 3).Ready .dftI ∧ ¬∃ m, (sized 3).len.toNat = 2 ^ m := by
  refine ⟨⟨ready_four _ (by decide), ready_four _ (by decide), by decide⟩, ⟨by decide, rfl, rfl⟩, ⟨by decide, rfl, rfl⟩, ?_⟩
  rintro ⟨m, hm⟩
  have h3 : 3 = 2 ^ m := hm
  rcases m with _ | _ | m
  · omega
  · omega
  · rw [Nat.pow_succ] at h3
    omega

/-- A launched command in Check, and one in its phase. -/
theorem witness_StepKeepsInvariant :
    (launched.Inv ∧ ∃ t, step launched = .next t) ∧ inConj.Inv ∧ ∃ t, step inConj = .next t :=
  ⟨⟨launched_inv, _, rfl⟩, inConj_inv, _, rfl⟩

/-- A command's word, a word that is none, and a command to place. -/
theorem witness_StepRunsLatchedCommand :
    (launched.inputs = [] ∧ launched.ph = .run .check [] ∧ decodeWord launched.cmd = .ok .conj) ∧
      (((sized 4).launch 0x00000004).inputs = [] ∧ ((sized 4).launch 0x00000004).ph = .run .check [] ∧
        decodeWord ((sized 4).launch 0x00000004).cmd = .error .unassignedOp) ∧ (Instr.stage 31).WellFormed = true := by
  decide

theorem witness_WholeCommandIsUnitSteps :
    launched.ph = .run .check [] ∧ decodeWord launched.cmd = .ok .conj ∧ ∃ t, exec .conj launched = .next t :=
  ⟨rfl, by decide, _, rfl⟩

/-- Two states that differ in n, M and a counter. -/
theorem witness_CommandsAreReentrant :
    (sized 4).holes = [] ∧
      SameOutside (sized 4) { sized 4 with n := 7, mlen := 9, dp := { Datapath.reset with k := 5 } } :=
  ⟨rfl, ⟨by constructor <;> rfl, rfl, rfl, rfl, rfl, rfl, rfl, rfl, rfl⟩⟩

theorem witness_IdleUnitStays : (sized 4).ph = .idle ∧ (sized 4).inputs = [] := by decide

/-- CONJ of length 4, launched, where the platform does not answer reads of X.im[3]. -/
def refused : State := { launched with holes := [⟨0x110C, 0x1110, true, false⟩] }

/-- The launched command, and the same command in its phase. -/
theorem witness_RefusedAccessSticks :
    (decodeWord refused.cmd = .ok .conj ∧ check .conj refused = .ok ∧ refused.busy = true ∧ refused.inputs = [] ∧
      Phase.conj .x ∈ phasesOf .conj refused ∧
      phaseAdmitted (.conj .x) (refused.takeOperands .conj) = false) ∧
    (unitStep Config.trig refused).ph = .run (.conj .x) [.finish] ∧
    (unitStep Config.trig refused).InPhase (.conj .x) [.finish] .conj ∧
    phaseAdmitted (.conj .x) (unitStep Config.trig refused) = false :=
  ⟨by decide, by decide, ⟨by decide, by decide, by decide, by decide, by decide⟩, by decide⟩

/-- The last element of length 4. -/
theorem witness_ConjStopsAtRefusedElement :
    check .conj refused = .ok ∧ 3 < refused.len.toNat ∧
      (∀ k, k < 3 → refused.answers ⟨refused.xim.toNat + 4 * k, 4, false⟩ = true ∧
        refused.answers ⟨refused.xim.toNat + 4 * k, 4, true⟩ = true) ∧
      refused.answers ⟨refused.xim.toNat + 4 * 3, 4, false⟩ = false := by decide

theorem witness_SynchronousCallReturns :
    (Instr.fft2F.WellFormed = true ∧ (sized 6).busy = false ∧ (sized 6).holes = []) ∧
      ({ sized 6 with inputs := hostRun .fft2F ++ [hostAck] } : State).Inv ∧
      ({ sized 6 with inputs := hostRun .fft2F ++ [hostAck] } : State).inputs = hostRun .fft2F ++ [hostAck] := by
  refine ⟨by decide, ?_, rfl⟩
  have h := sized_inv 6
  exact ⟨h.memWf, h.memBound, h.busyPhase, (fun p rest e => nomatch (show PH.idle = PH.run p rest from e)),
    (fun p rest e => nomatch (show PH.idle = PH.stuck p rest from e)), h.notBoth, h.busyCode, h.raceBusy⟩

end Sys2Proof.Tests
end

section
/-! Where an access on the host's bus goes (R10, R20, R62, R121; log entry 13): the resolution of a bus address, and host
accesses of targets that resolve alike. -/

namespace Sys2Proof.Machine

open Sys2Proof

/-! ### The resolution of a target -/

@[simp] theorem Target.resolve_reg (off : Byte) : (Target.reg off).resolve = .reg off := rfl

@[simp] theorem Target.resolve_mem (a : Nat) : (Target.mem a).resolve = .mem a := rfl

@[simp] theorem Target.resolve_bus_in_block (off : Byte) :
    (Target.bus (Config.regBase + off.toNat)).resolve = .reg off := by
  have inBlock : Config.regBase ≤ Config.regBase + off.toNat ∧
      Config.regBase + off.toNat < Config.regBase + 256 :=
    ⟨Nat.le_add_right _ _, Nat.add_lt_add_left off.isLt _⟩
  simp only [Target.resolve, if_pos inBlock, Nat.add_sub_cancel_left, BitVec.ofNat_toNat, BitVec.setWidth_eq]

theorem Target.resolve_bus_outside_block {a : Nat} (outside : a < Config.regBase ∨ Config.regBase + 256 ≤ a) :
    (Target.bus a).resolve = .mem a :=
  if_neg (by omega)

/-! ### A host access sees its target only as resolved -/

theorem State.hostRead_eq_of_resolve_eq (s : State) {t u : Target} (h : t.resolve = u.resolve) (len : Nat) :
    s.hostRead t len = s.hostRead u len := by
  simp only [State.hostRead, h]

theorem State.hostWrite_eq_of_resolve_eq (s : State) {t u : Target} (h : t.resolve = u.resolve) (bytes : List Byte) :
    s.hostWrite t bytes = s.hostWrite u bytes := by
  simp only [State.hostWrite, h]

/-- Settles O29: a bus target resolves as the register or the memory target it names, and host accesses depend on the
resolution alone. -/
theorem busAccessesResolve : Obligations.BusAccessesResolve := by
  constructor
  · intro s off bytes len
    have toReg : (Target.bus (Config.regBase + off.toNat)).resolve = (Target.reg off).resolve := by
      rw [Target.resolve_bus_in_block, Target.resolve_reg]
    exact ⟨s.hostWrite_eq_of_resolve_eq toReg bytes, s.hostRead_eq_of_resolve_eq toReg len⟩
  · intro s a bytes len outside
    have toMem : (Target.bus a).resolve = (Target.mem a).resolve := by
      rw [Target.resolve_bus_outside_block outside, Target.resolve_mem]
    exact ⟨s.hostWrite_eq_of_resolve_eq toMem bytes, s.hostRead_eq_of_resolve_eq toMem len⟩

end Sys2Proof.Machine
end

section
/-! The fields of a word as its bits, and the fields of the opcode table (R90 to R93). -/

namespace Sys2Proof

/-- A field of rule R90 as bits of the word. -/
theorem bitField_eq_extractLsb (hi lo : Nat) (w : Word) : bitField hi lo w = (w.extractLsb hi lo).toNat := by
  rw [bitField, BitVec.extractLsb_toNat, Nat.shiftRight_eq_div_pow]

/-- Bit 8 of a word is its MD field (R90). -/
theorem mdField_of_bit {w : Word} (h : w.getLsbD 8 = true) : mdField w = 1 := by
  have hbit : w.toNat.testBit 8 = true := h
  rw [Nat.testBit_eq_decide_div_mod_eq, decide_eq_true_eq] at hbit
  exact hbit

/-- The OP of a command stands in the table of rule R91. -/
theorem Instr.op_assigned (i : Instr) : ¬(0x04 ≤ i.op ∧ i.op ≤ 0x0F) ∧ ¬0x16 ≤ i.op := by
  cases i <;> simp [Instr.op]

/-- Only the commands with a modifier have MD = 1 (R92). -/
theorem Instr.op_of_md {i : Instr} (h : i.md = 1) : i.op ∉ [0x00, 0x10, 0x11, 0x12, 0x13, 0x14] := by
  cases i <;> simp [Instr.op, Instr.md] at h ⊢

/-- Only STAGE has an S other than 0 (R93). -/
theorem Instr.op_of_s {i : Instr} (h : i.s ≠ 0) : i.op = 0x11 := by
  cases i <;> simp [Instr.op, Instr.s] at h ⊢

theorem decodeWord_encode {i : Instr} (h : i.WellFormed = true) : decodeWord (encode i) = .ok i :=
  (decodeWord_fields (encode i) i).mpr (encode_fields i h)

end Sys2Proof
end

section
/-! Completion of commands that pass their check, the report of illegal words, and the step of a unit in Check (R66,
R120, R131, R135, R136, R281). -/

namespace Sys2Proof.Machine

open Sys2Proof

/-! ### Illegal words (R97) -/

/-- The decoder rejects every word of rule R97. -/
theorem decodeWord_of_illegalWord {w : Word} (h : IllegalWord w) : ∃ e, decodeWord w = .error e := by
  cases hd : decodeWord w with
  | error e => exact ⟨e, rfl⟩
  | ok i =>
    exfalso
    obtain ⟨hlow, hhigh, hop, hmd, hs⟩ := (decodeWord_fields w i).mp hd
    have hopBits : opBits w = i.op := (bitField_eq_extractLsb 7 0 w).symm.trans hop
    have hsBits : sBits w = i.s := (bitField_eq_extractLsb 20 16 w).symm.trans hs
    rw [bitField_eq_extractLsb] at hlow hhigh
    unfold IllegalWord at h
    rw [hopBits, hsBits] at h
    rcases h with h | h | h | h | ⟨hbit, h⟩ | ⟨hne, h⟩
    · exact h (BitVec.eq_of_toNat_eq hlow)
    · exact h (BitVec.eq_of_toNat_eq hhigh)
    · exact i.op_assigned.1 h
    · exact i.op_assigned.2 h
    · exact Instr.op_of_md (hmd.symm.trans (mdField_of_bit hbit)) h
    · exact h (Instr.op_of_s hne)

/-! ### The step of a unit in Check (R120, R131) -/

/-- With no event due, a step is the unit's run. -/
theorem step_of_no_inputs {s : State} (h : s.inputs = []) : step s = unitRun s := by
  simp only [step, machineStep, h]

theorem step_of_check {s : State} {rest : List Phase} {i : Instr} (hin : s.inputs = []) (hph : s.ph = .run .check rest)
    (hd : decodeWord s.cmd = .ok i) : step s = exec i s := by
  simp only [step_of_no_inputs hin, unitRun, hph, hd, if_true]

theorem step_of_undecoded {s : State} {p : Phase} {rest : List Phase} {e : DecodeError} (hin : s.inputs = [])
    (hph : s.ph = .run p rest) (hd : decodeWord s.cmd = .error e) : step s = .next (s.complete .illegalCmd) := by
  simp only [step_of_no_inputs hin, unitRun, hph, hd, State.completeIllegal]

/-- A word of 32 bits is placed as it is. -/
theorem State.withFetchWord_toNat (s : State) (w : Word) :
    s.withFetchWord 32 w.toNat = State.launch { s with inputs := [] } w := by
  simp only [State.withFetchWord, State.launchNext, Nat.mod_eq_of_lt w.isLt, BitVec.ofNat_toNat, BitVec.setWidth_eq]

/-- Settles O54: with no event due the step is the unit's run, which in Check is exec of the decoded command or the
report of an illegal word. -/
theorem stepRunsLatchedCommand : Obligations.StepRunsLatchedCommand := by
  refine ⟨fun _ _ _ => step_of_check, fun _ _ _ _ => step_of_undecoded, fun s i hi => ?_⟩
  rw [s.withFetchWord_toNat]
  exact step_of_check (rest := []) rfl rfl (decodeWord_encode hi)

/-! ### Launch and report (R130, R281) -/

/-- A write of CMD while BUSY = 0 launches the word (R130). -/
theorem hostWrite_cmd {s : State} (h : s.busy = false) (w : Word) :
    s.hostWrite (.reg 0x08) (bytesOfWord w) = .next (s.launch w) := by
  have hstore : s.hostWriteRegister 0x08 (bytesOfWord w) = s.launch w := by
    simp only [State.hostWriteRegister, bytesOfWord]
    rw [wordOfBytes_bytesOfWord]
    simp [State.writeRegister, h, State.storeRegister]
  simp only [State.hostWrite, Target.resolve_reg]
  exact congrArg _ hstore

/-- Settles O38: the CMD write launches the word, the decoder rejects it, and the next step completes. -/
theorem illegalWordReported : Obligations.IllegalWordReported := by
  intro s w hbusy hin hw
  obtain ⟨e, he⟩ := decodeWord_of_illegalWord hw
  refine ⟨s.launch w, (s.launch w).complete .illegalCmd, hostWrite_cmd hbusy w,
    step_of_undecoded (p := .check) (rest := []) hin rfl he, ?_, rfl⟩
  rw [State.complete, State.launch, hbusy]

/-! ### Commands that pass their check (R66, R135, R136) -/

/-- The end of a command completes it (R134, R136), whatever its phases did within the registers' frame. -/
theorem SameInterface.completed_finishCommand {s u : State} (h : SameInterface s u) (i : Instr) (code : ErrCode) :
    Completed s (u.finishCommand i code) code where
  busy := u.finishCommand_busy i code
  done := u.finishCommand_done i code
  errcode := u.finishCommand_errcode i code
  idle := u.finishCommand_ph i code
  same := h.trans (finishCommand_same u i code)

/-- Settles O37: an accepted command is its phases' work and Finish, each of which keeps the registers and the bytes
outside the command's read-write regions. -/
theorem acceptedCommandsComplete : Obligations.AcceptedCommandsComplete := by
  intro i s hc hh
  have hsame : SameInterface s (applyPhases Config.trig i (phasesOf i s) (s.takeOperands i)) :=
    (takeOperands_same s i).trans (applyPhases_same _ _ _ _).toSameInterface
  refine ⟨_, exec_ok hc hh, hsame.completed_finishCommand i .ok, fun c hout => ?_,
    State.finishCommand_raced _ i .ok, ?_⟩
  · rw [State.finishCommand_mem, settleRace_leaves _ i (by rw [hsame.rwRegions, hout]), applyPhasesOf_leaves hc hout]
  · rw [State.finishCommand_unseen, hsame.rwRegions, applyPhases_unseen _ _ (phasesOf_ne_finish i s),
      State.takeOperands_unseen]

end Sys2Proof.Machine
end

section
/-! The invariant of the machine holds at reset and every step keeps it (R24, R40, R48, R62, R66, R76): what the
invariant needs of an Idle state, of a state inside a command, and of a state that a host access has changed. -/

namespace Sys2Proof.Machine

open Sys2Proof

/-! ### Reset (R48) -/

/-- Settles O18: every register but ID and PARAM is 0 at reset. -/
theorem resetRegisterValues : Obligations.ResetRegisterValues := by
  refine ⟨rfl, rfl, fun off h0 h4 => ?_, rfl, rfl, rfl⟩
  unfold State.readRegister
  split
  · exact absurd rfl h0
  · exact absurd rfl h4
  all_goals rfl

/-- An Idle unit that is not BUSY, with no race pending and a memory in canonical form, meets the invariant. -/
theorem State.Inv.of_idle {s : State} (hwf : Memory.wf s.mem = true) (hbound : Memory.below s.mem Config.memSize)
    (hbusy : s.busy = false) (hph : s.ph = .idle) (hraced : s.raced = false) : s.Inv where
  memWf := hwf
  memBound := hbound
  busyPhase := by simp [hbusy, hph]
  inPhase := by simp [hph]
  stuckIn := by simp [hph]
  notBoth := by simp [hbusy]
  busyCode := by simp [hbusy]
  raceBusy := by simp [hraced]

/-- Settles O52: the reset state is Idle and its memory lists nothing. -/
theorem resetMeetsInvariant : Obligations.ResetMeetsInvariant :=
  .of_idle rfl (fun _ h => nomatch h) rfl rfl rfl

/-! ### The memory space (R62) -/

/-- A memory in canonical form that reads as before beyond the bound lists nothing beyond it. -/
theorem Memory.below_of_kept {m m' : Memory} {n : Nat} (hwf : Memory.wf m = true) (hwf' : Memory.wf m' = true)
    (hb : Memory.below m n) (hkept : ∀ c, n ≤ c → Memory.readByte m' c = Memory.readByte m c) : Memory.below m' n :=
  (Memory.below_iff hwf').mpr fun c hc => (hkept c hc).trans ((Memory.below_iff hwf).mp hb c hc)

/-- A host write within a bound lists nothing beyond it. -/
theorem below_hostStore (racy : List Region) (d : Draw) {m : Memory} {n a : Nat} {bs : List Byte}
    (ha : bs = [] ∨ a + bs.length ≤ n) (h : Memory.below m n) : Memory.below (hostStore racy d m a bs) n := by
  induction bs generalizing m a with
  | nil => exact h
  | cons b bs ih =>
    simp only [List.cons_ne_nil, false_or, List.length_cons] at ha
    exact ih (.inr (by omega)) (Memory.below_writeByte _ (by omega) h)

/-- The regions of the running command lie in the memory space. -/
theorem runningRw_below (s : State) {c : Nat} (hc : Config.memSize ≤ c) : inRegions s.runningRw c = false := by
  unfold State.runningRw
  split
  · split
    · exact rwRegions_below hc
    · rfl
  · rfl

/-- The end of a race keeps the memory within the memory space. -/
theorem below_settleRace {s : State} (i : Instr) (hwf : Memory.wf s.mem = true)
    (hb : Memory.below s.mem Config.memSize) : Memory.below (s.settleRace i).mem Config.memSize :=
  Memory.below_of_kept hwf (wf_settleRace i hwf) hb fun _ hc => settleRace_leaves s i (rwRegions_below hc)

/-! ### Races (R66, R76) -/

/-- A host write that touches a region has a region to touch. -/
theorem ne_nil_of_touches {rs : List Region} {a len : Nat} (h : touches rs a len = true) : rs ≠ [] := by
  rintro rfl
  simp [touches, inRegions] at h

/-- Only a running command that passes its check has regions (R66). -/
theorem running_of_regions {s : State} (h : s.runningRw ++ s.runningRo ≠ []) :
    s.busy = true ∧ ∃ i, decodeWord s.cmd = .ok i ∧ check i s = .ok := by
  unfold State.runningRw State.runningRo at h
  cases hb : s.busy with
  | false => simp [hb] at h
  | true =>
    cases hd : decodeWord s.cmd with
    | error e => simp [hb, hd] at h
    | ok i =>
      refine ⟨rfl, i, rfl, ?_⟩
      by_contra hc
      simp [hb, hd, State.rwRegions, State.roRegions, hc] at h

/-! ### The latched command and its operands -/

/-- Two states with one latched command, its operands and the platform's holes: all that says which phase a command
is in and which accesses are answered. -/
structure SameCommand (s t : State) : Prop where
  operands : SameOperands s { t with ovr := s.ovr, doneIe := s.doneIe, inputs := s.inputs, hostData := s.hostData }

section
variable {s t : State} (h : SameCommand s t)
include h

theorem SameCommand.len : t.len = s.len := (h.operands.len :)

theorem SameCommand.cmd : t.cmd = s.cmd := (h.operands.cmd :)

theorem SameCommand.n : t.n = s.n := (h.operands.n :)

theorem SameCommand.mlen : t.mlen = s.mlen := (h.operands.mlen :)

theorem SameCommand.check (i : Instr) : check i t = check i s := (h.operands.check i :)

theorem SameCommand.phaseAdmitted (p : Phase) : phaseAdmitted p t = phaseAdmitted p s := (h.operands.phaseAdmitted p :)

end

theorem SameOperands.sameCommand {s t : State} (h : SameOperands s t) : SameCommand s t :=
  ⟨⟨⟨rfl, rfl, h.len, h.xre, h.xim, h.yre, h.yim, h.scr, h.scrsz, h.cmd, h.holes, rfl, rfl⟩, h.n, h.mlen⟩⟩

/-- The phases of a command depend on LEN alone (R42). -/
theorem phasesOf_congr {s t : State} (h : t.len = s.len) (i : Instr) : phasesOf i t = phasesOf i s := by
  cases i <;> simp only [phasesOf, phasesNop, phasesDftF, phasesDftI, phasesFft2F, phasesFft2I, phasesBlueF,
    phasesBlueI, phasesBitrev, phasesStage, phasesConj, phasesScale, phasesCmul, phasesChirpN, phasesChirpP, h]

theorem State.InPhase.congr {s t : State} {p : Phase} {rest : List Phase} {i : Instr} (h : s.InPhase p rest i)
    (hs : SameCommand s t) : t.InPhase p rest i where
  decoded := by rw [hs.cmd, h.decoded]
  checked := (hs.check i).trans h.checked
  length hi := by rw [hs.n, hs.len, h.length hi]
  padded := by
    rw [hs.mlen, hs.len]
    exact h.padded
  order := by
    rw [phasesOf_congr hs.len i]
    exact h.order

/-- The phase after the one a command is in. -/
theorem State.InPhase.next {s : State} {p q : Phase} {rest : List Phase} {i : Instr} (h : s.InPhase p (q :: rest) i) :
    s.InPhase q rest i :=
  ⟨h.decoded, h.checked, h.length, h.padded, (List.suffix_cons p (q :: rest)).trans h.order⟩

/-- A unit in a phase of its command meets the invariant when its memory and STATUS do. -/
theorem State.InPhase.inv {s : State} {p : Phase} {rest : List Phase} {i : Instr} (h : s.InPhase p rest i)
    (hph : s.ph = .run p rest ∨ (s.ph = .stuck p rest ∧ phaseAdmitted p s = false))
    (hwf : Memory.wf s.mem = true) (hbound : Memory.below s.mem Config.memSize) (hbusy : s.busy = true)
    (hdone : s.done = false) (hcode : s.errcode = .ok) : s.Inv where
  memWf := hwf
  memBound := hbound
  busyPhase := by rcases hph with hph | ⟨hph, -⟩ <;> simp [hbusy, hph]
  inPhase q rest' hq := by
    rcases hph with hph | ⟨hph, -⟩
    · obtain ⟨rfl, rfl⟩ := PH.run.inj (hph.symm.trans hq)
      exact .inr ⟨i, h⟩
    · exact PH.noConfusion (hph.symm.trans hq)
  stuckIn q rest' hq := by
    rcases hph with hph | ⟨hph, hadm⟩
    · exact PH.noConfusion (hph.symm.trans hq)
    · obtain ⟨rfl, rfl⟩ := PH.stuck.inj (hph.symm.trans hq)
      exact ⟨⟨i, h⟩, hadm⟩
  notBoth := by simp [hdone]
  busyCode _ := hcode
  raceBusy _ := ⟨hbusy, i, h.decoded, h.checked⟩

/-! ### The unit's steps (R40, R134, R136) -/

/-- A unit whose sequencer runs is BUSY, with DONE and ERRCODE 0 (R24). -/
theorem State.Inv.status_of_run {s : State} {p : Phase} {rest : List Phase} (h : s.Inv) (hph : s.ph = .run p rest) :
    s.busy = true ∧ s.done = false ∧ s.errcode = .ok := by
  have hbusy : s.busy = true := h.busyPhase.mpr (by simp [hph])
  exact ⟨hbusy, by simpa [hbusy] using h.notBoth, h.busyCode hbusy⟩

theorem State.Inv.below {s : State} (h : s.Inv) : Memory.below s.mem Config.memSize := h.memBound

/-- The end of a command keeps the invariant. -/
theorem State.Inv.finishCommand {s : State} (h : s.Inv) (i : Instr) (code : ErrCode) : (s.finishCommand i code).Inv :=
  .of_idle (by simpa using wf_settleRace i h.memWf) (by simpa using below_settleRace i h.memWf h.memBound)
    (by simp) (by simp) (by simp)

/-- The report of an illegal word keeps the invariant: no race is pending for a word that is no command. -/
theorem State.Inv.completeIllegal {s : State} {e : DecodeError} (h : s.Inv) (hd : decodeWord s.cmd = .error e) :
    (s.complete .illegalCmd).Inv := by
  refine .of_idle h.memWf h.memBound rfl rfl ?_
  cases hr : s.raced with
  | false => exact hr
  | true =>
    obtain ⟨-, i, hi, -⟩ := h.raceBusy hr
    exact nomatch hd.symm.trans hi

section
variable {s : State} {p : Phase} {rest : List Phase} {i : Instr} (t : Config.Trig)

/-- A phase of a command keeps the memory within the memory space. -/
theorem State.Inv.below_doPhase (h : s.Inv) (hp : s.InPhase p rest i) :
    Memory.below (doPhase t i p s).mem Config.memSize :=
  Memory.below_of_kept h.memWf (wf_doPhase t i p h.memWf) h.memBound fun _ hc => hp.leaves t (rwRegions_below hc)

/-- After a phase that is not the last the unit is in the next one. -/
theorem State.InPhase.advance {q : Phase} (hp : s.InPhase p (q :: rest) i) :
    (advance t i p (q :: rest) s).InPhase q rest i :=
  have hmoved : SameOperands (doPhase t i p s) (Machine.advance t i p (q :: rest) s) :=
    ⟨by constructor <;> rfl, rfl, rfl⟩
  hp.next.congr ((doPhase_same t i p s).trans hmoved).sameCommand

/-- A whole phase and the move to the next keep the invariant. -/
theorem State.Inv.advance (h : s.Inv) (hph : s.ph = .run p rest) (hp : s.InPhase p rest i) :
    (advance t i p rest s).Inv := by
  rcases hp.phase with ⟨rfl, rfl⟩ | ⟨hne, hrest, -⟩
  · exact h.finishCommand i .ok
  · obtain ⟨q, rest, rfl⟩ := List.exists_cons_of_ne_nil hrest
    obtain ⟨hbusy, hdone, hcode⟩ := h.status_of_run hph
    obtain ⟨kbusy, kdone, kcode, -, -⟩ := doPhase_status t i hne s
    exact (hp.advance t).inv (.inl rfl) (wf_doPhase t i p h.memWf) (h.below_doPhase t hp) (kbusy.trans hbusy)
      (kdone.trans hdone) (kcode.trans hcode)

/-- A phase that stops at a refused access keeps the invariant (R68). -/
theorem State.Inv.stopPhase (h : s.Inv) (hph : s.ph = .run p rest) (hp : s.InPhase p rest i)
    (hadm : phaseAdmitted p s = false) :
    (Machine.stopPhase t i p rest s).Inv := by
  have hne : p ≠ .finish := by
    rintro rfl
    exact nomatch hadm.symm.trans (phaseAdmitted_finish s)
  have hsame := (stopPhase_same t i p rest s).sameCommand
  have hwf : Memory.wf (Machine.stopPhase t i p rest s).mem = true := wf_copyWrites _ _ h.memWf
  obtain ⟨hbusy, hdone, hcode⟩ := h.status_of_run hph
  obtain ⟨kbusy, kdone, kcode, -⟩ := stopPhase_status t i hne rest s
  exact (hp.congr hsame).inv (.inr ⟨rfl, (hsame.phaseAdmitted p).trans hadm⟩) hwf
    (Memory.below_of_kept h.memWf hwf h.memBound fun _ hc =>
      stopPhase_leaves t i p rest (hp.leaves t (rwRegions_below hc)))
    (kbusy.trans hbusy) (kdone.trans hdone) (kcode.trans hcode)

/-- The phases of a command from the one the sequencer is in. -/
theorem runPhases_of_run (hph : s.ph = .run p rest) :
    runPhases t i (p :: rest) s =
      if phaseAdmitted p s then runPhases t i rest (Machine.advance t i p rest s)
      else Machine.stopPhase t i p rest s := by
  rw [runPhases, ← hph]

/-- The phases of a command from the one it is in keep the invariant, to completion or to a refused access. -/
theorem State.Inv.runPhases (h : s.Inv) (hph : s.ph = .run p rest) (hp : s.InPhase p rest i) :
    (Machine.runPhases t i (p :: rest) s).Inv := by
  induction rest generalizing s p with
  | nil =>
    rw [runPhases_of_run t hph]
    split
    case isTrue => exact h.advance t hph hp
    case isFalse hadm => exact h.stopPhase t hph hp (by simpa using hadm)
  | cons q rest ih =>
    rw [runPhases_of_run t hph]
    split
    case isTrue => exact ih (h.advance t hph hp) rfl (hp.advance t)
    case isFalse hadm => exact h.stopPhase t hph hp (by simpa using hadm)

end

/-- A phase that the invariant finds the sequencer in, other than Check, is one of the latched command. -/
theorem State.Inv.inPhase_of_run {s : State} {p : Phase} {rest : List Phase} {i : Instr} (h : s.Inv)
    (hph : s.ph = .run p rest) (hp : p ≠ .check) (hd : decodeWord s.cmd = .ok i) : s.InPhase p rest i := by
  obtain ⟨hcheck, -⟩ | ⟨j, hj⟩ := h.inPhase p rest hph
  · exact absurd hcheck hp
  · obtain rfl : i = j := Except.ok.inj (hd.symm.trans hj.decoded)
    exact hj

/-! ### The Check phase (R131, R132, R134) -/

section
variable {s : State} {i : Instr}

theorem beginCommand_ok (hc : check i s = .ok) (ps : List Phase) :
    beginCommand i ps s = { s.takeOperands i with ph := PH.ofList (ps ++ [.finish]) } := by
  simp only [beginCommand, hc]

theorem beginCommand_error (hc : check i s ≠ .ok) (ps : List Phase) :
    beginCommand i ps s = s.finishCommand i (check i s) := by
  unfold beginCommand
  split
  case h_1 h => exact absurd h hc
  case h_2 => rfl

/-- A command that passes its check runs its phases from the state that Check leaves. -/
theorem runCommand_eq_runPhases (t : Config.Trig) (hc : check i s = .ok) (ps : List Phase) :
    runCommand t i ps s = runPhases t i (ps ++ [.finish]) (beginCommand i ps s) := by
  rw [beginCommand_ok hc]
  simp only [runCommand, hc]
  cases ps <;> rfl

/-- After a passed check the operands stand in n and M (R42, R132), so the unit can be in the command's first phase. -/
theorem inPhase_takeOperands {q : Phase} {rest : List Phase} (hd : decodeWord s.cmd = .ok i) (hc : check i s = .ok)
    (hps : phasesOf i s ++ [.finish] = q :: rest) : (s.takeOperands i).InPhase q rest i where
  decoded := by rw [State.takeOperands_cmd, hd]
  checked := ((takeOperands_same s i).check i).trans hc
  length hi := by rw [State.takeOperands_n_of_ne s i hi, State.takeOperands_len]
  padded hb := by
    rw [State.takeOperands_len] at hb ⊢
    have hi : i ≠ .nop := by
      rintro rfl
      exact nomatch hb
    exact (check_passed hi hc).mlen hi hb
  order := by rw [phasesOf_takeOperands, hps]

/-- A command that passes its check leaves Check for the first of its phases. -/
theorem beginCommand_inPhase (hd : decodeWord s.cmd = .ok i) (hc : check i s = .ok) :
    ∃ q rest, phasesOf i s ++ [.finish] = q :: rest ∧ (beginCommand i (phasesOf i s) s).ph = .run q rest ∧
      (beginCommand i (phasesOf i s) s).InPhase q rest i := by
  obtain ⟨q, rest, hps⟩ := List.exists_cons_of_ne_nil (List.append_ne_nil_of_right_ne_nil (phasesOf i s)
    (List.cons_ne_nil Phase.finish []))
  rw [beginCommand_ok hc, hps]
  exact ⟨q, rest, rfl, rfl, (inPhase_takeOperands hd hc hps).congr ⟨⟨by constructor <;> rfl, rfl, rfl⟩⟩⟩

/-- The Check phase keeps the invariant. -/
theorem State.Inv.beginCommand {rest : List Phase} (h : s.Inv) (hph : s.ph = .run .check rest)
    (hd : decodeWord s.cmd = .ok i) : (Machine.beginCommand i (phasesOf i s) s).Inv := by
  by_cases hc : check i s = .ok
  · obtain ⟨q, rest', -, hrun, hp⟩ := beginCommand_inPhase hd hc
    obtain ⟨hbusy, hdone, hcode⟩ := h.status_of_run hph
    rw [beginCommand_ok hc] at hrun hp ⊢
    exact hp.inv (.inl hrun) (by simpa using h.memWf) (by simpa using h.below) (by simpa using hbusy)
      (by simpa using hdone) (by simpa using hcode)
  · rw [beginCommand_error hc]
    exact h.finishCommand i _

/-- A command run whole from its Check phase keeps the invariant. -/
theorem State.Inv.runCommand {rest : List Phase} (t : Config.Trig) (h : s.Inv) (hph : s.ph = .run .check rest)
    (hd : decodeWord s.cmd = .ok i) : (Machine.runCommand t i (phasesOf i s) s).Inv := by
  by_cases hc : check i s = .ok
  · obtain ⟨q, rest', hps, hrun, hp⟩ := beginCommand_inPhase hd hc
    rw [runCommand_eq_runPhases t hc, hps]
    exact (h.beginCommand hph hd).runPhases t hrun hp
  · rw [runCommand_error t hc]
    exact h.finishCommand i _

end

/-! ### The unit's move (R120) -/

theorem State.Inv.unitRun {s t : State} (h : s.Inv) (ht : unitRun s = .next t) : t.Inv := by
  obtain ⟨-, rfl⟩ | ⟨p, rest, e, -, hd, rfl⟩ | ⟨rest, i, hph, hd, hexec⟩ | ⟨p, rest, i, hph, hp, hd, rfl⟩ :=
    unitRun_cases ht
  · exact h
  · exact h.completeIllegal hd
  · obtain rfl := Host.Outcome.next.inj ((exec_eq i s).symm.trans hexec)
    exact h.runCommand Config.trig hph hd
  · exact h.runPhases Config.trig hph (h.inPhase_of_run hph hp hd)

theorem State.Inv.unitStep {s : State} (h : s.Inv) (tr : Config.Trig) : (unitStep tr s).Inv := by
  obtain ⟨-, ht⟩ | ⟨p, rest, e, -, hd, ht⟩ | ⟨rest, i, hph, hd, ht⟩ | ⟨p, rest, i, hph, hp, hd, ht⟩ :=
    unitStep_cases tr s
  all_goals rw [ht]
  · exact h
  · exact h.completeIllegal hd
  · exact h.beginCommand hph hd
  · have hin := h.inPhase_of_run hph hp hd
    split
    case isTrue => exact h.advance tr hph hin
    case isFalse hadm => exact h.stopPhase tr hph hin (by simpa using hadm)

/-! ### Host accesses and reset (R76, R120, R310) -/

/-- A change by the host that leaves the sequencer, its command, BUSY and ERRCODE, sets no DONE, keeps the memory in
form and marks a race only with a running command that has regions. -/
theorem State.Inv.of_host {s t : State} (h : s.Inv) (hs : SameCommand s t) (hph : t.ph = s.ph)
    (hbusy : t.busy = s.busy) (hcode : t.errcode = s.errcode) (hdone : t.done = true → s.done = true)
    (hwf : Memory.wf t.mem = true) (hbound : Memory.below t.mem Config.memSize)
    (hraced : t.raced = true → s.busy = true ∧ ∃ i, decodeWord s.cmd = .ok i ∧ check i s = .ok) : t.Inv where
  memWf := hwf
  memBound := hbound
  busyPhase := by rw [hbusy, hph, h.busyPhase]
  inPhase p rest hp := (h.inPhase p rest (hph ▸ hp)).imp id fun ⟨i, hi⟩ => ⟨i, hi.congr hs⟩
  stuckIn p rest hp := by
    obtain ⟨⟨i, hi⟩, hadm⟩ := h.stuckIn p rest (hph ▸ hp)
    exact ⟨⟨i, hi.congr hs⟩, (hs.phaseAdmitted p).trans hadm⟩
  notBoth hboth := h.notBoth ⟨hbusy ▸ hboth.1, hdone hboth.2⟩
  busyCode hb := hcode.trans (h.busyCode (hbusy ▸ hb))
  raceBusy hr := by
    obtain ⟨hb, i, hd, hc⟩ := hraced hr
    exact ⟨hbusy.trans hb, i, by rw [hs.cmd, hd], (hs.check i).trans hc⟩

/-- OVR, IRQEN, a DONE that is not set, the pending events and the model's records of the host are nothing that the
invariant speaks of. -/
theorem State.Inv.hostFields {s : State} {ovr doneIe done : Bool} {inputs : List Event} {hostData : List Byte}
    {unseen : List Region} {draws : Nat} (h : s.Inv) (hdone : done = true → s.done = true) :
    ({ s with ovr := ovr, doneIe := doneIe, done := done, inputs := inputs, hostData := hostData, unseen := unseen,
              draws := draws } : State).Inv :=
  h.of_host ⟨⟨by constructor <;> rfl, rfl, rfl⟩⟩ rfl rfl rfl hdone h.memWf h.memBound h.raceBusy

/-- A unit that is not BUSY is Idle and no race is pending. -/
theorem State.Inv.idle {s : State} (h : s.Inv) (hbusy : s.busy = false) : s.ph = .idle ∧ s.raced = false := by
  constructor
  · by_contra hph
    exact nomatch hbusy.symm.trans (h.busyPhase.mpr hph)
  · cases hr : s.raced with
    | false => rfl
    | true => exact nomatch hbusy.symm.trans (h.raceBusy hr).1

/-- A launch from Idle puts the unit in Check (R130). -/
theorem State.Inv.launch {s : State} (h : s.Inv) (hbusy : s.busy = false) (c : Word) : (s.launch c).Inv where
  memWf := h.memWf
  memBound := h.memBound
  busyPhase := by simp
  inPhase p rest hp := by
    obtain ⟨rfl, rfl⟩ := PH.run.inj hp
    exact .inl ⟨rfl, rfl⟩
  stuckIn p rest hp := PH.noConfusion hp
  notBoth := by simp
  busyCode _ := rfl
  raceBusy hr := nomatch (h.idle hbusy).2.symm.trans hr

/-- A register write of the host keeps the invariant. -/
theorem State.Inv.hostWriteRegister {s : State} (h : s.Inv) (off : Nat) (bytes : List Byte) :
    (s.hostWriteRegister off bytes).Inv := by
  obtain ht | ⟨-, ht⟩ | ⟨hbusy, c, ht⟩ | ⟨v, ht⟩ | ⟨v, ht⟩ | ⟨hbusy, _, _, _, _, _, _, _, ht⟩ :=
    hostWriteRegister_cases s off bytes
  all_goals rw [ht]
  case inl => exact h
  case inr.inl =>
    exact h.hostFields id
  case inr.inr.inl => exact h.launch hbusy c
  case inr.inr.inr.inl =>
    exact h.hostFields fun hd => (Bool.and_eq_true_iff.mp hd).1
  case inr.inr.inr.inr.inl =>
    exact h.hostFields id
  case inr.inr.inr.inr.inr =>
    exact .of_idle h.memWf h.memBound hbusy (h.idle hbusy).1 (h.idle hbusy).2

/-- A host access that the platform answers lies in the memory space, unless it has no byte (R62). -/
theorem fits_of_answers {s : State} {a : Nat} {bytes : List Byte} {w : Bool}
    (h : s.answers ⟨a, bytes.length, w⟩ = true) : bytes = [] ∨ a + bytes.length ≤ Config.memSize := by
  simp only [State.answers, Bool.and_eq_true, Bool.or_eq_true, decide_eq_true_eq, List.length_eq_zero_iff] at h
  exact h.1

theorem State.Inv.hostRead {s t : State} {g : Target} {len : Nat} (h : s.Inv) (ht : s.hostRead g len = .next t) :
    t.Inv := by
  rw [hostRead_cases ht]
  exact h.hostFields id

theorem State.Inv.hostWrite {s t : State} {g : Target} {bytes : List Byte} (h : s.Inv)
    (ht : s.hostWrite g bytes = .next t) : t.Inv := by
  obtain ⟨off, rfl⟩ | ⟨a, hans, rfl⟩ := hostWrite_cases ht
  · exact h.hostWriteRegister off.toNat bytes
  · refine h.of_host ⟨⟨by constructor <;> rfl, rfl, rfl⟩⟩ rfl rfl rfl id (wf_hostStore _ _ _ _ h.memWf)
      (below_hostStore _ _ (fits_of_answers hans) h.memBound) fun hr => ?_
    rcases Bool.or_eq_true_iff.mp hr with hr | hr
    · exact h.raceBusy hr
    · exact running_of_regions (ne_nil_of_touches hr)

/-- Reset leaves free values in the regions of an abandoned command only, and those lie in the memory space (R312). -/
theorem State.Inv.resetUnit {s : State} (h : s.Inv) : s.resetUnit.Inv :=
  have hwf := Memory.wf_havoc [s.draws, 6] s.runningRw h.memWf
  .of_idle hwf
    (Memory.below_of_kept h.memWf hwf h.memBound fun _ hc => Memory.readByte_havoc _ _ _ (runningRw_below s hc))
    rfl rfl rfl

/-- Every event of the host and the platform keeps the invariant. -/
theorem State.Inv.handle {s t : State} {e : Event} (h : s.Inv) (ht : s.handle e = .next t) : t.Inv := by
  cases e with
  | read g len => exact h.hostRead ht
  | write g bytes => exact h.hostWrite ht
  | wait => exact h.hostRead (g := .reg 0x0C) ht
  | unit => exact Host.Outcome.next.inj ht ▸ h.unitStep Config.trig
  | reset => exact Host.Outcome.next.inj ht ▸ h.resetUnit

/-- Settles O53: a step is the unit's move or one event, and each keeps the invariant. -/
theorem stepKeepsInvariant : Obligations.StepKeepsInvariant := by
  intro s t h ht
  obtain ⟨-, hrun⟩ | ⟨_, -, -, hrun⟩ | ⟨rest, -, -, rfl⟩ | ⟨e, rest, -, -, hev⟩ := step_cases ht
  · exact h.unitRun hrun
  · exact h.unitRun hrun
  · exact h.hostFields id
  · exact State.Inv.handle (h.hostFields id) hev

end Sys2Proof.Machine
end

section
/-! The byte order (R60): the bytes of a word, in a list and in memory, and the decoder on the bytes of a word (R94). -/

namespace Sys2Proof

/-- Byte k of a word is its bits 8k+7:8k (R60). -/
theorem bytesOfWord_getElem? (w : Word) {k : Nat} (hk : k < 4) :
    (bytesOfWord w)[k]? = some (w.extractLsb' (8 * k) 8) := by
  obtain rfl | rfl | rfl | rfl : k = 0 ∨ k = 1 ∨ k = 2 ∨ k = 3 := by omega
  all_goals
    refine congrArg some (BitVec.eq_of_toNat_eq ?_)
    simp [BitVec.extractLsb'_toNat, Nat.shiftRight_eq_div_pow]

/-- The word put together from four bytes has those bytes (R60). -/
theorem bytesOfWord_wordOfBytes (b0 b1 b2 b3 : Byte) : bytesOfWord (wordOfBytes b0 b1 b2 b3) = [b0, b1, b2, b3] := by
  have h0 := b0.isLt
  have h1 := b1.isLt
  have h2 := b2.isLt
  have h3 := b3.isLt
  simp only [bytesOfWord, wordOfBytes, List.cons.injEq, and_true]
  refine ⟨?_, ?_, ?_, ?_⟩
  all_goals
    apply BitVec.eq_of_toNat_eq
    simp only [BitVec.toNat_ofNat]
    omega

/-- The decoder on the four bytes of a word and what follows them (R94). -/
theorem decode_bytesOfWord {w : Word} {i : Instr} (h : decodeWord w = .ok i) (rest : List Byte) :
    decode (bytesOfWord w ++ rest) = .ok (i, rest) := by
  simp only [bytesOfWord, List.cons_append, List.nil_append, decode]
  rw [Machine.wordOfBytes_bytesOfWord, h]

theorem decodeTableWord_toNat {w : Word} {i : Instr} (h : decodeWord w = .ok i) :
    decodeTableWord 32 w.toNat = some i := by
  have hdecode := decode_bytesOfWord h []
  rw [List.append_nil] at hdecode
  have hlt : ¬ 2 ^ 32 ≤ w.toNat := Nat.not_le.mpr w.isLt
  simp only [decodeTableWord, Nat.mod_eq_of_lt w.isLt, if_neg hlt, BitVec.ofNat_toNat, BitVec.setWidth_eq, hdecode]

namespace Machine

/-- A word read from memory has the byte at `a + k` in its bits 8k+7:8k (R60). -/
theorem Memory.extractLsb'_read32 (m : Memory) (a : Nat) {k : Nat} (hk : k < 4) :
    (Memory.read32 m a).extractLsb' (8 * k) 8 = Memory.readByte m (a + k) := by
  have h := bytesOfWord_getElem? (Memory.read32 m a) hk
  rw [Memory.read32, bytesOfWord_wordOfBytes] at h
  obtain rfl | rfl | rfl | rfl : k = 0 ∨ k = 1 ∨ k = 2 ∨ k = 3 := by omega
  all_goals exact (Option.some.inj h).symm

/-- Settles O5: the decoder sees the word its bytes make up, and the bytes of a word in memory are those a read of the
word puts together. -/
theorem bytesDecodeBack : Obligations.BytesDecodeBack := by
  refine ⟨fun i rest hi => ?_, fun w => ⟨rfl, fun _ => bytesOfWord_getElem? w⟩, fun m a _ => m.extractLsb'_read32 a,
    fun m a k v hk => ?_⟩
  · have hd := decodeWord_encode hi
    exact ⟨decode_bytesOfWord hd rest, decodeTableWord_toNat hd⟩
  · rw [← Memory.extractLsb'_read32 _ a hk, Memory.read32_write32_same]

end Machine

end Sys2Proof
end

section
/-! Host accesses of memory (R71, R76): the bytes a read returns and a write stores, races with the running command, and
what the events of a careful host leave (R320, R321). -/

namespace Sys2Proof.Machine

open Sys2Proof

/-! ### What a write stores -/

/-- An access touches a region with its first byte or with those after it. -/
theorem touches_succ (rs : List Region) (a len : Nat) :
    touches rs a (len + 1) = (inRegions rs a || touches rs (a + 1) len) := by
  have hshift : ((fun k => inRegions rs (a + k)) ∘ Nat.succ) = fun k => inRegions rs (a + 1 + k) := by
    funext k
    exact congrArg (inRegions rs) (by omega)
  rw [touches, List.range_succ_eq_map, List.any_cons, List.any_map, hshift]
  rfl

/-- A write outside the regions of the running command is plain memory (R76). -/
theorem hostStore_eq_writeBytes {racy : List Region} (d : Draw) (m : Memory) {a : Nat} {bs : List Byte}
    (h : touches racy a bs.length = false) : hostStore racy d m a bs = Memory.writeBytes m a bs := by
  induction bs generalizing m a with
  | nil => rfl
  | cons b bs ih =>
    rw [List.length_cons, touches_succ, Bool.or_eq_false_iff] at h
    obtain ⟨hhead, htail⟩ := h
    simp only [hostStore, Memory.writeBytes, hhead, Bool.false_eq_true, if_false]
    exact ih _ htail

/-- A host write changes no byte it does not write (R76). -/
theorem readByte_hostStore_outside (racy : List Region) (d : Draw) (m : Memory) {a : Nat} {bs : List Byte} {c : Nat}
    (h : c < a ∨ a + bs.length ≤ c) : Memory.readByte (hostStore racy d m a bs) c = Memory.readByte m c := by
  induction bs generalizing m a with
  | nil => rfl
  | cons b bs ih =>
    rw [List.length_cons] at h
    rw [hostStore, ih _ (by omega), Memory.readByte_writeByte_ne _ _ (by omega)]

/-- Bytes written at rising addresses stand there. -/
theorem Memory.readByte_writeBytes_inside (m : Memory) (a : Nat) {bs : List Byte} {k : Nat} {b : Byte}
    (h : bs[k]? = some b) : Memory.readByte (Memory.writeBytes m a bs) (a + k) = b := by
  induction bs generalizing m a k with
  | nil => simp at h
  | cons b' bs ih =>
    cases k with
    | zero =>
      rw [Memory.writeBytes, Memory.readByte_writeBytes_outside _ _ _ (by omega), Nat.add_zero,
        Memory.readByte_writeByte_same]
      simpa using h
    | succ k =>
      rw [Memory.writeBytes, ← ih (Memory.writeByte m a b') (a + 1) (by simpa using h), Nat.add_right_comm,
        Nat.add_assoc]

/-! ### What a read returns -/

@[simp] theorem State.hostBytes_length (s : State) (a len : Nat) : (s.hostBytes a len).length = len := by
  induction len generalizing a with
  | zero => rfl
  | succ len ih => rw [State.hostBytes, List.length_cons, ih]

theorem State.hostBytes_getElem? (s : State) {a len k : Nat} (hk : k < len) :
    (s.hostBytes a len)[k]? = some (s.hostByte (a + k)) := by
  induction len generalizing a k with
  | zero => omega
  | succ len ih =>
    cases k with
    | zero => rfl
    | succ k =>
      rw [State.hostBytes, List.getElem?_cons_succ, ih (Nat.lt_of_succ_lt_succ hk), Nat.add_right_comm, Nat.add_assoc]

/-- A byte read where the read is no race is the memory's (R71, R76). -/
theorem State.hostByte_of_not_racy {s : State} {a : Nat} (h : inRegions s.racyReads a = false) :
    s.hostByte a = Memory.readByte s.mem a := by
  simp only [State.hostByte, h, Bool.false_eq_true, if_false]

/-- A read that is no race returns the bytes of memory (R71, R76). -/
theorem State.hostBytes_eq_readBytes {s : State} {a len : Nat} (h : touches s.racyReads a len = false) :
    s.hostBytes a len = Memory.readBytes s.mem a len := by
  induction len generalizing a with
  | zero => rfl
  | succ len ih =>
    rw [touches_succ, Bool.or_eq_false_iff] at h
    obtain ⟨hhead, htail⟩ := h
    rw [State.hostBytes, Memory.readBytes, State.hostByte_of_not_racy hhead, ih htail]

/-- With no command running and no result unseen, no read is a race (R71, R76). -/
theorem State.touches_racyReads {s : State} (hbusy : s.busy = false) (hseen : s.unseen = []) (a len : Nat) :
    touches s.racyReads a len = false := by
  simp [touches, inRegions, State.racyReads, State.runningRw, hbusy, hseen]

/-! ### Host accesses that the platform answers -/

theorem hostWrite_mem {s : State} {a : Nat} {bytes : List Byte} (h : s.answers ⟨a, bytes.length, true⟩ = true) :
    s.hostWrite (.mem a) bytes =
      .next
        { s with
          mem := hostStore (s.runningRw ++ s.runningRo) [s.draws, 5] s.mem a bytes
          raced := s.raced || touches (s.runningRw ++ s.runningRo) a bytes.length
          draws := s.draws + 1 } := by
  simp only [State.hostWrite, Target.resolve_mem, State.hostWriteMemory, h, if_true]

theorem hostRead_mem {s : State} {a len : Nat} (h : s.answers ⟨a, len, false⟩ = true) :
    s.hostRead (.mem a) len = .next { s with hostData := s.hostBytes a len, draws := s.draws + 1 } := by
  simp only [State.hostRead, Target.resolve_mem, State.hostReadMemory, h, if_true]

/-- A memory read that answers gives the bytes the host may read. -/
theorem hostData_of_hostRead_mem {s t : State} {a len : Nat} (h : s.hostRead (.mem a) len = .next t) :
    t.hostData = s.hostBytes a len := by
  simp only [State.hostRead, Target.resolve_mem, State.hostReadMemory] at h
  split at h
  · rw [← Host.Outcome.next.inj h]
  · cases h

/-- Settles O30: an access outside the racy regions reads and writes the memory's own bytes, and a read of DONE = 1
while Idle leaves no racy region. -/
theorem hostMemoryIsPlain : Obligations.HostMemoryIsPlain := by
  refine ⟨fun s a bytes hans hclear => ?_, fun s a len hans => ?_, fun s a len hbusy hdone hans => ?_⟩
  · refine ⟨_, hostWrite_mem hans, by simp only [hclear, Bool.or_false], fun k b hb => ?_,
      fun c hc => readByte_hostStore_outside _ _ _ hc⟩
    simp only [hostStore_eq_writeBytes _ _ hclear]
    exact Memory.readByte_writeBytes_inside _ _ hb
  · refine ⟨_, hostRead_mem hans, rfl, s.hostBytes_length a len, fun k b hb hout => ?_⟩
    have hk : k < len := by
      simpa using (List.getElem?_eq_some_iff.mp hb).1
    rw [← State.hostByte_of_not_racy hout]
    exact Option.some.inj (hb.symm.trans (s.hostBytes_getElem? hk))
  · have hseen : (s.hostReadRegister 0x0C 4).unseen = [] := by rw [hostReadRegister_status hdone]
    have hplain := State.touches_racyReads (s := s.hostReadRegister 0x0C 4) hbusy hseen a len
    exact ⟨s.hostReadRegister 0x0C 4, _, rfl, hostRead_mem hans, rfl, State.hostBytes_eq_readBytes hplain⟩

/-- Settles O31: the racing write reaches only its own bytes, and the free values at completion reach only the
read-write regions. -/
theorem racingWriteStaysInRegions : Obligations.RacingWriteStaysInRegions := by
  refine ⟨fun s a bytes hans htouch => ?_, fun i s hc hh _ => ?_⟩
  · exact ⟨_, hostWrite_mem hans, by simp only [htouch, Bool.or_true], rfl,
      fun c hc => readByte_hostStore_outside _ _ _ hc⟩
  · obtain ⟨t, hexec, hdone, hbytes, hraced, -⟩ := acceptedCommandsComplete i s hc hh
    exact ⟨t, hexec, hdone, hraced, hbytes⟩

/-! ### OVR and the race mark through an event -/

/-- A register write that the busy rule does not drop stores a word or does nothing (R121, R125). -/
theorem hostWriteRegister_of_not_dropped {s : State} {off : Nat} (h : (s.busy && busyGuarded off) = false)
    (bytes : List Byte) :
    s.hostWriteRegister off bytes = s ∨ ∃ v, s.hostWriteRegister off bytes = s.storeRegister off v := by
  unfold State.hostWriteRegister
  split
  · rename_i b0 b1 b2 b3
    split
    · refine .inr ⟨wordOfBytes b0 b1 b2 b3, ?_⟩
      simp only [State.writeRegister, h, Bool.false_eq_true, if_false]
    · exact .inl rfl
  · exact .inl rfl

/-- A stored register write sets neither OVR nor the race mark (R123 to R130). -/
theorem storeRegister_keeps (s : State) (off : Nat) (v : Word) :
    ((s.storeRegister off v).ovr = true → s.ovr = true) ∧ (s.storeRegister off v).raced = s.raced := by
  unfold State.storeRegister
  split
  case h_2 => exact ⟨fun h => (Bool.and_eq_true_iff.mp h).1, rfl⟩
  all_goals exact ⟨id, rfl⟩

/-- No phase sets OVR or marks a race: Finish ends one, the others leave the mark. -/
theorem doPhase_keeps (t : Config.Trig) (i : Instr) (p : Phase) (s : State) :
    (doPhase t i p s).ovr = s.ovr ∧ ((doPhase t i p s).raced = true → s.raced = true) := by
  refine ⟨(doPhase_same t i p s).ovr, fun h => ?_⟩
  by_cases hp : p = .finish
  · subst hp
    exact nomatch (s.finishCommand_raced i .ok).symm.trans h
  · exact (doPhase_status t i hp s).2.2.2.1.symm.trans h

theorem beginCommand_keeps (i : Instr) (ps : List Phase) (s : State) :
    (beginCommand i ps s).ovr = s.ovr ∧ ((beginCommand i ps s).raced = true → s.raced = true) := by
  by_cases hc : check i s = .ok
  · simp [beginCommand_ok hc]
  · simp [beginCommand_error hc]

/-- A unit step sets neither OVR nor the race mark. -/
theorem unitStep_keeps (tr : Config.Trig) (s : State) :
    (unitStep tr s).ovr = s.ovr ∧ ((unitStep tr s).raced = true → s.raced = true) := by
  obtain ⟨-, ht⟩ | ⟨p, rest, e, -, -, ht⟩ | ⟨rest, i, -, -, ht⟩ | ⟨p, rest, i, -, -, -, ht⟩ := unitStep_cases tr s
  all_goals rw [ht]
  · exact ⟨rfl, id⟩
  · exact ⟨rfl, id⟩
  · exact beginCommand_keeps i _ s
  · split <;> exact doPhase_keeps tr i p s

/-- A memory write that touches no region of the running command marks no race (R76). -/
theorem hostWriteMemory_keeps {s t : State} {a : Nat} {bytes : List Byte}
    (hclear : touches (s.runningRw ++ s.runningRo) a bytes.length = false)
    (h : s.hostWriteMemory a bytes = .next t) :
    (t.ovr = true → s.ovr = true) ∧ (t.raced = true → s.raced = true) := by
  unfold State.hostWriteMemory at h
  split at h
  · rw [← Host.Outcome.next.inj h]
    simp [hclear]
  · cases h

/-- A host write that keeps the host's duties sets neither OVR nor the race mark (R320, R321). -/
theorem hostWrite_keeps {s t : State} {g : Target} {bytes : List Byte} (hcare : s.careful (.write g bytes) = true)
    (h : s.hostWrite g bytes = .next t) : (t.ovr = true → s.ovr = true) ∧ (t.raced = true → s.raced = true) := by
  simp only [State.careful] at hcare
  simp only [State.hostWrite] at h
  split at h
  · rename_i off hg
    simp only [hg, Bool.not_eq_true'] at hcare
    rw [← Host.Outcome.next.inj h]
    obtain ht | ⟨v, ht⟩ := hostWriteRegister_of_not_dropped hcare bytes
    · rw [ht]
      exact ⟨id, id⟩
    · obtain ⟨hovr, hraced⟩ := storeRegister_keeps s off.toNat v
      rw [ht]
      exact ⟨hovr, hraced.symm.trans⟩
  all_goals
    rename_i a hg
    simp only [hg, Bool.not_eq_true'] at hcare
    exact hostWriteMemory_keeps hcare h

/-- Settles O32: each event keeps OVR and the race mark, and a careful memory read is no race. -/
theorem carefulHostLosesNothing : Obligations.CarefulHostLosesNothing := by
  intro s t e hcare h
  cases e with
  | read g len =>
    have hframe := hostRead_cases h
    refine ⟨fun hovr => ?_, fun hraced => ?_, fun a len' he => ?_⟩
    · rwa [hframe] at hovr
    · rwa [hframe] at hraced
    · obtain ⟨rfl, rfl⟩ := Event.read.inj he
      rw [hostData_of_hostRead_mem h]
      exact State.hostBytes_eq_readBytes (by simpa [State.careful] using hcare)
  | write g bytes =>
    obtain ⟨hovr, hraced⟩ := hostWrite_keeps hcare h
    exact ⟨hovr, hraced, nofun⟩
  | wait =>
    rw [← Host.Outcome.next.inj h]
    exact ⟨id, id, nofun⟩
  | unit =>
    rw [← Host.Outcome.next.inj h]
    obtain ⟨hovr, hraced⟩ := unitStep_keeps Config.trig s
    exact ⟨hovr.symm.trans, hraced, nofun⟩
  | reset =>
    rw [← Host.Outcome.next.inj h]
    exact ⟨nofun, nofun, nofun⟩

end Sys2Proof.Machine
end

section
/-! A refused access (R68, R322; log entry 9): where the run of a command stops, what the stopped unit keeps, and the
memory of a CONJ that stops in its pass. -/

namespace Sys2Proof.Machine

open Sys2Proof

/-! ### A stuck unit stays -/

theorem unitStep_of_stuck {s : State} {p : Phase} {rest : List Phase} (t : Config.Trig) (h : s.ph = .stuck p rest) :
    unitStep t s = s := by
  simp only [unitStep, h]

theorem step_of_stuck {s : State} {p : Phase} {rest : List Phase} (hin : s.inputs = []) (h : s.ph = .stuck p rest) :
    step s = .next s := by
  simp only [step_of_no_inputs hin, unitRun, h]

/-! ### A unit step in a phase -/

/-- Check and Finish access no memory, so a phase with a refused access is neither. -/
theorem ne_check_of_refused {s : State} {p : Phase} (h : phaseAdmitted p s = false) : p ≠ .check := by
  rintro rfl
  exact nomatch h

theorem ne_finish_of_refused {s : State} {p : Phase} (h : phaseAdmitted p s = false) : p ≠ .finish := by
  rintro rfl
  exact nomatch h

theorem unitStep_of_admitted {s : State} {p : Phase} {rest : List Phase} {i : Instr} (t : Config.Trig)
    (hph : s.ph = .run p rest) (hd : decodeWord s.cmd = .ok i) (hp : p ≠ .check) (h : phaseAdmitted p s = true) :
    unitStep t s = advance t i p rest s := by
  simp only [unitStep, hph, hd, hp, h, if_false, if_true]

theorem unitStep_of_refused {s : State} {p : Phase} {rest : List Phase} {i : Instr} (t : Config.Trig)
    (hph : s.ph = .run p rest) (hd : decodeWord s.cmd = .ok i) (h : phaseAdmitted p s = false) :
    unitStep t s = stopPhase t i p rest s := by
  simp only [unitStep, hph, hd, ne_check_of_refused h, h, Bool.false_eq_true, if_false]

/-- What a phase but Finish does to memory does not depend on the platform's holes. -/
theorem doPhase_holes_mem (t : Config.Trig) (i : Instr) {p : Phase} (hp : p ≠ .finish) (s : State) (hs : List Hole) :
    (doPhase t i p { s with holes := hs }).mem = (doPhase t i p s).mem := by
  cases p with
  | finish => exact absurd rfl hp
  | _ => rfl

/-- A phase of a command that passed its check stays in the memory space, so it is admitted where there is no hole. -/
theorem State.InPhase.admitted_without_holes {s : State} {p : Phase} {rest : List Phase} {i : Instr}
    (h : s.InPhase p rest i) : phaseAdmitted p { s with holes := [] } = true := by
  rcases h.phase with ⟨rfl, -⟩ | ⟨-, -, hp⟩
  · exact phaseAdmitted_finish _
  · -- The accesses of a phase are the same with and without holes.
    have hfits : PhaseFits p s := (phasesOf_fit h.checked p hp).congr h.operands
    exact phaseAdmitted_of_fits rfl hfits

/-! ### The run of a command up to a refused access -/

/-- The phases of a command stop in the first that is refused an access, after those before it are done. -/
theorem runPhases_stops (t : Config.Trig) (i : Instr) {ps : List Phase} (qs : List Phase) {s : State}
    (hne : ∀ p ∈ ps, p ≠ .finish) (h : ∃ p ∈ ps, phaseAdmitted p s = false) :
    ∃ pre q post, ps = pre ++ q :: post ∧ phaseAdmitted q s = false ∧
      runPhases t i (ps ++ qs) s =
        stopPhase t i q (post ++ qs) { applyPhases t i pre s with ph := .run q (post ++ qs) } := by
  induction ps generalizing s with
  | nil => simp at h
  | cons p ps ih =>
    cases hp : phaseAdmitted p s with
    | false =>
      refine ⟨[], p, ps, rfl, hp, ?_⟩
      rw [List.cons_append, runPhases, phaseAdmitted_ph, hp]
      rfl
    | true =>
      have hp0 : p ≠ .finish := hne p List.mem_cons_self
      have hne' : ∀ q ∈ ps, q ≠ .finish := fun q hq => hne q (List.mem_cons_of_mem _ hq)
      have hadv : advance t i p (ps ++ qs) { s with ph := .run p (ps ++ qs) } =
          { doPhase t i p s with ph := PH.ofList (ps ++ qs) } := by
        rw [advance, doPhase_ph t i hp0 s]
      have hsame : SameOperands s { doPhase t i p s with ph := PH.ofList (ps ++ qs) } :=
        (doPhase_same t i p s).trans ⟨by constructor <;> rfl, rfl, rfl⟩
      have hlater : ∃ q ∈ ps, phaseAdmitted q { doPhase t i p s with ph := PH.ofList (ps ++ qs) } = false := by
        obtain ⟨q, hq, hadm⟩ := h
        rcases List.mem_cons.mp hq with rfl | hq
        · exact nomatch hp.symm.trans hadm
        · exact ⟨q, hq, (hsame.phaseAdmitted q).trans hadm⟩
      obtain ⟨pre, q, post, rfl, hadm, hrun⟩ := ih hne' hlater
      refine ⟨p :: pre, q, post, rfl, (hsame.phaseAdmitted q).symm.trans hadm, ?_⟩
      rw [List.cons_append, runPhases, phaseAdmitted_ph, hp, if_pos rfl, hadv, hrun,
        applyPhases_ph t i fun r hr => hne' r (List.mem_append_left _ hr)]
      rfl

/-- `u` is a state inside a command of `s` of which no phase has reported anything: the operands are taken, STATUS, the
unseen results and every byte outside the command's read-write regions are as before (R66, R132). -/
structure Underway (i : Instr) (s u : State) : Prop where
  operands : SameOperands (s.takeOperands i) u
  busy : u.busy = s.busy
  done : u.done = s.done
  errcode : u.errcode = s.errcode
  unseen : u.unseen = s.unseen
  bytes : BytesKept s u (s.rwRegions i)

theorem Underway.same {i : Instr} {s u : State} (h : Underway i s u) : SameInterface s u :=
  (takeOperands_same s i).trans h.operands.toSameInterface

/-- Some of a command's phases, done one after the other, leave it underway. -/
theorem underway_applyPhases {i : Instr} {s : State} (hc : check i s = .ok) {ps : List Phase}
    (hps : ∀ p ∈ ps, p ∈ phasesOf i s) (q : PH) :
    Underway i s { applyPhases Config.trig i ps (s.takeOperands i) with ph := q } := by
  have hne : ∀ p ∈ ps, p ≠ .finish := fun p hp => phasesOf_ne_finish i s p (hps p hp)
  obtain ⟨hbusy, hdone, hcode, -⟩ := applyPhases_status Config.trig i hne (s.takeOperands i)
  refine ⟨(applyPhases_same _ i ps _).trans ⟨by constructor <;> rfl, rfl, rfl⟩, ?_, ?_, ?_, ?_, fun c hout => ?_⟩
  · exact hbusy.trans (s.takeOperands_busy i)
  · exact hdone.trans (s.takeOperands_done i)
  · exact hcode.trans (s.takeOperands_errcode i)
  · exact (applyPhases_unseen _ i hne _).trans (s.takeOperands_unseen i)
  · exact (applyPhases_leaves (R := inRw s i) _ i (fun p hp => phasesOf_leave hc p (hps p hp))
      (by simp [inRw, hout])).trans (congrArg (Memory.readByte · c) (s.takeOperands_mem i))

/-- A phase that stops leaves its command underway (R68). -/
theorem Underway.stopPhase {i : Instr} {s u : State} {p : Phase} (hc : check i s = .ok) (hp : p ∈ phasesOf i s)
    (h : Underway i s u) (rest : List Phase) : Underway i s (stopPhase Config.trig i p rest u) := by
  have hne := phasesOf_ne_finish i s p hp
  obtain ⟨hbusy, hdone, hcode, -⟩ := stopPhase_status Config.trig i hne rest u
  refine ⟨h.operands.trans (stopPhase_same _ i p rest u), hbusy.trans h.busy, hdone.trans h.done,
    hcode.trans h.errcode, (stopPhase_unseen _ i hne rest u).trans h.unseen, fun c hout => ?_⟩
  have hleaves := phasesOf_leave hc p hp u h.operands Config.trig i c (by simp [inRw, hout])
  exact (stopPhase_leaves _ i p rest hleaves).trans (h.bytes c hout)

/-- A command that passes its check and has a phase with a refused access stops in such a phase (R68). -/
theorem exec_stops {i : Instr} {s : State} (hc : check i s = .ok)
    (h : ∃ p ∈ phasesOf i s, phaseAdmitted p (s.takeOperands i) = false) :
    ∃ t, exec i s = .next t ∧ Underway i s t ∧
      ∃ q ∈ phasesOf i s, ∃ rest, t.ph = .stuck q rest ∧ phaseAdmitted q t = false := by
  obtain ⟨pre, q, post, hps, hadm, hrun⟩ := runPhases_stops Config.trig i [.finish] (phasesOf_ne_finish i s) h
  have hpre : ∀ p ∈ pre, p ∈ phasesOf i s := fun p hp => hps ▸ List.mem_append_left _ hp
  have hq : q ∈ phasesOf i s := hps ▸ List.mem_append_right _ List.mem_cons_self
  have hstop := (underway_applyPhases hc hpre (.run q (post ++ [.finish]))).stopPhase hc hq (post ++ [.finish])
  refine ⟨_, ?_, hstop, q, hq, _, rfl, (hstop.operands.phaseAdmitted q).trans hadm⟩
  rw [exec_eq, ← hrun]
  simp only [runCommand, hc]

/-- Settles O58: a run stops in its first phase with a refused access, and the stopped phase copies words of the whole
phase into the memory before it. -/
theorem refusedAccessSticks : Obligations.RefusedAccessSticks := by
  constructor
  · intro i s p _ hc hbusy hin hp hadm
    obtain ⟨t, hexec, hstop, q, hq, rest, hph, hrefused⟩ := exec_stops hc ⟨p, hp, hadm⟩
    exact ⟨t, hexec, hstop.busy.trans hbusy, hstop.done, hstop.errcode, ⟨q, hq, rest, hph, hrefused⟩, hstop.same,
      hstop.unseen, hstop.bytes, step_of_stuck (hstop.same.inputs.trans hin) hph, unitStep_of_stuck _ hph⟩
  · intro i s p rest hph hin hadm
    have hne := ne_finish_of_refused hadm
    obtain ⟨hbusy, hdone, hcode, -⟩ := stopPhase_status Config.trig i hne rest s
    refine ⟨_, _, unitStep_of_refused Config.trig hph hin.decoded hadm,
      unitStep_of_admitted Config.trig hph hin.decoded (ne_check_of_refused hadm) hin.admitted_without_holes, rfl,
      hbusy, hdone, hcode, fun c => ?_⟩
    have hmem : (advance Config.trig i p rest { s with holes := [] }).mem = (doPhase Config.trig i p s).mem :=
      doPhase_holes_mem Config.trig i hne s []
    rw [hmem, stopPhase_mem]
    exact readByte_copyWrites _ _ _ c

/-! ### CONJ with a refused element (R211, R212) -/

section
variable {s : State} {v : Vec} {c : Nat} (hc : c < (s.lengthOf v).toNat)
  (hbefore : ∀ k, k < c → s.answers ⟨(s.bases v).im + 4 * k, 4, false⟩ = true ∧
    s.answers ⟨(s.bases v).im + 4 * k, 4, true⟩ = true)
  (hrefused : s.answers ⟨(s.bases v).im + 4 * c, 4, false⟩ = false ∨
    s.answers ⟨(s.bases v).im + 4 * c, 4, true⟩ = false)
include hc hbefore hrefused

omit hc hbefore in
theorem conj_iteration_refused : (iterationAccesses (.conj v) s c).all s.answers = false := by
  rcases hrefused with h | h <;> simp [iterationAccesses, h]

omit hbefore in
/-- A Conj with a refused element below its length is not admitted. -/
theorem conj_refused : phaseAdmitted (.conj v) s = false := by
  rw [phaseAdmitted, phaseAccesses, List.all_flatMap, List.all_eq_false]
  exact ⟨c, List.mem_range.mpr hc, by simp [conj_iteration_refused hrefused]⟩

/-- The writes that a Conj performs before a refused element are those of the elements before it. -/
theorem mem_answeredAccesses_conj {a : Access} (hw : a.writes = true) :
    a ∈ answeredAccesses (.conj v) s ↔ ∃ k, k < c ∧ a = ⟨(s.bases v).im + 4 * k, 4, true⟩ := by
  have hall : ∀ j, j < c → (iterationAccesses (.conj v) s j).all s.answers = true := by
    intro j hj
    obtain ⟨hread, hwrite⟩ := hbefore j hj
    simp [iterationAccesses, hread, hwrite]
  have htail : a ∉ (iterationAccesses (.conj v) s c).takeWhile s.answers := by
    rcases hrefused with h | h
    · simp [iterationAccesses, h]
    · cases hread : s.answers ⟨(s.bases v).im + 4 * c, 4, false⟩ with
      | false => simp [iterationAccesses, hread]
      | true =>
        simp only [iterationAccesses, List.takeWhile_cons, hread, h, if_true, Bool.false_eq_true, if_false,
          List.mem_singleton]
        rintro rfl
        exact nomatch hw
  rw [answeredAccesses_eq hc hall (conj_iteration_refused hrefused), List.mem_append, or_iff_left htail]
  obtain ⟨b, n, w⟩ := a
  obtain rfl : w = true := hw
  simp [iterationAccesses]

/-- The memory of a Conj that stops at element c: the imaginary words before it are negated, every other byte is as
before (R211; log entry 9). -/
theorem stopPhase_conj_mem (t : Config.Trig) (i : Instr) (rest : List Phase) :
    (∀ k, k < c → Memory.read32 (stopPhase t i (.conj v) rest s).mem ((s.bases v).im + 4 * k) =
      neg32 (Memory.read32 s.mem ((s.bases v).im + 4 * k))) ∧
    ∀ b, b < (s.bases v).im ∨ (s.bases v).im + 4 * c ≤ b →
      Memory.readByte (stopPhase t i (.conj v) rest s).mem b = Memory.readByte s.mem b := by
  obtain ⟨hneg, -⟩ := conjPass_spec (s.bases v) (s.lengthOf v).toNat ⟨s.dp, s.mem⟩
  rw [stopPhase_mem]
  refine ⟨fun k hk => ?_, fun b hb => ?_⟩
  · have hwritten := (mem_answeredAccesses_conj hc hbefore hrefused rfl).mpr ⟨k, hk, rfl⟩
    refine Eq.trans (Memory.read32_congr fun b hlo hhi => ?_) (hneg k (by omega))
    exact readByte_copyWrites_of_written _ _ hwritten rfl ⟨hlo, hhi⟩
  · refine readByte_copyWrites_of_not_written _ _ fun a ha hw => ?_
    obtain ⟨k, hk, rfl⟩ := (mem_answeredAccesses_conj hc hbefore hrefused hw).mp ha
    simp only
    omega

end

/-- The state in which CONJ runs its one phase: the operands taken (R42, R132). -/
def State.inConj (s : State) : State := { s.takeOperands .conj with ph := .run (.conj .x) [.finish] }

theorem State.inConj_same (s : State) : SameInterface s s.inConj :=
  (takeOperands_same s .conj).trans (by constructor <;> rfl)

theorem State.inConj_mem (s : State) : s.inConj.mem = s.mem := s.takeOperands_mem .conj

theorem State.inConj_bases (s : State) : s.inConj.bases .x = ⟨s.xre.toNat, s.xim.toNat⟩ := by
  simp [State.inConj, State.bases]

theorem State.inConj_lengthOf (s : State) : s.inConj.lengthOf .x = s.len := by
  simp [State.inConj, State.lengthOf, State.takeOperands_n_of_ne]

/-- A CONJ whose one phase has a refused access stops in it (R68, R212). -/
theorem exec_conj_refused {s : State} (hc : check .conj s = .ok) (h : phaseAdmitted (.conj .x) s.inConj = false) :
    exec .conj s = .next (stopPhase Config.trig .conj (.conj .x) [.finish] s.inConj) := by
  have hrun : runPhases Config.trig .conj [.conj .x, .finish] (s.takeOperands .conj) =
      stopPhase Config.trig .conj (.conj .x) [.finish] s.inConj := by
    rw [runPhases]
    exact if_neg (Bool.eq_false_iff.mp h)
  rw [exec_eq, ← hrun]
  simp only [runCommand, hc]
  rfl

/-- Settles O59: CONJ stops in its pass after the writes of the elements before the refused one. -/
theorem conjStopsAtRefusedElement : Obligations.ConjStopsAtRefusedElement := by
  intro s c hcheck hc hbefore hrefused
  have happart := (check_passed (by simp) hcheck).xApart
  have hlen : c < (s.inConj.lengthOf .x).toNat := by rwa [s.inConj_lengthOf]
  rw [← s.inConj_same.answers] at hbefore hrefused
  have him : (s.inConj.bases .x).im = s.xim.toNat := congrArg Bases.im s.inConj_bases
  obtain ⟨hneg, hkept⟩ := stopPhase_conj_mem hlen (by rwa [him]) (by rwa [him]) Config.trig .conj [.finish]
  simp only [him, s.inConj_mem] at hneg hkept
  have hexec := exec_conj_refused hcheck (conj_refused hlen (by rwa [him]))
  have hstuck := stopPhase_ph Config.trig .conj (.conj .x) [.finish] s.inConj
  have hsame := s.inConj_same.trans (stopPhase_same Config.trig .conj (.conj .x) [.finish] s.inConj).toSameInterface
  obtain ⟨hbusy, hdone, hcode, -⟩ := stopPhase_status Config.trig .conj (p := .conj .x) (by simp) [.finish] s.inConj
  generalize stopPhase Config.trig .conj (.conj .x) [.finish] s.inConj = t at *
  refine ⟨t, hexec, hstuck, hbusy.trans (s.takeOperands_busy .conj), hdone.trans (s.takeOperands_done .conj),
    hcode.trans (s.takeOperands_errcode .conj), hsame, fun k hk => ?_, fun b hb => hkept b ?_⟩
  · have hre : Memory.read32 t.mem (s.xre.toNat + 4 * k) = Memory.read32 s.mem (s.xre.toNat + 4 * k) :=
      Memory.read32_congr fun b _ _ => hkept b (by omega)
    simp only [State.xElem, readC, hsame.xre, hsame.xim, hre]
    split
    · rename_i hkc
      rw [hneg k hkc]
    · rw [Memory.read32_congr fun b _ _ => hkept b (by omega)]
  · have hout : s.xim.toNat ≤ b → s.xim.toNat + 4 * c ≤ b := by simpa [inRegions, Region.has] using hb
    omega

end Sys2Proof.Machine
end

section
/-! The synchronous call (R100): a launch, the whole command in one step, and the STATUS read that ends the host's
loop. -/

namespace Sys2Proof.Machine

open Sys2Proof

/-- A command completes with the code of its check where every address is answered (R134, R135, R136). -/
theorem exec_completes {s : State} (i : Instr) (hh : s.holes = []) :
    ∃ t, exec i s = .next t ∧ Completed s t (check i s) := by
  by_cases hc : check i s = .ok
  · obtain ⟨t, hexec, hdone, -⟩ := acceptedCommandsComplete i s hc hh
    exact ⟨t, hexec, hc.symm ▸ hdone⟩
  · exact ⟨_, exec_error hc, (SameInterface.refl s).completed_finishCommand i _⟩

/-- The check reads neither the pending events nor a field that a launch writes (R130, R133). -/
theorem check_launch (i : Instr) (s : State) (es : List Event) (c : Word) :
    check i (State.launch { s with inputs := es } c) = check i s := rfl

/-- `cmd` as the next event of an Idle unit launches the command (R99, R130). -/
theorem step_hostCmd {s : State} {i : Instr} {rest : List Event} (hin : s.inputs = hostCmd i :: rest)
    (hbusy : s.busy = false) : step s = .next (State.launch { s with inputs := rest } (encode i)) := by
  have hwrite := hostWrite_cmd (s := { s with inputs := rest }) hbusy (encode i)
  simp only [step, machineStep, hin, hostCmd, hostWr]
  exact hwrite

/-- While DONE is 0 a `wait` lets the unit run the launched command (R99). -/
theorem step_wait_of_check {s : State} {i : Instr} {es : List Event} {rest : List Phase} (hin : s.inputs = .wait :: es)
    (hdone : s.done = false) (hph : s.ph = .run .check rest) (hd : decodeWord s.cmd = .ok i) : step s = exec i s := by
  simp only [step, machineStep, hin, hdone, unitRun, hph, hd, Bool.false_eq_true, if_false, if_true]

/-- A `wait` that sees DONE = 1 is the STATUS read that ends the loop (R71, R99). -/
theorem step_wait_of_done {s : State} {es : List Event} (hin : s.inputs = .wait :: es) (hdone : s.done = true) :
    step s = .next { s with inputs := es, hostData := bytesOfWord s.statusWord, unseen := [] } := by
  simp only [step, machineStep, hin]
  rw [if_pos hdone]
  exact congrArg _ (hostReadRegister_status (s := { s with inputs := es }) hdone)

/-- With a command launched, a `wait` returns after the command has run whole and STATUS has been read (R99). -/
theorem wait_returns {s : State} {i : Instr} {rest : List Event} (hin : s.inputs = .wait :: rest)
    (hdone : s.done = false) (hph : s.ph = .run .check []) (hd : decodeWord s.cmd = .ok i) (hh : s.holes = []) :
    ∃ t, Completed s t (check i s) ∧
      stepTimes 2 s = .next { t with inputs := rest, hostData := bytesOfWord t.statusWord, unseen := [] } := by
  obtain ⟨t, hexec, hcompleted⟩ := exec_completes i hh
  have hrun : step s = .next t := (step_wait_of_check hin hdone hph hd).trans hexec
  refine ⟨t, hcompleted, ?_⟩
  simp only [stepTimes, hrun, step_wait_of_done (hcompleted.same.inputs.trans hin) hcompleted.done]

/-- Settles O60: the launch, the command run whole to its completion, and the STATUS read that sees DONE. -/
theorem synchronousCallReturns : Obligations.SynchronousCallReturns := by
  intro i s rest hi _ hbusy hh hin
  obtain ⟨t, hcompleted, hreturn⟩ :=
    wait_returns (s := State.launch { s with inputs := .wait :: rest } (encode i)) rfl rfl rfl (decodeWord_encode hi) hh
  refine ⟨{ t with inputs := rest, hostData := bytesOfWord t.statusWord, unseen := [] }, ?_, rfl, hcompleted.busy,
    hcompleted.done, hcompleted.errcode.trans (check_launch i s _ _), rfl, rfl⟩
  rw [stepTimes, step_hostCmd hin hbusy]
  exact hreturn

end Sys2Proof.Machine
end

section
/-! The round trip of decoder and encoder over every word, the rows of the table by mask and match, and the words the
decoder rejects (R90, R94, R96, R97). -/

namespace Sys2Proof

open Sys2Proof.Machine

/-! ### A word is its fields (R90) -/

/-- The fields of rule R90 make up the whole word. -/
theorem toNat_eq_fields (w : Word) :
    w.toNat = opField w + 2 ^ 8 * mdField w + 2 ^ 9 * bitField 15 9 w + 2 ^ 16 * sField w +
      2 ^ 21 * bitField 31 21 w := by
  have := w.isLt
  simp only [opField, mdField, sField, bitField]
  omega

theorem bitField_lt (hi lo : Nat) (w : Word) : bitField hi lo w < 2 ^ (hi - lo + 1) :=
  Nat.mod_lt _ (Nat.two_pow_pos _)

/-- A command whose S fits its 5 bits is well formed (R93). -/
theorem Instr.wellFormed_of_s_lt {i : Instr} (h : i.s < 32) : i.WellFormed = true := by
  cases i with
  | stage s => exact decide_eq_true h
  | _ => rfl

theorem encode_of_decodeWord {w : Word} {i : Instr} (h : decodeWord w = .ok i) : encode i = w := by
  obtain ⟨hlow, hhigh, hop, hmd, hs⟩ := (decodeWord_fields w i).mp h
  have hw := toNat_eq_fields w
  rw [hlow, hhigh, hop, hmd, hs] at hw
  apply BitVec.eq_of_toNat_eq
  rw [encode, BitVec.toNat_ofNat]
  have := w.isLt
  omega

theorem wellFormed_of_decodeWord {w : Word} {i : Instr} (h : decodeWord w = .ok i) : i.WellFormed = true := by
  obtain ⟨-, -, -, -, hs⟩ := (decodeWord_fields w i).mp h
  exact Instr.wellFormed_of_s_lt (hs ▸ bitField_lt 20 16 w)

/-- Settles O3: decoding inverts the encoding, and the fields a decoded word must have make up the whole word. -/
theorem decodeExactlyEncode : Obligations.DecodeExactlyEncode := by
  intro w i
  constructor
  · exact fun h => ⟨wellFormed_of_decodeWord h, encode_of_decodeWord h⟩
  · rintro ⟨hi, rfl⟩
    exact decodeWord_encode hi

/-! ### The rows of the table (R96) -/

theorem bitField_and (hi lo : Nat) (w m : Word) :
    bitField hi lo (w &&& m) = bitField hi lo w &&& bitField hi lo m := by
  simp only [bitField_eq_extractLsb, BitVec.extractLsb_and, BitVec.toNat_and]

/-- A mask with all bits of a field set keeps the field. -/
theorem bitField_and_of_ones {hi lo : Nat} {m : Word} (h : bitField hi lo m = 2 ^ (hi - lo + 1) - 1) (w : Word) :
    bitField hi lo (w &&& m) = bitField hi lo w := by
  rw [bitField_and, h, Nat.and_two_pow_sub_one_of_lt_two_pow (bitField_lt hi lo w)]

/-- The mask of STAGE clears S. -/
theorem sField_and_stageMask (w : Word) : sField (w &&& 0xFFE0FFFF) = 0 := by
  have hm : bitField 20 16 (0xFFE0FFFF : Word) = 0 := by decide
  rw [sField, bitField_and, hm, Nat.and_zero]

theorem decodeWord_iff_encode {i : Instr} (hi : i.WellFormed = true) (w : Word) : decodeWord w = .ok i ↔ encode i = w :=
  (decodeExactlyEncode w i).trans (and_iff_right hi)

/-- A row without S: its mask is all ones and its match value is its command's word. -/
theorem decodeWord_iff_row {i : Instr} (hi : i.WellFormed = true) (w : Word) :
    decodeWord w = .ok i ↔ w &&& 0xFFFFFFFF = encode i := by
  have hones : w &&& 0xFFFFFFFF = w := BitVec.and_allOnes
  rw [decodeWord_iff_encode hi, hones, eq_comm]

/-- A word is a STAGE exactly when it is STAGE 0 after its S is cleared. -/
theorem decodeWord_stage_iff (w : Word) :
    (∃ k, decodeWord w = .ok (.stage k)) ↔ decodeWord (w &&& 0xFFE0FFFF) = .ok (.stage 0) := by
  have hlow := bitField_and_of_ones (hi := 15) (lo := 9) (m := 0xFFE0FFFF) (by decide) w
  have hhigh := bitField_and_of_ones (hi := 31) (lo := 21) (m := 0xFFE0FFFF) (by decide) w
  have hop : opField (w &&& 0xFFE0FFFF) = opField w := bitField_and_of_ones (by decide) w
  have hmd : mdField (w &&& 0xFFE0FFFF) = mdField w := bitField_and_of_ones (by decide) w
  simp only [decodeWord_fields, hlow, hhigh, hop, hmd, sField_and_stageMask, Instr.op, Instr.md, Instr.s,
    exists_and_left, exists_eq', and_true]

/-- The word of STAGE k as rule R96 writes it. -/
theorem encode_stage (k : Nat) : encode (.stage k) = 0x00000011 ||| (BitVec.ofNat 32 k <<< 16) := by
  have hsum : 0x11 + 2 ^ 8 * 0 + 2 ^ 16 * k = 0x11 ||| k <<< 16 := by
    rw [Nat.lor_comm, ← Nat.shiftLeft_add_eq_or_of_lt (by decide), Nat.shiftLeft_eq]
    omega
  have hshift : BitVec.ofNat 32 (k <<< 16) = BitVec.ofNat 32 k <<< 16 := by
    apply BitVec.eq_of_toNat_eq
    simp only [BitVec.toNat_ofNat, BitVec.toNat_shiftLeft, Nat.shiftLeft_eq, Nat.mod_mul_mod]
  rw [encode, Instr.op, Instr.md, Instr.s, hsum, BitVec.ofNat_or, hshift]
  rfl

/-- Settles O2: each row is the word of its command, and STAGE is its row with S free. -/
theorem tableRowsExact : Obligations.TableRowsExact := by
  intro w
  refine ⟨decodeWord_iff_row (i := .nop) rfl w, decodeWord_iff_row (i := .dftF) rfl w,
    decodeWord_iff_row (i := .dftI) rfl w, decodeWord_iff_row (i := .fft2F) rfl w,
    decodeWord_iff_row (i := .fft2I) rfl w, decodeWord_iff_row (i := .blueF) rfl w,
    decodeWord_iff_row (i := .blueI) rfl w, decodeWord_iff_row (i := .bitrev) rfl w,
    decodeWord_iff_row (i := .conj) rfl w, decodeWord_iff_row (i := .scale) rfl w,
    decodeWord_iff_row (i := .cmul) rfl w, decodeWord_iff_row (i := .chirpN) rfl w,
    decodeWord_iff_row (i := .chirpP) rfl w, ?_, fun k hk => ?_⟩
  · rw [decodeWord_stage_iff, decodeWord_iff_encode (i := .stage 0) rfl, eq_comm]
    exact Iff.rfl
  · rw [decodeWord_iff_encode (i := .stage k) (decide_eq_true hk), encode_stage, eq_comm]

/-! ### The words that are no command (R97) -/

/-- The table of rule R91 has a command for every OP, MD and S that rule R97 does not exclude. -/
theorem Instr.exists_of_fields {o m s : Nat} (hgap : ¬(0x04 ≤ o ∧ o ≤ 0x0F)) (htop : ¬0x16 ≤ o)
    (hm : m = 0 ∨ m = 1 ∧ o ∉ [0x00, 0x10, 0x11, 0x12, 0x13, 0x14]) (hs : s ≠ 0 → o = 0x11) :
    ∃ i : Instr, i.op = o ∧ i.md = m ∧ i.s = s := by
  by_cases hstage : o = 0x11
  · obtain rfl | ⟨-, hplain⟩ := hm
    · exact ⟨.stage s, hstage.symm, rfl, rfl⟩
    · exact absurd (by simp [hstage]) hplain
  · obtain rfl : s = 0 := by_contra fun h => hstage (hs h)
    obtain rfl | ⟨rfl, hplain⟩ := hm
    · obtain rfl | rfl | rfl | rfl | rfl | rfl | rfl | rfl | rfl :
          o = 0x00 ∨ o = 0x01 ∨ o = 0x02 ∨ o = 0x03 ∨ o = 0x10 ∨ o = 0x12 ∨ o = 0x13 ∨ o = 0x14 ∨ o = 0x15 := by
        omega
      · exact ⟨.nop, rfl, rfl, rfl⟩
      · exact ⟨.dftF, rfl, rfl, rfl⟩
      · exact ⟨.fft2F, rfl, rfl, rfl⟩
      · exact ⟨.blueF, rfl, rfl, rfl⟩
      · exact ⟨.bitrev, rfl, rfl, rfl⟩
      · exact ⟨.conj, rfl, rfl, rfl⟩
      · exact ⟨.scale, rfl, rfl, rfl⟩
      · exact ⟨.cmul, rfl, rfl, rfl⟩
      · exact ⟨.chirpN, rfl, rfl, rfl⟩
    · obtain rfl | rfl | rfl | rfl : o = 0x01 ∨ o = 0x02 ∨ o = 0x03 ∨ o = 0x15 := by
        simp only [List.mem_cons, List.not_mem_nil, or_false] at hplain
        omega
      · exact ⟨.dftI, rfl, rfl, rfl⟩
      · exact ⟨.fft2I, rfl, rfl, rfl⟩
      · exact ⟨.blueI, rfl, rfl, rfl⟩
      · exact ⟨.chirpP, rfl, rfl, rfl⟩

/-- MD is 0, or bit 8 is set (R90). -/
theorem mdField_zero_or_bit (w : Word) : mdField w = 0 ∨ mdField w = 1 ∧ w.getLsbD 8 = true := by
  cases hbit : w.getLsbD 8 with
  | true => exact .inr ⟨mdField_of_bit hbit, rfl⟩
  | false =>
    have hclear : w.toNat.testBit 8 = false := hbit
    rw [Nat.testBit_eq_decide_div_mod_eq, decide_eq_false_iff_not] at hclear
    exact .inl (Nat.mod_two_ne_one.mp hclear)

/-- The decoder accepts every word that rule R97 does not list. -/
theorem decodeWord_of_not_illegalWord {w : Word} (h : ¬IllegalWord w) : ∃ i, decodeWord w = .ok i := by
  simp only [IllegalWord, not_or, ne_eq, not_not] at h
  obtain ⟨hlow, hhigh, hgap, htop, hmd, hs⟩ := h
  have hop : opField w = opBits w := bitField_eq_extractLsb 7 0 w
  have hsf : sField w = sBits w := bitField_eq_extractLsb 20 16 w
  have hm := (mdField_zero_or_bit w).imp_right (And.imp_right fun hbit hmem => hmd ⟨hbit, hmem⟩)
  obtain ⟨i, hiop, himd, his⟩ := Instr.exists_of_fields hgap htop hm fun hne => by_contra fun hns => hs ⟨hne, hns⟩
  refine ⟨i, (decodeWord_fields w i).mpr ⟨?_, ?_, hop.trans hiop.symm, himd.symm, hsf.trans his.symm⟩⟩
  · rw [bitField_eq_extractLsb, hlow]
    rfl
  · rw [bitField_eq_extractLsb, hhigh]
    rfl

/-- Settles O4: the decoder rejects each word of rule R97 and has a command of the table for every other. -/
theorem illegalWordsExactly : Obligations.IllegalWordsExactly := by
  intro w
  constructor
  · rintro ⟨e, herror⟩
    by_contra hlegal
    obtain ⟨i, hok⟩ := decodeWord_of_not_illegalWord hlegal
    cases herror.symm.trans hok
  · exact decodeWord_of_illegalWord

/-! ### Example words (R96) -/

/-- Settles O1: each word is the encoding of its command. -/
theorem exampleWordsDecode : Obligations.ExampleWordsDecode :=
  ⟨decodeWord_encode (i := .nop) rfl, decodeWord_encode (i := .dftF) rfl, decodeWord_encode (i := .dftI) rfl,
    decodeWord_encode (i := .stage 1) rfl, decodeWord_encode (i := .stage 3) rfl,
    decodeWord_encode (i := .stage 31) rfl, decodeWord_encode (i := .cmul) rfl, decodeWord_encode (i := .chirpP) rfl⟩

end Sys2Proof
end

section
/-! The register block as the host sees it (R20 to R30, R121 to R130): which accesses act, what an aligned read returns,
what an aligned write stores, and the busy rule. -/

namespace Sys2Proof.Machine

open Sys2Proof

/-! ### Bits and fields of a word by its value -/

/-- A bit of a word from the word's value. -/
theorem getLsbD_of_toNat {w : Word} {k : Nat} {b : Bool} (h : w.toNat / 2 ^ k % 2 = b.toNat) : w.getLsbD k = b := by
  rw [BitVec.getLsbD, Nat.testBit_eq_decide_div_mod_eq, h]
  cases b <;> rfl

/-- A field of a word that holds nothing but zeros. -/
theorem extractLsb_eq_zero {w : Word} {hi lo : Nat} (h : bitField hi lo w = 0) : w.extractLsb hi lo = 0 :=
  BitVec.eq_of_toNat_eq ((bitField_eq_extractLsb hi lo w).symm.trans h)

/-! ### STATUS and IRQEN (R24, R25) -/

theorem ErrCode.toNat_le (e : ErrCode) : e.toNat ≤ 9 := by
  cases e <;> decide

theorem State.err_eq (s : State) : s.err = decide (s.errcode ≠ .ok) :=
  (decide_not (p := s.errcode = .ok)).symm

/-- The fields of STATUS add up without carries, so the word's value is their sum. -/
theorem State.statusWord_toNat (s : State) :
    s.statusWord.toNat =
      s.errcode.toNat * 256 + s.ovr.toNat * 8 + s.err.toNat * 4 + s.done.toNat * 2 + s.busy.toNat := by
  have hcode := s.errcode.toNat_le
  have hovr := s.ovr.toNat_le
  have herr := s.err.toNat_le
  have hdone := s.done.toNat_le
  have hbusy := s.busy.toNat_le
  rw [State.statusWord, BitVec.toNat_ofNat]
  omega

/-- Each field of STATUS where R24 has it. -/
theorem State.statusWord_fields (s : State) :
    s.statusWord.getLsbD 0 = s.busy ∧ s.statusWord.getLsbD 1 = s.done ∧
      s.statusWord.getLsbD 2 = decide (s.errcode ≠ .ok) ∧ s.statusWord.getLsbD 3 = s.ovr ∧
      s.statusWord.extractLsb 7 4 = 0#4 ∧ (s.statusWord.extractLsb 11 8).toNat = s.errcode.toNat ∧
      s.statusWord.extractLsb 31 12 = 0#20 := by
  have hvalue := s.statusWord_toNat
  have hcode := s.errcode.toNat_le
  have hovr := s.ovr.toNat_le
  have herr := s.err.toNat_le
  have hdone := s.done.toNat_le
  have hbusy := s.busy.toNat_le
  rw [← s.err_eq, ← bitField_eq_extractLsb]
  refine ⟨getLsbD_of_toNat ?_, getLsbD_of_toNat ?_, getLsbD_of_toNat ?_, getLsbD_of_toNat ?_, extractLsb_eq_zero ?_, ?_,
    extractLsb_eq_zero ?_⟩
  all_goals
    simp only [bitField, hvalue]
    omega

theorem State.irqenWord_fields (s : State) :
    s.irqenWord.getLsbD 0 = s.doneIe ∧ s.irqenWord.extractLsb 31 1 = 0#31 := by
  unfold State.irqenWord
  cases s.doneIe <;> exact ⟨rfl, rfl⟩

/-! ### Reads (R121, R122) -/

/-- A reserved offset reads 0 (R30). -/
theorem State.readRegister_reserved (s : State) {off : Nat} (h : 0x30 ≤ off) : s.readRegister off = 0 := by
  unfold State.readRegister
  split
  case h_12 => rfl
  all_goals omega

/-- An aligned 32-bit read returns the register; one of STATUS with DONE = 1 leaves no result unseen (R71, R122). -/
theorem hostRead_aligned (s : State) {off : Byte} (h : off.toNat % 4 = 0) :
    s.hostRead (.reg off) 4 =
      .next
        { s with
          hostData := bytesOfWord (s.readRegister off.toNat)
          unseen := if off = 0x0C ∧ s.done = true then [] else s.unseen } := by
  have hoff : off.toNat = 0x0C ↔ off = 0x0C := BitVec.toNat_inj (y := (0x0C : Byte))
  simp [State.hostRead, State.hostReadRegister, State.seesDone, registerAccess, h, hoff]

/-- Settles O20: the word is the register's own, and STATUS and IRQEN are read field by field. -/
theorem registerReads : Obligations.RegisterReads := by
  intro s off haligned
  refine ⟨s.readRegister off.toNat, hostRead_aligned s haligned, ?_, ?_, ?_, ?_, ?_, ?_, ?_, ?_, ?_, ?_, ?_, ?_,
    s.readRegister_reserved⟩
  case refine_4 =>
    rintro rfl
    exact s.statusWord_fields
  case refine_5 =>
    rintro rfl
    exact s.irqenWord_fields
  all_goals
    rintro rfl
    rfl

/-! ### Writes (R121, R125) -/

/-- An aligned 32-bit write is the register write of its word (R121). -/
theorem hostWrite_aligned (s : State) {off : Byte} (h : off.toNat % 4 = 0) (v : Word) :
    s.hostWrite (.reg off) (bytesOfWord v) = .next (s.writeRegister off.toNat v) := by
  simp only [State.hostWrite, Target.resolve_reg, State.hostWriteRegister, bytesOfWord]
  rw [if_pos h, wordOfBytes_bytesOfWord]

/-- A write that is no 32-bit access or is misaligned does nothing (R121). -/
theorem hostWriteRegister_of_inert {s : State} {off : Nat} {bytes : List Byte} (h : bytes.length ≠ 4 ∨ off % 4 ≠ 0) :
    s.hostWriteRegister off bytes = s := by
  unfold State.hostWriteRegister
  split
  case h_1 => exact if_neg (h.resolve_left (absurd rfl))
  case h_2 => rfl

/-- A read that is no 32-bit access or is misaligned returns zeros and changes nothing else (R121). -/
theorem hostReadRegister_of_inert {s : State} {off len : Nat} (h : len ≠ 4 ∨ off % 4 ≠ 0) :
    s.hostReadRegister off len = { s with hostData := List.replicate len 0 } := by
  have hinert : registerAccess off len = false := by
    simp only [registerAccess, Bool.and_eq_false_iff, decide_eq_false_iff_not]
    exact h
  simp [State.hostReadRegister, State.seesDone, hinert]

/-- Settles O26: a narrow access is no 32-bit access. -/
theorem narrowAccessHasNoEffect : Obligations.NarrowAccessHasNoEffect := fun _ _ =>
  ⟨fun _ h => congrArg _ (hostWriteRegister_of_inert (h.imp_left Nat.ne_of_lt)),
    fun _ h => congrArg _ (hostReadRegister_of_inert (h.imp_left Nat.ne_of_lt))⟩

section
variable {s : State} {off : Nat}

/-- The busy rule drops nothing while BUSY = 0, nor a write to a register it does not guard (R125). -/
theorem writeRegister_eq_store (h : s.busy = false ∨ busyGuarded off = false) (v : Word) :
    s.writeRegister off v = s.storeRegister off v :=
  if_neg (by rcases h with h | h <;> simp [h])

/-- A write the busy rule drops sets OVR alone (R125). -/
theorem writeRegister_eq_drop (hbusy : s.busy = true) (hguarded : busyGuarded off = true) (v : Word) :
    s.writeRegister off v = s.dropWrite :=
  if_pos (by simp [hbusy, hguarded])

/-- A write at an offset of the block is the register write there. -/
theorem writeAt_aligned (hoff : off < 256 ∧ off % 4 = 0) (v : Word) :
    writeAt s off v = .next (s.writeRegister off v) := by
  have hval : (BitVec.ofNat 8 off).toNat = off := Nat.mod_eq_of_lt hoff.1
  rw [writeAt, hostWrite_aligned s (by rw [hval, hoff.2]), hval]

/-- A write that the busy rule lets through stores its word (R125). -/
theorem writeAt_store (hoff : off < 256 ∧ off % 4 = 0) (h : s.busy = false ∨ busyGuarded off = false) (v : Word) :
    writeAt s off v = .next (s.storeRegister off v) := by
  rw [writeAt_aligned hoff, writeRegister_eq_store h]

end

/-- ID, PARAM and the reserved offsets ignore a write (R124). -/
theorem storeRegister_ignored (s : State) {off : Nat} (h : off = 0x00 ∨ off = 0x04 ∨ 0x30 ≤ off) (v : Word) :
    s.storeRegister off v = s := by
  unfold State.storeRegister
  split
  case h_11 => rfl
  all_goals omega

/-- The busy rule does not guard ID, PARAM and the reserved offsets (R124, R125). -/
theorem busyGuarded_ignored {off : Nat} (h : off = 0x00 ∨ off = 0x04 ∨ 0x30 ≤ off) : busyGuarded off = false := by
  simp only [busyGuarded, List.mem_cons, List.not_mem_nil, or_false, decide_eq_false_iff_not]
  omega

/-- Settles O21: the store of a configuration register is the update of its field. -/
theorem configurationWrites : Obligations.ConfigurationWrites := fun _ v hbusy =>
  ⟨writeAt_store (by decide) (.inl hbusy) v, writeAt_store (by decide) (.inl hbusy) v,
    writeAt_store (by decide) (.inl hbusy) v, writeAt_store (by decide) (.inl hbusy) v,
    writeAt_store (by decide) (.inl hbusy) v, writeAt_store (by decide) (.inl hbusy) v,
    writeAt_store (by decide) (.inl hbusy) v⟩

/-- Settles O22: these offsets are neither guarded nor stored to. -/
theorem readOnlyWritesIgnored : Obligations.ReadOnlyWritesIgnored := by
  intro s off v haligned hoff
  have hnat : off.toNat = 0x00 ∨ off.toNat = 0x04 ∨ 0x30 ≤ off.toNat :=
    hoff.imp (congrArg BitVec.toNat) (Or.imp_left (congrArg BitVec.toNat))
  rw [hostWrite_aligned s haligned, writeRegister_eq_store (.inr (busyGuarded_ignored hnat)),
    storeRegister_ignored s hnat]

/-- A write of STATUS acknowledges, BUSY or not (R125, R126). -/
theorem writeAt_status (s : State) (v : Word) : writeAt s 0x0C v = .next (s.acknowledge v) :=
  writeAt_store (by decide) (.inr rfl) v

/-- A write of IRQEN acts, BUSY or not (R125, R127). -/
theorem writeAt_irqen (s : State) (v : Word) : writeAt s 0x10 v = .next (s.writeIrqen v) :=
  writeAt_store (by decide) (.inr rfl) v

/-- A flag cleared by writing a 1. -/
theorem and_not_eq_ite (flag bit : Bool) : (flag && !bit) = if bit = true then false else flag := by
  cases bit
  · exact Bool.and_true flag
  · exact Bool.and_false flag

/-- Settles O24: the acknowledgement masks DONE and OVR by bits of the word. -/
theorem statusWriteOneToClear : Obligations.StatusWriteOneToClear := fun s v =>
  ⟨s.acknowledge v, writeAt_status s v, and_not_eq_ite s.done _, and_not_eq_ite s.ovr _, rfl⟩

/-- Settles O25: IRQ is computed from the DONE_IE that the write sets. -/
theorem interruptEnableWrite : Obligations.InterruptEnableWrite := fun s v => ⟨_, writeAt_irqen s v, rfl, rfl⟩

/-- Settles O27: with DONE and ERRCODE cleared by the launch, ERR and IRQ are 0. -/
theorem launchEffect : Obligations.LaunchEffect := fun s c hbusy =>
  ⟨s.launch c, writeAt_store (by decide) (.inl hbusy) c, rfl, rfl, Bool.and_false _⟩

/-- The offsets the busy rule guards lie in the block and are aligned (R20, R125). -/
theorem guarded_aligned {off : Nat} (h : off ∈ [0x08, 0x14, 0x18, 0x1C, 0x20, 0x24, 0x28, 0x2C]) :
    off < 256 ∧ off % 4 = 0 := by
  simp only [List.mem_cons, List.not_mem_nil, or_false] at h
  omega

/-- Settles O23: guarded writes are dropped, STATUS and IRQEN are not guarded, and each kind of register write that can
happen while BUSY = 1 leaves the sequencer and the operands. -/
theorem busyRule : Obligations.BusyRule := by
  refine ⟨fun s v off hbusy hoff => ?_, fun s v _ => ⟨writeAt_status s v, writeAt_irqen s v⟩, ?_⟩
  · rw [writeAt_aligned (guarded_aligned hoff), writeRegister_eq_drop hbusy (decide_eq_true hoff)]
    rfl
  · intro s t off bytes hbusy ht
    obtain rfl : s.hostWriteRegister off.toNat bytes = t := Host.Outcome.next.inj ht
    obtain h | ⟨-, h⟩ | ⟨hidle, -⟩ | ⟨v, h⟩ | ⟨v, h⟩ | ⟨hidle, -⟩ := hostWriteRegister_cases s off.toNat bytes
    case inr.inr.inl => exact nomatch hbusy.symm.trans hidle
    case inr.inr.inr.inr.inr => exact nomatch hbusy.symm.trans hidle
    all_goals
      rw [h]
      exact ⟨hbusy, rfl, rfl, rfl, rfl, rfl, rfl, rfl, rfl, rfl⟩

end Sys2Proof.Machine
end

section
/-! NOP (R140), the unit steps of a whole command (R120, R131, R137), and the outcome of a launch from an Idle unit
(R134, R281, R291). -/

namespace Sys2Proof.Machine

open Sys2Proof

/-! ### NOP (R140) -/

/-- NOP is its completion alone: Finish follows its Check, and completion does not look at PH (R136, R140). -/
theorem exec_nop (s : State) : exec .nop s = .next (s.finishCommand .nop .ok) := by
  rw [exec_eq, ← finishCommand_ph s .nop .ok (.run .finish [])]
  rfl

/-- NOP has no regions, so the end of a race changes no byte (R66, R140). -/
theorem settleRace_nop_mem (s : State) : (s.settleRace .nop).mem = s.mem := by
  unfold State.settleRace
  split <;> rfl

theorem runs_nop (s : State) : Runs .nop s (s.finishCommand .nop .ok) where
  answers := exec_nop s
  completed := (SameInterface.refl s).completed_finishCommand .nop .ok
  bytes c _ := by rw [State.finishCommand_mem, settleRace_nop_mem]
  unseen := s.finishCommand_unseen .nop .ok

/-- After a success STATUS shows DONE and the OVR from before (R24, R136). -/
theorem statusWord_of_completed {s t : State} (h : Completed s t .ok) :
    t.statusWord = BitVec.ofNat 32 (s.ovr.toNat * 8 + 2) := by
  rw [State.statusWord, State.err, h.errcode, h.same.ovr, h.done, h.busy]
  cases s.ovr <;> rfl

theorem Instr.eq_nop_of_op {i : Instr} (h : i.op = 0x00) : i = .nop := by
  cases i with
  | nop => rfl
  | _ => simp [Instr.op] at h

/-- The only command word with OP 0x00 is 0 (R91, R140). -/
theorem eq_zero_of_decodeWord {w : Word} {i : Instr} (hop : opBits w = 0x00) (h : decodeWord w = .ok i) : w = 0 := by
  obtain ⟨-, -, hfield, -⟩ := (decodeWord_fields w i).mp h
  have hi : i = .nop := Instr.eq_nop_of_op (hfield.symm.trans ((bitField_eq_extractLsb 7 0 w).trans hop))
  rw [← encode_of_decodeWord h, hi]
  rfl

/-- Settles O39: NOP has no phases, so its run is Finish, which leaves the datapath and, for want of regions, the
memory. -/
theorem nopOnlyCompletes : Obligations.NopOnlyCompletes := by
  refine ⟨fun s => ⟨_, runs_nop s, ?_, ?_, ?_, ?_⟩, rfl, fun _ => rfl, fun s _ hstatus => ⟨_, runs_nop _, ?_⟩,
    fun w hop hne => ?_⟩
  · rw [State.finishCommand_mem, settleRace_nop_mem]
  · exact s.finishCommand_n .nop .ok
  · exact s.finishCommand_mlen .nop .ok
  · exact s.finishCommand_dp .nop .ok
  · obtain ⟨-, -, -, hovr, -⟩ := s.statusWord_fields
    rw [hstatus] at hovr
    rw [statusWord_of_completed (runs_nop _).completed, State.launch_ovr, ← hovr]
    rfl
  · cases h : decodeWord w with
    | error e => exact ⟨e, rfl⟩
    | ok i => exact absurd (eq_zero_of_decodeWord hop h) hne

/-! ### No phase of a command is Check (R40) -/

theorem check_not_mem_forwardPhases (v : Vec) (l : Nat) : Phase.check ∉ forwardPhases v l := by
  simp [forwardPhases]

theorem check_not_mem_inversePhases (v : Vec) (l : Nat) : Phase.check ∉ inversePhases v l := by
  simp [inversePhases, check_not_mem_forwardPhases]

theorem check_not_mem_bluesteinPhases (m : Nat) : Phase.check ∉ bluesteinPhases m := by
  simp [bluesteinPhases, check_not_mem_forwardPhases, check_not_mem_inversePhases]

theorem check_not_mem_bluesteinInversePhases (m : Nat) : Phase.check ∉ bluesteinInversePhases m := by
  simp [bluesteinInversePhases, check_not_mem_bluesteinPhases]

theorem check_not_mem_phasesOf (i : Instr) (s : State) : Phase.check ∉ phasesOf i s := by
  cases i with
  | dftF =>
    simp only [phasesOf, phasesDftF]
    split
    · exact check_not_mem_forwardPhases _ _
    · exact check_not_mem_bluesteinPhases _
  | dftI =>
    simp only [phasesOf, phasesDftI]
    split
    · exact check_not_mem_inversePhases _ _
    · exact check_not_mem_bluesteinInversePhases _
  | fft2F => exact check_not_mem_forwardPhases _ _
  | fft2I => exact check_not_mem_inversePhases _ _
  | blueF => exact check_not_mem_bluesteinPhases _
  | blueI => exact check_not_mem_bluesteinInversePhases _
  | nop | bitrev | stage _ | conj | scale | cmul | chirpN | chirpP =>
    simp [phasesOf, phasesNop, phasesBitrev, phasesStage, phasesConj, phasesScale, phasesCmul, phasesChirpN,
      phasesChirpP]

/-! ### A whole command is unit steps (R120, R131, R137) -/

theorem advance_cmd (t : Config.Trig) (i : Instr) (p : Phase) (rest : List Phase) (s : State) :
    (advance t i p rest s).cmd = s.cmd :=
  (doPhase_same t i p s).cmd

/-- The phases of a command from the one it is in are one unit step each, up to the last or to the one that stops. -/
theorem runPhases_eq_unitSteps (t : Config.Trig) {i : Instr} {p : Phase} {rest : List Phase} {s : State}
    (hph : s.ph = .run p rest) (hd : decodeWord s.cmd = .ok i) (hcheck : Phase.check ∉ p :: rest) :
    ∃ k, runPhases t i (p :: rest) s = (unitStep t)^[k + 1] s := by
  induction rest generalizing s p with
  | nil =>
    rw [runPhases_of_run t hph]
    split
    case isTrue hadm =>
      exact ⟨0, (unitStep_of_admitted t hph hd (List.ne_of_not_mem_cons hcheck).symm hadm).symm⟩
    case isFalse hadm => exact ⟨0, (unitStep_of_refused t hph hd (by simpa using hadm)).symm⟩
  | cons q rest ih =>
    rw [runPhases_of_run t hph]
    split
    case isTrue hadm =>
      have hstep := unitStep_of_admitted t hph hd (List.ne_of_not_mem_cons hcheck).symm hadm
      have hcmd := advance_cmd t i p (q :: rest) s
      obtain ⟨k, hk⟩ := ih (s := advance t i p (q :: rest) s) rfl (hcmd.symm ▸ hd) (List.not_mem_of_not_mem_cons hcheck)
      exact ⟨k + 1, by rw [hk, Function.iterate_succ_apply _ (k + 1), hstep]⟩
    case isFalse hadm => exact ⟨0, (unitStep_of_refused t hph hd (by simpa using hadm)).symm⟩

theorem unitStep_of_check (t : Config.Trig) {s : State} {rest : List Phase} {i : Instr} (hph : s.ph = .run .check rest)
    (hd : decodeWord s.cmd = .ok i) : unitStep t s = beginCommand i (phasesOf i s) s := by
  simp only [unitStep, hph, hd, if_true]

/-- Settles O55: the first unit step is Check, which ends a failing command; a passing one goes through its phases. -/
theorem wholeCommandIsUnitSteps : Obligations.WholeCommandIsUnitSteps := by
  intro i s t hph hd hexec
  obtain rfl : runCommand Config.trig i (phasesOf i s) s = t := Host.Outcome.next.inj ((exec_eq i s).symm.trans hexec)
  have hfirst := unitStep_of_check Config.trig hph hd
  by_cases hc : check i s = .ok
  · obtain ⟨q, rest, hps, hrun, hin⟩ := beginCommand_inPhase hd hc
    have hcheck : Phase.check ∉ q :: rest := by
      rw [← hps]
      simp [check_not_mem_phasesOf]
    obtain ⟨k, hk⟩ := runPhases_eq_unitSteps Config.trig hrun hin.decoded hcheck
    refine ⟨k + 2, by omega, ?_⟩
    rw [runCommand_eq_runPhases _ hc, hps, hk, Function.iterate_succ_apply, hfirst]
  · refine ⟨1, le_refl 1, ?_⟩
    rw [runCommand_error _ hc, Function.iterate_one, hfirst, beginCommand_error hc]

/-! ### The outcome of a launch from an Idle unit (R134, R281, R291) -/

/-- With no event pending, the step after the launch of a command runs it (R130, R131). -/
theorem step_launch {s : State} {i : Instr} (hi : i.WellFormed = true) (hin : s.inputs = []) :
    step (s.launch (encode i)) = exec i (s.launch (encode i)) :=
  step_of_check (rest := []) hin rfl (decodeWord_encode hi)

/-- A command that fails its check leaves STATUS and the latched word as the only change to an Idle unit (R66, R134,
R291). -/
theorem finishCommand_launch_of_error {s : State} {i : Instr} (h : s.Inv) (hbusy : s.busy = false)
    (hc : check i s ≠ .ok) (w : Word) (code : ErrCode) :
    (s.launch w).finishCommand i code = { s with cmd := w, done := true, errcode := code } := by
  obtain ⟨hidle, hraced⟩ := h.idle hbusy
  have hnone : (s.launch w).rwRegions i = [] := if_pos (.inr hc)
  rw [State.finishCommand_of_not_raced (s.launch w) i code hraced, hnone, List.append_nil, State.complete,
    State.launch, hbusy, hidle]

/-- Settles O36: the launch, and the one step that ends the command, are each said in full. -/
theorem errorsAllOrNothing : Obligations.ErrorsAllOrNothing := by
  refine ⟨fun i s hi hinv hbusy hin hc => ⟨_, hostWrite_cmd hbusy _, ?_⟩, fun w s hw hinv hbusy hin => ?_,
    fun i s hi _ hbusy hin hh hc => ?_⟩
  · have hlaunched : check i (s.launch (encode i)) = check i s := check_launch i s s.inputs (encode i)
    rw [step_launch hi hin, exec_error (hlaunched.trans_ne hc), hlaunched,
      finishCommand_launch_of_error hinv hbusy hc]
  · obtain ⟨t, u, hlaunch, hstep, rfl, -⟩ := illegalWordReported s w hbusy hin hw
    refine ⟨t, hlaunch, ?_⟩
    rw [hstep, (hinv.idle hbusy).1]
  · obtain ⟨u, hexec, hdone, -⟩ := acceptedCommandsComplete i (s.launch (encode i)) hc hh
    exact ⟨_, u, hostWrite_cmd hbusy _, (step_launch hi hin).trans hexec, hdone⟩

end Sys2Proof.Machine
end

section
/-! No command depends on what an earlier one left in the unit (R138): each pass writes the same memory whatever the
counters and datapath registers held before it, so two runs from states that agree outside the unit stay in step. -/

namespace Sys2Proof.Machine

open Sys2Proof

/-! ### The memory after a pass does not depend on the datapath registers before it -/

/-- Two runs of a loop stay related when each iteration keeps them related. -/
theorem forRange_rel {α : Type} (R : α → α → Prop) {body : Nat → α → α}
    (hbody : ∀ k x y, R x y → R (body k x) (body k y)) (lo cnt : Nat) {x y : α} (h : R x y) :
    R (forRange body lo cnt x) (forRange body lo cnt y) := by
  induction cnt generalizing lo x y with
  | zero => exact h
  | succ cnt ih => exact ih (lo + 1) (hbody lo x y h)

/-- A loop whose body writes the same memory for any datapath registers. -/
theorem forRange_mem_congr {body : Nat → Work → Work}
    (hbody : ∀ k m dp dp', (body k ⟨dp, m⟩).mem = (body k ⟨dp', m⟩).mem) (lo cnt : Nat) {x y : Work}
    (h : x.mem = y.mem) : (forRange body lo cnt x).mem = (forRange body lo cnt y).mem := by
  refine forRange_rel (fun x y : Work => x.mem = y.mem) ?_ lo cnt h
  rintro k ⟨dp, m⟩ ⟨dp', m'⟩ rfl
  exact hbody k m dp dp'

/-- The state of BitRev's loop: the memory and the reversed-index counter (R201). -/
def SameBitRev (x y : Work) : Prop := x.mem = y.mem ∧ x.dp.bitR = y.dp.bitR

theorem sameBitRev_bitRevStep (v : Bases) (l i : Nat) (x y : Work) (h : SameBitRev x y) :
    SameBitRev (bitRevStep v l i x) (bitRevStep v l i y) := by
  obtain ⟨hmem, hr⟩ := h
  exact ⟨by simp only [bitRevStep, hmem, hr], by simp only [bitRevStep, hr]⟩

/-- BitRev starts its counter at 0 (R201). -/
theorem bitRevPass_mem_congr (v : Bases) (l : Nat) {x y : Work} (h : x.mem = y.mem) :
    (bitRevPass v l x).mem = (bitRevPass v l y).mem :=
  have hloop : SameBitRev (bitRevPass v l x) (bitRevPass v l y) :=
    forRange_rel SameBitRev (sameBitRev_bitRevStep v l) 1 (l - 1) ⟨h, rfl⟩
  hloop.1

/-- The state of a stage's loop over its blocks: the memory and the base twiddle (R203). -/
def SameStage (x y : Work) : Prop := x.mem = y.mem ∧ x.dp.omega = y.dp.omega

/-- The state of a block's loop over its positions: that of the stage, and the rotation register (R176, R203). -/
def SameBlock (x y : Work) : Prop := SameStage x y ∧ x.dp.w = y.dp.w

theorem sameBlock_stagePosition (v : Bases) (half blk : Nat) (d : Draw) (j : Nat) (x y : Work) (h : SameBlock x y) :
    SameBlock (stagePosition v half blk d j x) (stagePosition v half blk d j y) := by
  obtain ⟨⟨hmem, homega⟩, hw⟩ := h
  exact ⟨⟨by simp only [stagePosition, hmem, hw], homega⟩, by simp only [stagePosition, homega, hw]⟩

/-- A block starts its rotation register at (1.0, +0.0) (R176). -/
theorem sameStage_stageBlock (v : Bases) (half : Nat) (d : Draw) (b : Nat) (x y : Work) (h : SameStage x y) :
    SameStage (stageBlock v half d b x) (stageBlock v half d b y) :=
  have hloop : SameBlock (stageBlock v half d b x) (stageBlock v half d b y) :=
    forRange_rel SameBlock (sameBlock_stagePosition v half (b * (2 * half)) d) 0 half ⟨h, rfl⟩
  hloop.1

/-- A stage loads its base twiddle (R203). -/
theorem stagePass_mem_congr (v : Bases) (l s : Nat) (tw : Cplx) (d : Draw) {x y : Work} (h : x.mem = y.mem) :
    (stagePass v l s tw d x).mem = (stagePass v l s tw d y).mem :=
  have hloop : SameStage (stagePass v l s tw d x) (stagePass v l s tw d y) :=
    forRange_rel SameStage (sameStage_stageBlock v (2 ^ (s - 1)) d) 0 (l / 2 ^ s) ⟨h, rfl⟩
  hloop.1

section
variable {x y : Work} (h : x.mem = y.mem)
include h

theorem conjPass_mem_congr (v : Bases) (l : Nat) : (conjPass v l x).mem = (conjPass v l y).mem :=
  forRange_mem_congr (fun _ _ _ _ => rfl) 0 l h

theorem scalePass_mem_congr (v : Bases) (l : Nat) (d : Draw) : (scalePass v l d x).mem = (scalePass v l d y).mem :=
  forRange_mem_congr (fun _ _ _ _ => rfl) 0 l h

theorem zeroPass_mem_congr (scr m : Nat) : (zeroPass scr m x).mem = (zeroPass scr m y).mem :=
  forRange_mem_congr (fun _ _ _ _ => rfl) 0 (6 * m) h

theorem chirpFillPass_mem_congr (t : Config.Trig) (vx va vb : Bases) (n m : Nat) (d : Draw) :
    (chirpFillPass t vx va vb n m d x).mem = (chirpFillPass t vx va vb n m d y).mem :=
  forRange_mem_congr (fun _ _ _ _ => rfl) 0 n h

theorem pointMulPass_mem_congr (dst p q : Bases) (l : Nat) (d : Draw) :
    (pointMulPass dst p q l d x).mem = (pointMulPass dst p q l d y).mem :=
  forRange_mem_congr (fun _ _ _ _ => rfl) 0 l h

theorem extractPass_mem_congr (t : Config.Trig) (vx vc : Bases) (n : Nat) (d : Draw) :
    (extractPass t vx vc n d x).mem = (extractPass t vx vc n d y).mem :=
  forRange_mem_congr (fun _ _ _ _ => rfl) 0 n h

theorem chirpMulPass_mem_congr (t : Config.Trig) (v : Bases) (n : Nat) (neg : Bool) (d : Draw) :
    (chirpMulPass t v n neg d x).mem = (chirpMulPass t v n neg d y).mem :=
  forRange_mem_congr (fun _ _ _ _ => rfl) 0 n h

end

/-! ### Which phases read M (R42, R250) -/

/-- The scratch buffers, whose place and length M gives (R250). -/
def Vec.inScratch : Vec → Bool
  | .x | .y => false
  | .a | .b | .c => true

/-- Whether a phase reads the register M: it works on a scratch buffer. -/
def Phase.readsM : Phase → Bool
  | .check | .finish | .chirpMul _ => false
  | .zero | .chirpFill | .extract => true
  | .conj v | .bitRev v | .stage v _ | .scale v => v.inScratch
  | .pointMul d p q => d.inScratch || p.inScratch || q.inScratch

theorem readsM_forwardPhases {v : Vec} {l : Nat} {p : Phase} (hp : p ∈ forwardPhases v l) : p.readsM = v.inScratch := by
  simp only [forwardPhases, List.mem_cons, List.mem_map] at hp
  rcases hp with rfl | ⟨_, -, rfl⟩ <;> rfl

theorem readsM_inversePhases {v : Vec} {l : Nat} {p : Phase} (hp : p ∈ inversePhases v l) : p.readsM = v.inScratch := by
  simp only [inversePhases, List.mem_cons, List.mem_append, List.not_mem_nil, or_false] at hp
  rcases hp with rfl | hp | rfl | rfl
  · rfl
  · exact readsM_forwardPhases hp
  · rfl
  · rfl

/-- Only a command on the Bluestein path, which sets M, has phases that read it (R42, R262). -/
theorem onBluestein_of_readsM {i : Instr} {s : State} {p : Phase} (hp : p ∈ phasesOf i s) (hm : p.readsM = true) :
    onBluestein i s.len.toNat = true := by
  cases i with
  | blueF | blueI => rfl
  | dftF =>
    cases hpow : isPow2 s.len.toNat with
    | false => simp [onBluestein, isDft, hpow]
    | true =>
      rw [phasesOf, phasesDftF, if_pos hpow] at hp
      exact nomatch (readsM_forwardPhases hp).symm.trans hm
  | dftI =>
    cases hpow : isPow2 s.len.toNat with
    | false => simp [onBluestein, isDft, hpow]
    | true =>
      rw [phasesOf, phasesDftI, if_pos hpow] at hp
      exact nomatch (readsM_inversePhases hp).symm.trans hm
  | fft2F => exact nomatch (readsM_forwardPhases hp).symm.trans hm
  | fft2I => exact nomatch (readsM_inversePhases hp).symm.trans hm
  | nop => exact nomatch hp
  | bitrev | stage _ | conj | scale | cmul | chirpN | chirpP =>
    obtain rfl := List.mem_singleton.mp hp
    exact nomatch hm

/-! ### Two runs in step (R138) -/

section
variable {s t : State} (h : SameOutside s t)
include h

/-- What keeps the interface of both states keeps it the same. -/
theorem SameOutside.interface_of_same {s' t' : State} (hs : SameInterface s s') (ht : SameInterface t t') :
    SameInterface s' { t' with cmd := s'.cmd } where
  ovr := ht.ovr.trans (h.interface.ovr.trans hs.ovr.symm)
  doneIe := ht.doneIe.trans (h.interface.doneIe.trans hs.doneIe.symm)
  len := ht.len.trans (h.interface.len.trans hs.len.symm)
  xre := ht.xre.trans (h.interface.xre.trans hs.xre.symm)
  xim := ht.xim.trans (h.interface.xim.trans hs.xim.symm)
  yre := ht.yre.trans (h.interface.yre.trans hs.yre.symm)
  yim := ht.yim.trans (h.interface.yim.trans hs.yim.symm)
  scr := ht.scr.trans (h.interface.scr.trans hs.scr.symm)
  scrsz := ht.scrsz.trans (h.interface.scrsz.trans hs.scrsz.symm)
  cmd := rfl
  holes := ht.holes.trans (h.interface.holes.trans hs.holes.symm)
  inputs := ht.inputs.trans (h.interface.inputs.trans hs.inputs.symm)
  hostData := ht.hostData.trans (h.interface.hostData.trans hs.hostData.symm)

theorem SameOutside.len : t.len = s.len := h.interface.len

theorem SameOutside.check (i : Instr) : check i t = check i s := h.interface.check i

theorem SameOutside.rwRegions (i : Instr) : t.rwRegions i = s.rwRegions i := h.interface.rwRegions i

theorem SameOutside.settleRace (i : Instr) :
    (t.settleRace i).mem = (s.settleRace i).mem ∧ (t.settleRace i).draws = (s.settleRace i).draws := by
  unfold State.settleRace
  rw [h.raced]
  split
  · exact ⟨by rw [h.draws, h.mem, h.rwRegions], congrArg (· + 1) h.draws⟩
  · exact ⟨h.mem, h.draws⟩

/-- Both commands end alike (R134, R136). -/
theorem SameOutside.finishCommand (i : Instr) (code : ErrCode) :
    SameOutside (s.finishCommand i code) (t.finishCommand i code) where
  interface := h.interface_of_same (finishCommand_same s i code) (finishCommand_same t i code)
  busy := by simp
  done := by simp
  errcode := by simp
  ph := by simp
  mem := by simpa using (h.settleRace i).1
  raced := by simp
  unseen := by simp [h.unseen, h.rwRegions]
  draws := by simpa using (h.settleRace i).2

theorem SameOutside.takeOperands (i : Instr) : SameOutside (s.takeOperands i) (t.takeOperands i) where
  interface := h.interface_of_same (takeOperands_same s i) (takeOperands_same t i)
  busy := by simp [h.busy]
  done := by simp [h.done]
  errcode := by simp [h.errcode]
  ph := by simp [h.ph]
  mem := by simp [h.mem]
  raced := by simp [h.raced]
  unseen := by simp [h.unseen]
  draws := by simp [h.draws]

end

/-- Two runs of a command in step: they agree outside the unit and on n, and on M if the command uses it. -/
structure InStep (usesM : Bool) (s t : State) : Prop extends SameOutside s t where
  n : t.n = s.n
  mlen : usesM = true → t.mlen = s.mlen

/-- After its operands are taken a command is in step with itself, whatever n and M were before (R42, R132). -/
theorem SameOutside.inStep {s t : State} {i : Instr} (h : SameOutside s t) (hi : i ≠ .nop) :
    InStep (onBluestein i s.len.toNat) (s.takeOperands i) (t.takeOperands i) where
  toSameOutside := h.takeOperands i
  n := by rw [t.takeOperands_n_of_ne i hi, s.takeOperands_n_of_ne i hi, h.len]
  mlen hb := by
    have hb' : onBluestein i t.len.toNat = true := h.len ▸ hb
    rw [t.takeOperands_mlen_of_bluestein i hi hb', s.takeOperands_mlen_of_bluestein i hi hb, h.len]

section
variable {usesM : Bool} {s t : State} (h : InStep usesM s t)
include h

theorem InStep.bases {v : Vec} (hv : v.inScratch = true → usesM = true) : t.bases v = s.bases v := by
  have hi := h.interface
  cases v with
  | x => exact congrArg₂ (fun re im : Word => Bases.mk re.toNat im.toNat) hi.xre hi.xim
  | y => exact congrArg₂ (fun re im : Word => Bases.mk re.toNat im.toNat) hi.yre hi.yim
  | a | b | c =>
    have hscr : t.scr = s.scr := hi.scr
    simp only [State.bases, hscr, h.mlen (hv rfl)]

theorem InStep.lengthOf {v : Vec} (hv : v.inScratch = true → usesM = true) : t.lengthOf v = s.lengthOf v := by
  cases v with
  | x | y => exact h.n
  | a | b | c => exact h.mlen (hv rfl)

/-- A phase writes the same memory in both runs. -/
theorem InStep.doPhase_mem (tr : Config.Trig) (i : Instr) {p : Phase} (hp : p ≠ .finish)
    (hm : p.readsM = true → usesM = true) : (doPhase tr i p t).mem = (doPhase tr i p s).mem := by
  have hx : t.bases .x = s.bases .x := h.bases nofun
  cases p with
  | check => exact h.mem
  | finish => exact absurd rfl hp
  | conj v =>
    simp only [doPhase, State.work_mem, State.setLength_dp, State.setLength_mem, h.bases hm, h.lengthOf hm]
    exact conjPass_mem_congr h.mem _ _
  | bitRev v =>
    simp only [doPhase, State.work_mem, State.setLength_dp, State.setLength_mem, h.bases hm, h.lengthOf hm]
    exact bitRevPass_mem_congr _ _ h.mem
  | stage v g =>
    simp only [doPhase, State.work_mem, State.setLength_dp, State.setLength_mem, State.setLength_draws, h.bases hm,
      h.lengthOf hm, h.draws]
    exact stagePass_mem_congr _ _ _ _ _ h.mem
  | scale v =>
    simp only [doPhase, State.work_mem, State.setLength_dp, State.setLength_mem, State.setLength_draws, h.bases hm,
      h.lengthOf hm, h.draws]
    exact scalePass_mem_congr h.mem _ _ _
  | zero =>
    have hscr : t.scr = s.scr := h.interface.scr
    simp only [doPhase, State.work_mem, hscr, h.mlen (hm rfl)]
    exact zeroPass_mem_congr h.mem _ _
  | chirpFill =>
    simp only [doPhase, State.work_mem, hx, h.bases (v := .a) hm, h.bases (v := .b) hm, h.n, h.mlen (hm rfl), h.draws]
    exact chirpFillPass_mem_congr h.mem _ _ _ _ _ _ _
  | pointMul d p q =>
    simp only [Phase.readsM, Bool.or_eq_true, or_imp] at hm
    obtain ⟨⟨hd, hp'⟩, hq⟩ := hm
    simp only [doPhase, State.work_mem, h.bases hd, h.bases hp', h.bases hq, h.lengthOf hd, h.draws]
    exact pointMulPass_mem_congr h.mem _ _ _ _ _
  | extract =>
    simp only [doPhase, State.work_mem, hx, h.bases (v := .c) hm, h.n, h.draws]
    exact extractPass_mem_congr h.mem _ _ _ _ _
  | chirpMul neg =>
    simp only [doPhase, State.work_mem, hx, h.n, h.draws]
    exact chirpMulPass_mem_congr h.mem _ _ _ _ _

/-- A phase takes as many draws in both runs. -/
theorem InStep.doPhase_draws (tr : Config.Trig) (i : Instr) {p : Phase} (hp : p ≠ .finish) :
    (doPhase tr i p t).draws = (doPhase tr i p s).draws := by
  cases p with
  | check => exact h.draws
  | finish => exact absurd rfl hp
  | _ => exact congrArg (· + 1) h.draws

/-- A phase keeps the runs in step. -/
theorem InStep.doPhase (tr : Config.Trig) (i : Instr) {p : Phase} (hp : p ≠ .finish)
    (hm : p.readsM = true → usesM = true) : InStep usesM (doPhase tr i p s) (doPhase tr i p t) := by
  have hs := doPhase_same tr i p s
  have ht := doPhase_same tr i p t
  obtain ⟨sbusy, sdone, scode, sraced, sph⟩ := doPhase_status tr i hp s
  obtain ⟨tbusy, tdone, tcode, traced, tph⟩ := doPhase_status tr i hp t
  exact
    { interface := h.interface_of_same hs.toSameInterface ht.toSameInterface
      busy := by rw [tbusy, sbusy, h.busy]
      done := by rw [tdone, sdone, h.done]
      errcode := by rw [tcode, scode, h.errcode]
      ph := by rw [tph, sph, h.ph]
      mem := h.doPhase_mem tr i hp hm
      raced := by rw [traced, sraced, h.raced]
      unseen := by rw [doPhase_unseen tr i hp, doPhase_unseen tr i hp, h.unseen]
      draws := h.doPhase_draws tr i hp
      n := by rw [ht.n, hs.n, h.n]
      mlen := fun hb => by rw [ht.mlen, hs.mlen, h.mlen hb] }

theorem InStep.applyPhases (tr : Config.Trig) (i : Instr) {ps : List Phase} (hne : ∀ p ∈ ps, p ≠ .finish)
    (hm : ∀ p ∈ ps, p.readsM = true → usesM = true) : InStep usesM (applyPhases tr i ps s) (applyPhases tr i ps t) := by
  induction ps generalizing s t with
  | nil => exact h
  | cons p ps ih =>
    exact ih (h.doPhase tr i (hne p List.mem_cons_self) (hm p List.mem_cons_self))
      (fun q hq => hne q (List.mem_cons_of_mem _ hq)) fun q hq => hm q (List.mem_cons_of_mem _ hq)

end

/-- The phases of a command, from its operands on, keep two runs the same outside the unit. -/
theorem SameOutside.applyPhasesOf {s t : State} (h : SameOutside s t) (i : Instr) :
    SameOutside (applyPhases Config.trig i (phasesOf i s) (s.takeOperands i))
      (applyPhases Config.trig i (phasesOf i t) (t.takeOperands i)) := by
  rw [phasesOf_congr h.len i]
  by_cases hi : i = .nop
  · subst hi
    exact h.takeOperands .nop
  · have hphases := (h.inStep hi).applyPhases Config.trig i (phasesOf_ne_finish i s) fun _ => onBluestein_of_readsM
    exact hphases.toSameOutside

/-- Settles O56: the check reads registers alone, and a passing command takes its operands anew, runs its phases in
step and ends alike. -/
theorem commandsAreReentrant : Obligations.CommandsAreReentrant := by
  intro i s t hh h
  have hht : t.holes = [] := h.interface.holes.trans hh
  by_cases hc : check i s = .ok
  · exact ⟨_, _, exec_ok hc hh, exec_ok ((h.check i).trans hc) hht, (h.applyPhasesOf i).finishCommand i .ok⟩
  · refine ⟨_, _, exec_error hc, exec_error ((h.check i).trans_ne hc), ?_⟩
    rw [h.check i]
    exact h.finishCommand i _

end Sys2Proof.Machine
end

section
/-! The binary32 operations by the kind of their operands (R161 to R164): one rule for finite words, for infinities and
for NaNs, and from them where each operation rounds and where it gives a NaN. -/

namespace Sys2Proof.Machine

open Sys2Proof

/-! ### NaN, infinity and zero -/

/-- A NaN word by its fields (R162). -/
theorem isNaN32_iff_fields (w : Word) :
    isNaN32 w = true ↔ w.extractLsb 30 23 = 0xFF#8 ∧ w.extractLsb 22 0 ≠ 0#23 := by
  have hnan : isNaN32 w = true ↔ 0x7F800000 < w.toNat % 2 ^ 31 := decide_eq_true_iff
  rw [hnan, ne_eq, ← BitVec.toNat_inj, ← BitVec.toNat_inj, ← bitField_eq_extractLsb, ← bitField_eq_extractLsb]
  simp only [bitField, BitVec.toNat_ofNat]
  omega

theorem isNaN32_of_isInf32 {w : Word} (h : isInf32 w = true) : isNaN32 w = false := by
  simp only [isInf32, decide_eq_true_eq] at h
  simp [isNaN32, h]

theorem isZero32_of_isInf32 {w : Word} (h : isInf32 w = true) : isZero32 w = false := by
  simp only [isInf32, decide_eq_true_eq] at h
  simp [isZero32, h, inf32]

/-- An infinity is known by its sign. -/
theorem eq_of_isInf32 {a b : Word} (ha : isInf32 a = true) (hb : isInf32 b = true) (hs : sign32 a = sign32 b) :
    a = b := by
  simp only [isInf32, decide_eq_true_eq] at ha hb
  exact word_ext hs (ha.trans hb.symm)

@[simp] theorem isInf32_pack32_inf (neg : Bool) : isInf32 (pack32 neg inf32) = true := by simp [isInf32]

/-! ### neg32 (R164) -/

/-- Settles O10: the mask of neg32 has bit 31 alone. -/
theorem negInvertsBit31 : Obligations.NegInvertsBit31 := by
  intro a k
  have hmask : (0x80000000 : Word).getLsbD k = decide (31 = k) := Nat.testBit_two_pow (n := 31)
  rw [neg32, BitVec.getLsbD_xor, hmask]
  by_cases hk : k = 31
  · subst hk
    simp
  · simp [hk, Ne.symm hk]

/-! ### add32 and sub32 (R161) -/

section
variable (d : Draw) {a b : Word}

theorem add32_of_finite (ha : isNaN32 a = false) (hai : isInf32 a = false) (hb : isNaN32 b = false)
    (hbi : isInf32 b = false) :
    add32 d a b =
      if value32 a + value32 b = 0 then pack32 (sign32 a && sign32 b) 0
      else pack32 (decide (value32 a + value32 b < 0)) (roundMag 24 (value32 a + value32 b).natAbs 1) := by
  simp [add32, ha, hai, hb, hbi]

/-- An infinity absorbs every operand but a NaN and the other infinity. -/
theorem add32_of_inf_left (ha : isInf32 a = true) (hb : isNaN32 b = false)
    (hs : isInf32 b = true → sign32 a = sign32 b) : add32 d a b = a := by
  have hsame : (isInf32 b && (sign32 a != sign32 b)) = false := by
    cases hbi : isInf32 b with
    | false => rfl
    | true => simp [hs hbi]
  simp [add32, isNaN32_of_isInf32 ha, ha, hb, hsame]

theorem add32_of_inf_right (ha : isNaN32 a = false) (hai : isInf32 a = false) (hb : isInf32 b = true) :
    add32 d a b = b := by
  rw [add32_comm]
  exact add32_of_inf_left d hb ha (by simp [hai])

theorem isNaN32_add32_of_opposite_infs (ha : isInf32 a = true) (hb : isInf32 b = true) (hs : sign32 a ≠ sign32 b) :
    isNaN32 (add32 d a b) = true := by
  simp [add32, isNaN32_of_isInf32 ha, isNaN32_of_isInf32 hb, ha, hb, hs]

/-- A sum of finite words that is not 0 is rounded once (R161). -/
theorem rounds32_add32 (ha : isNaN32 a = false) (hai : isInf32 a = false) (hb : isNaN32 b = false)
    (hbi : isInf32 b = false) (h0 : value32 a + value32 b ≠ 0) :
    Rounds32 (decide (value32 a + value32 b < 0)) (value32 a + value32 b).natAbs 1 (add32 d a b) := by
  rw [add32_of_finite d ha hai hb hbi, if_neg h0]
  exact rounds32_pack32 _ _ _ Nat.one_pos

/-- A sum that is exactly 0 is -0 only where both operands are negative (R161). -/
theorem add32_of_sum_zero (ha : isNaN32 a = false) (hai : isInf32 a = false) (hb : isNaN32 b = false)
    (hbi : isInf32 b = false) (h0 : value32 a + value32 b = 0) :
    add32 d a b = if sign32 a = true ∧ sign32 b = true then 0x80000000 else 0x00000000 := by
  rw [add32_of_finite d ha hai hb hbi, if_pos h0]
  cases sign32 a <;> cases sign32 b <;> rfl

/-- Settles O7: a difference is the sum with the second operand negated, and each clause is the rule for its operands. -/
theorem addSubRoundOnce : Obligations.AddSubRoundOnce := by
  intro d a b ha hb
  have hnb : isNaN32 (neg32 b) = false := by rwa [isNaN32_neg32]
  have hsub : sub32 d a b = add32 d a (neg32 b) := rfl
  rw [hsub]
  refine ⟨fun hai hbi => ?_, fun hai hbi => ?_, fun hai hbi => ?_, fun hai hbi hs => ?_, fun hai hbi hs => ?_⟩
  · have hnbi : isInf32 (neg32 b) = false := by rwa [isInf32_neg32]
    have hdiff : value32 a - value32 b = value32 a + value32 (neg32 b) := by rw [value32_neg32, Int.sub_eq_add_neg]
    rw [hdiff]
    refine ⟨rounds32_add32 d ha hai hb hbi, rounds32_add32 d ha hai hnb hnbi, add32_of_sum_zero d ha hai hb hbi,
      fun h0 => ?_⟩
    simp only [add32_of_sum_zero d ha hai hnb hnbi h0, sign32_neg32, Bool.not_eq_true']
  · exact ⟨add32_of_inf_left d hai hb (by simp [hbi]), add32_of_inf_left d hai hnb (by simp [hbi])⟩
  · exact ⟨add32_of_inf_right d ha hai hbi, add32_of_inf_right d ha hai (by rwa [isInf32_neg32])⟩
  · exact ⟨add32_of_inf_left d hai hb fun _ => hs,
      isNaN32_add32_of_opposite_infs d hai (by rwa [isInf32_neg32]) (by simp [hs])⟩
  · exact ⟨isNaN32_add32_of_opposite_infs d hai hbi hs,
      add32_of_inf_left d hai hnb fun _ => by rw [sign32_neg32, Bool.eq_not]; exact hs⟩

/-! ### mul32 (R163) -/

theorem mul32_of_finite (ha : isNaN32 a = false) (hai : isInf32 a = false) (hb : isNaN32 b = false)
    (hbi : isInf32 b = false) :
    mul32 d a b = pack32 (sign32 a != sign32 b) (roundMag 24 (units32 a * units32 b) (2 ^ 149)) := by
  simp [mul32, ha, hai, hb, hbi]

theorem mul32_of_inf (ha : isNaN32 a = false) (hb : isNaN32 b = false) (hi : isInf32 a = true ∨ isInf32 b = true)
    (haz : isZero32 a = false) (hbz : isZero32 b = false) :
    mul32 d a b = pack32 (sign32 a != sign32 b) inf32 := by
  simp [mul32, ha, hb, hi, haz, hbz]

theorem isNaN32_mul32_of_zero_inf
    (h : isInf32 a = true ∧ isZero32 b = true ∨ isZero32 a = true ∧ isInf32 b = true) :
    isNaN32 (mul32 d a b) = true := by
  unfold mul32
  rcases h with ⟨hi, hz⟩ | ⟨hz, hi⟩ <;> simp [hi, hz]

end

/-- Settles O8: each clause is the rule for its operands. -/
theorem mulRoundsOnce : Obligations.MulRoundsOnce := by
  intro d a b ha hb
  refine ⟨fun hai hbi => ?_, fun hi haz hbz => ?_, isNaN32_mul32_of_zero_inf d⟩
  · rw [mul32_of_finite d ha hai hb hbi]
    exact rounds32_pack32 _ _ _ (by positivity)
  · rw [mul32_of_inf d ha hb hi haz hbz]
    exact ⟨isInf32_pack32_inf _, sign32_pack32 _ _⟩

end Sys2Proof.Machine
end

section
/-! Narrowing and the binary64 operations by the kind of their operands (R160, R165, R166), and exactly where each
operation gives a NaN (R162). -/

namespace Sys2Proof.Machine

open Sys2Proof

/-! ### NaN, infinity and zero in binary64 -/

theorem isNaN64_of_isInf64 {x : DWord} (h : isInf64 x = true) : isNaN64 x = false := by
  simp only [isInf64, decide_eq_true_eq] at h
  simp [isNaN64, h]

theorem isZero64_of_isInf64 {x : DWord} (h : isInf64 x = true) : isZero64 x = false := by
  simp only [isInf64, decide_eq_true_eq] at h
  simp [isZero64, h, inf64]

/-- A drawn NaN is a NaN word, whatever the draw (R162). -/
@[simp] theorem isNaN64_nan64 (d : Draw) : isNaN64 (nan64 d) = true := by
  have key : ∀ (s : Bool) (f : Nat), f < 4503599627370495 →
      9218868437227405312 <
        (BitVec.ofNat 64 ((if s then 2 ^ 63 else 0) + 9218868437227405312 + 1 + f)).toNat % 2 ^ 63 := by
    intro s f hf
    rw [BitVec.toNat_ofNat]
    cases s
    · simp only [Bool.false_eq_true, if_false]
      omega
    · simp only [if_true]
      omega
  exact decide_eq_true (key _ _ (Config.nanDraw64 d).2.isLt)

/-- A word is a zero exactly where its magnitude is 0. -/
theorem isZero64_iff_units (x : DWord) : isZero64 x = true ↔ units64 x = 0 := by
  have h0 : magUnits 53 0 = 0 := rfl
  have hinj := (magUnits_strictMono 53).injective.eq_iff (a := abs64 x) (b := 0)
  rw [units64_eq_magUnits, ← h0, hinj]
  exact decide_eq_true_iff

/-! ### rn32 (R160) -/

section
variable (d : Draw) {x y : DWord}

theorem rn32_of_finite (hx : isNaN64 x = false) (hxi : isInf64 x = false) :
    rn32 d x = pack32 (sign64 x) (roundMag 24 (units64 x) (2 ^ 925)) := by
  simp [rn32, hx, hxi, -Nat.reducePow]

theorem rn32_of_inf (hxi : isInf64 x = true) : rn32 d x = pack32 (sign64 x) inf32 := by
  simp [rn32, isNaN64_of_isInf64 hxi, hxi]

theorem rn32_of_nan (hx : isNaN64 x = true) : rn32 d x = nan32 d := by
  simp [rn32, hx]

/-- A zero keeps its sign. -/
theorem rn32_of_zero (hx : isNaN64 x = false) (hxi : isInf64 x = false) (h0 : units64 x = 0) :
    rn32 d x = pack32 (sign64 x) 0 := by
  rw [rn32_of_finite d hx hxi, h0, roundMag_zero _ _ (by positivity)]

theorem isNaN32_rn32_iff : isNaN32 (rn32 d x) = true ↔ isNaN64 x = true := by
  cases hx : isNaN64 x with
  | true => simp [rn32_of_nan d hx]
  | false =>
    cases hxi : isInf64 x with
    | true => simp [rn32_of_inf d hxi]
    | false => rw [rn32_of_finite d hx hxi, isNaN32_pack32]

/-! ### mul64 and div64 (R166) -/

theorem mul64_of_finite (hx : isNaN64 x = false) (hxi : isInf64 x = false) (hy : isNaN64 y = false)
    (hyi : isInf64 y = false) :
    mul64 d x y = pack64 (sign64 x != sign64 y) (roundMag 53 (units64 x * units64 y) (2 ^ 1074)) := by
  simp [mul64, hx, hxi, hy, hyi, -Nat.reducePow]

theorem div64_of_finite (hx : isNaN64 x = false) (hxi : isInf64 x = false) (hy : isNaN64 y = false)
    (hyi : isInf64 y = false) (hyz : isZero64 y = false) :
    div64 d x y = pack64 (sign64 x != sign64 y) (roundMag 53 (units64 x * 2 ^ 1074) (units64 y)) := by
  simp [div64, hx, hxi, hy, hyi, hyz, -Nat.reducePow]

/-- Products of finite words are rounded once (R166). -/
theorem rounds64_mul64 (hx : isNaN64 x = false) (hxi : isInf64 x = false) (hy : isNaN64 y = false)
    (hyi : isInf64 y = false) :
    Rounds64 (sign64 x != sign64 y) (units64 x * units64 y) (2 ^ 1074) (mul64 d x y) := by
  rw [mul64_of_finite d hx hxi hy hyi]
  exact rounds64_pack64 _ _ _ (by positivity)

/-- Quotients of finite words by a word that is no zero are rounded once (R166). -/
theorem rounds64_div64 (hx : isNaN64 x = false) (hxi : isInf64 x = false) (hy : isNaN64 y = false)
    (hyi : isInf64 y = false) (hyz : isZero64 y = false) :
    Rounds64 (sign64 x != sign64 y) (units64 x * 2 ^ 1074) (units64 y) (div64 d x y) := by
  have hpos : units64 y ≠ 0 := fun h => by simp [(isZero64_iff_units y).mpr h] at hyz
  rw [div64_of_finite d hx hxi hy hyi hyz]
  exact rounds64_pack64 _ _ _ (Nat.pos_of_ne_zero hpos)

end

/-- Settles O6: a finite value is packed from its rounded magnitude, and the other words keep their kind. -/
theorem rn32RoundsToNearest : Obligations.Rn32RoundsToNearest := by
  intro d x
  refine ⟨fun hx hxi => ?_, ?_, ?_, ?_, ?_, (isNaN32_rn32_iff d).mpr⟩
  · rw [rn32_of_finite d hx hxi]
    exact rounds32_pack32 _ _ _ (by positivity)
  · exact (rn32_of_zero d rfl rfl rfl).trans rfl
  · exact (rn32_of_zero d rfl rfl rfl).trans rfl
  · exact (rn32_of_inf d rfl).trans rfl
  · exact (rn32_of_inf d rfl).trans rfl

/-! ### Exactly where a result is a NaN (R162) -/

theorem isNaN32_add32_iff (d : Draw) (a b : Word) :
    isNaN32 (add32 d a b) = true ↔
      isNaN32 a = true ∨ isNaN32 b = true ∨ isInf32 a = true ∧ isInf32 b = true ∧ sign32 a ≠ sign32 b := by
  cases ha : isNaN32 a with
  | true => simp [isNaN32_add32_of_nan (d := d) (.inl ha)]
  | false =>
  cases hb : isNaN32 b with
  | true => simp [isNaN32_add32_of_nan (d := d) (.inr hb)]
  | false =>
  cases hai : isInf32 a with
  | true =>
    by_cases hopp : isInf32 b = true ∧ sign32 a ≠ sign32 b
    · simp [isNaN32_add32_of_opposite_infs d hai hopp.1 hopp.2, hopp]
    · rw [add32_of_inf_left d hai hb fun hbi => by_contra fun hs => hopp ⟨hbi, hs⟩]
      simp [ha, hopp]
  | false =>
  cases hbi : isInf32 b with
  | true => simp [add32_of_inf_right d ha hai hbi, hb]
  | false =>
    rw [add32_of_finite d ha hai hb hbi]
    split <;> simp

theorem isNaN32_sub32_iff (d : Draw) (a b : Word) :
    isNaN32 (sub32 d a b) = true ↔
      isNaN32 a = true ∨ isNaN32 b = true ∨ isInf32 a = true ∧ isInf32 b = true ∧ sign32 a = sign32 b := by
  rw [sub32, isNaN32_add32_iff, isNaN32_neg32, isInf32_neg32, sign32_neg32, ne_eq, Bool.eq_not, not_not]

theorem isNaN32_mul32_iff (d : Draw) (a b : Word) :
    isNaN32 (mul32 d a b) = true ↔
      isNaN32 a = true ∨ isNaN32 b = true ∨ isInf32 a = true ∧ isZero32 b = true ∨
        isZero32 a = true ∧ isInf32 b = true := by
  cases ha : isNaN32 a with
  | true => simp [isNaN32_mul32_of_nan (d := d) (.inl ha)]
  | false =>
  cases hb : isNaN32 b with
  | true => simp [isNaN32_mul32_of_nan (d := d) (.inr hb)]
  | false =>
  cases hai : isInf32 a with
  | true =>
    have haz := isZero32_of_isInf32 hai
    cases hbz : isZero32 b with
    | true => simp [isNaN32_mul32_of_zero_inf d (.inl ⟨hai, hbz⟩)]
    | false => simp [mul32_of_inf d ha hb (.inl hai) haz hbz, haz]
  | false =>
  cases hbi : isInf32 b with
  | true =>
    have hbz := isZero32_of_isInf32 hbi
    cases haz : isZero32 a with
    | true => simp [isNaN32_mul32_of_zero_inf d (.inr ⟨haz, hbi⟩)]
    | false => simp [mul32_of_inf d ha hb (.inr hbi) haz hbz]
  | false => simp [mul32_of_finite d ha hai hb hbi]

theorem isNaN64_mul64_iff (d : Draw) (x y : DWord) :
    isNaN64 (mul64 d x y) = true ↔
      isNaN64 x = true ∨ isNaN64 y = true ∨ isInf64 x = true ∧ isZero64 y = true ∨
        isZero64 x = true ∧ isInf64 y = true := by
  cases hx : isNaN64 x with
  | true => simp [mul64, hx]
  | false =>
  cases hy : isNaN64 y with
  | true => simp [mul64, hy]
  | false =>
  cases hxi : isInf64 x with
  | true => cases hyz : isZero64 y <;> simp [mul64, hx, hy, hxi, hyz, isZero64_of_isInf64 hxi]
  | false =>
  cases hyi : isInf64 y with
  | true => cases hxz : isZero64 x <;> simp [mul64, hx, hy, hyi, hxz, isZero64_of_isInf64 hyi]
  | false => simp [mul64_of_finite d hx hxi hy hyi, -Nat.reducePow]

theorem isNaN64_div64_iff (d : Draw) (x y : DWord) :
    isNaN64 (div64 d x y) = true ↔
      isNaN64 x = true ∨ isNaN64 y = true ∨ isInf64 x = true ∧ isInf64 y = true ∨
        isZero64 x = true ∧ isZero64 y = true := by
  cases hx : isNaN64 x with
  | true => simp [div64, hx]
  | false =>
  cases hy : isNaN64 y with
  | true => simp [div64, hy]
  | false =>
  cases hxi : isInf64 x with
  | true => cases hyi : isInf64 y <;> simp [div64, hx, hy, hxi, hyi, isZero64_of_isInf64 hxi]
  | false =>
  cases hyi : isInf64 y with
  | true => simp [div64, hx, hy, hxi, hyi, isZero64_of_isInf64 hyi]
  | false =>
  cases hyz : isZero64 y with
  | true => cases hxz : isZero64 x <;> simp [div64, hx, hy, hxi, hyi, hyz, hxz]
  | false => simp [div64_of_finite d hx hxi hy hyi hyz, -Nat.reducePow]

/-- Settles O9: a NaN word by its fields, and each operation by the kinds of its operands. -/
theorem naNResultsExactly : Obligations.NaNResultsExactly :=
  ⟨isNaN32_iff_fields,
    fun d a b => ⟨isNaN32_add32_iff d a b, isNaN32_sub32_iff d a b, isNaN32_mul32_iff d a b⟩,
    fun d x y => ⟨isNaN32_rn32_iff d, isNaN64_mul64_iff d x y, isNaN64_div64_iff d x y⟩⟩

end Sys2Proof.Machine
end

section
/-! Exact results of the rounding, and from them the reciprocals of powers of two (R167), the angles (R165, R166, R174,
R181) and the trig values (R175, R180). -/

namespace Sys2Proof.Machine

open Sys2Proof

/-! ### Where rounding changes nothing -/

/-- Adding to the exponent of a normal encoding scales its value by a power of two. -/
theorem magUnits_add_exponent {p e : Nat} (he : 2 ^ (p - 1) ≤ e) (t : Nat) :
    magUnits p (e + t * 2 ^ (p - 1)) = magUnits p e * 2 ^ t := by
  have hP : 0 < 2 ^ (p - 1) := Nat.two_pow_pos _
  have hE : 0 < e / 2 ^ (p - 1) := Nat.div_pos he hP
  unfold magUnits
  rw [Nat.add_mul_div_right _ _ hP, Nat.add_mul_mod_self_right, if_neg (by omega), if_neg (by omega), Nat.mul_assoc,
    ← Nat.pow_add]
  congr 2
  omega

/-- A value that is a whole number of quanta of its binade is not changed by rounding. -/
theorem magUnits_roundMag_of_dvd {p num den : Nat} (hp : 1 ≤ p) (hd : 0 < den)
    (h : den * 2 ^ roundShift p num den ∣ num) : magUnits p (roundMag p num den) * den = num := by
  obtain ⟨q, hq⟩ := h
  obtain ⟨hval, -⟩ := roundMag_significand p num den hp hd
  generalize roundShift p num den = t at *
  have hexact : roundEven num (den * 2 ^ t) = q := by
    rw [hq, Nat.mul_comm _ q, roundEven_mul _ _ (by positivity)]
  rw [hval, hexact, hq]
  ring

theorem units32_pack32_of_finite {neg : Bool} {mag : Nat} (h : mag ≤ inf32) :
    units32 (pack32 neg mag) = magUnits 24 mag := by
  rw [units32_eq_magUnits, abs32_pack32, Nat.min_eq_left h]

theorem units64_pack64_of_finite {neg : Bool} {mag : Nat} (h : isInf64 (pack64 neg mag) = false) :
    units64 (pack64 neg mag) = magUnits 53 mag := by
  simp only [isInf64, abs64_pack64, decide_eq_false_iff_not] at h
  rw [units64_eq_magUnits, abs64_pack64, Nat.min_eq_left (by omega)]

/-! ### recip32 (R167) -/

/-- 2^-k in units of 2^-149, by its encoding. -/
theorem magUnits_recip {k : Nat} (hk : k ≤ 31) : magUnits 24 ((127 - k) * 2 ^ 23) * 2 ^ k = 2 ^ 149 := by
  have hadd : (127 - k) * 2 ^ 23 + k * 2 ^ 23 = 127 * 2 ^ 23 := by omega
  have hscale := magUnits_add_exponent (p := 24) (e := (127 - k) * 2 ^ 23) (by omega) k
  rw [← hscale, hadd]
  decide +kernel

theorem recip32_two_pow {k : Nat} (hk : k ≤ 31) : recip32 (2 ^ k) = pack32 false ((127 - k) * 2 ^ 23) := by
  rw [recip32, ← magUnits_recip hk, roundMag_magUnits _ _ _ (Nat.two_pow_pos k)]

theorem units32_recip32_two_pow {k : Nat} (hk : k ≤ 31) : units32 (recip32 (2 ^ k)) * 2 ^ k = 2 ^ 149 := by
  rw [recip32_two_pow hk, units32_pack32_of_finite (by unfold inf32; omega), magUnits_recip hk]

/-- Multiplying by the reciprocal of a power of two divides, rounded once (R167). -/
theorem mul32_recip32_two_pow (d : Draw) {x : Word} {k : Nat} (hk : k ≤ 31) (hx : isNaN32 x = false)
    (hxi : isInf32 x = false) :
    mul32 d x (recip32 (2 ^ k)) = pack32 (sign32 x) (roundMag 24 (units32 x) (2 ^ k)) := by
  have hu := units32_recip32_two_pow hk
  have hr : isNaN32 (recip32 (2 ^ k)) = false := isNaN32_pack32 _ _
  have hs : sign32 (recip32 (2 ^ k)) = false := sign32_pack32 _ _
  have hri : isInf32 (recip32 (2 ^ k)) = false := by
    rw [recip32_two_pow hk]
    simp only [isInf32, abs32_pack32, inf32, decide_eq_false_iff_not]
    omega
  have hpos : 0 < units32 (recip32 (2 ^ k)) := Nat.pos_of_mul_pos_right (hu ▸ Nat.two_pow_pos 149)
  rw [mul32_of_finite d hx hxi hr hri, hs, Bool.bne_false, ← hu, Nat.mul_comm (units32 (recip32 _)) (2 ^ k),
    roundMag_scale _ _ _ _ hpos]

/-- Settles O11: the reciprocal is packed from its rounded magnitude; that of a power of two is exact, so the product
with it is the quotient. -/
theorem recipIsCorrectlyRounded : Obligations.RecipIsCorrectlyRounded := by
  refine ⟨fun n hn => rounds32_pack32 _ _ _ hn, fun k hk => ⟨sign32_pack32 _ _, units32_recip32_two_pow hk,
    fun d x hx hxi => ?_⟩, by decide +kernel⟩
  rw [mul32_recip32_two_pow d hk hx hxi]
  exact rounds32_pack32 _ _ _ (Nat.two_pow_pos k)

/-! ### cvt64, mul64 and div64 (R165, R166) -/

/-- A value below the overflow midpoint is not rounded to an infinity. -/
theorem Rounds64.isInf64_eq_false {neg : Bool} {num den : Nat} {r : DWord} (h : Rounds64 neg num den r)
    (hlt : num < (2 ^ 2098 - 2 ^ 2044) * den) : isInf64 r = false :=
  Bool.eq_false_iff.mpr fun hinf => Nat.not_le.mpr hlt (h.overflow.mp hinf)

/-- A rounded value is at most twice the exact one: 0 is a candidate too. -/
theorem Rounds64.units64_le {neg : Bool} {num den : Nat} {r : DWord} (h : Rounds64 neg num den r)
    (hr : isInf64 r = false) : units64 r * den ≤ 2 * num := by
  have hzero : gap (units64 0 * den) num = num := by
    rw [show units64 0 = 0 from rfl, Nat.zero_mul, gap, Nat.zero_sub, Nat.sub_zero, Nat.zero_add]
  obtain ⟨hnear, -⟩ := h.nearest hr 0 rfl rfl
  rw [hzero, gap] at hnear
  omega

theorem rounds64_cvt64 (i : Nat) : Rounds64 false (i * 2 ^ 1074) 1 (cvt64 i) := rounds64_pack64 _ _ _ Nat.one_pos

theorem isNaN64_cvt64 (i : Nat) : isNaN64 (cvt64 i) = false := isNaN64_pack64 _ _

theorem sign64_cvt64 (i : Nat) : sign64 (cvt64 i) = false := sign64_pack64 _ _

theorem isInf64_cvt64 {i : Nat} (h : i < 2 ^ 62) : isInf64 (cvt64 i) = false := by
  refine (rounds64_cvt64 i).isInf64_eq_false ?_
  calc i * 2 ^ 1074 < 2 ^ 62 * 2 ^ 1074 := Nat.mul_lt_mul_of_pos_right h (by positivity)
    _ ≤ (2 ^ 2098 - 2 ^ 2044) * 1 := by decide +kernel

theorem log2_mul_two_pow_lt {i p t : Nat} (hp : 0 < p) (h : i < 2 ^ p) : (i * 2 ^ t).log2 < p + t := by
  by_cases h0 : i * 2 ^ t = 0
  · rw [h0, Nat.log2_zero]
    omega
  · rw [Nat.log2_lt h0, Nat.pow_add]
    exact Nat.mul_lt_mul_of_pos_right h (Nat.two_pow_pos t)

/-- Integers below 2^53 are exact (R165): the quantum of their binade is at most 1. -/
theorem units64_cvt64 {i : Nat} (h : i < 2 ^ 53) : units64 (cvt64 i) = i * 2 ^ 1074 := by
  have hshift : roundShift 53 (i * 2 ^ 1074) 1 ≤ 1074 := by
    have hlog : (i * 2 ^ 1074).log2 < 53 + 1074 := log2_mul_two_pow_lt (by omega) h
    rw [roundShift, Nat.div_one]
    generalize (i * 2 ^ 1074).log2 = b at hlog ⊢
    omega
  have hdvd : 1 * 2 ^ roundShift 53 (i * 2 ^ 1074) 1 ∣ i * 2 ^ 1074 := by
    rw [Nat.one_mul]
    exact (pow_dvd_pow 2 hshift).mul_left i
  have hexact := magUnits_roundMag_of_dvd (p := 53) (by omega) Nat.one_pos hdvd
  rw [Nat.mul_one] at hexact
  exact (units64_pack64_of_finite (isInf64_cvt64 (h.trans (by decide)))).trans hexact

theorem square_lt_iff (k : Nat) : k * k < 2 ^ 53 ↔ k ≤ 94906265 := by
  constructor
  · intro h
    by_contra hk
    have := Nat.mul_self_le_mul_self (show 94906266 ≤ k by omega)
    omega
  · intro h
    have := Nat.mul_self_le_mul_self h
    omega

/-- Settles O12: each operation packs its rounded magnitude, and the quanta of integers below 2^53 are whole. -/
theorem angleArithmeticRoundsOnce : Obligations.AngleArithmeticRoundsOnce :=
  ⟨fun i => ⟨rounds64_cvt64 i, units64_cvt64⟩, square_lt_iff, fun d _ _ hx hxi hy hyi =>
    ⟨rounds64_mul64 d hx hxi hy hyi, rounds64_div64 d hx hxi hy hyi⟩⟩

/-! ### The stage angle (R174) -/

/-- The encoding of 2·PI64. -/
def twoPiMag : Nat := 0x401921FB54442D18

theorem mul64_two_pi (d : Draw) : mul64 d two64 pi64 = pack64 false twoPiMag :=
  (mul64_of_finite d rfl rfl rfl rfl).trans (by decide +kernel)

theorem units64_two_pi : units64 (pack64 false twoPiMag) = magUnits 53 twoPiMag :=
  units64_pack64_of_finite (by decide +kernel)

/-- A positive integer below 2^53 is a finite divisor that is no zero. -/
theorem cvt64_divisor {i : Nat} (hpos : 0 < i) (h : i < 2 ^ 53) :
    isNaN64 (cvt64 i) = false ∧ isInf64 (cvt64 i) = false ∧ isZero64 (cvt64 i) = false := by
  refine ⟨isNaN64_cvt64 i, isInf64_cvt64 (h.trans (by decide)), ?_⟩
  have hne : i * 2 ^ 1074 ≠ 0 := (Nat.mul_pos hpos (by positivity)).ne'
  rw [← Bool.not_eq_true, isZero64_iff_units, units64_cvt64 h]
  exact hne

/-- Dividing by an integer below 2^53 rounds the exact quotient once. -/
theorem div64_cvt64 (d : Draw) {x : DWord} {i : Nat} (hx : isNaN64 x = false) (hxi : isInf64 x = false) (hpos : 0 < i)
    (h : i < 2 ^ 53) : div64 d x (cvt64 i) = pack64 (sign64 x) (roundMag 53 (units64 x) i) := by
  obtain ⟨hy, hyi, hyz⟩ := cvt64_divisor hpos h
  rw [div64_of_finite d hx hxi hy hyi hyz, sign64_cvt64, Bool.bne_false, units64_cvt64 h,
    roundMag_scale _ _ _ _ (by positivity)]

theorem magUnits_two_pi_sub {s : Nat} (hs : s ≤ 16) :
    magUnits 53 (twoPiMag - s * 2 ^ 52) * 2 ^ s = magUnits 53 twoPiMag := by
  unfold twoPiMag
  rw [← magUnits_add_exponent (by omega) s]
  congr 1
  omega

/-- The stage angle by its encoding (R174): the conversion, the product and the quotient are all exact. -/
theorem stageAngle_eq {s : Nat} (hs : s ≤ 16) : stageAngle s = pack64 false (twoPiMag - s * 2 ^ 52) := by
  have hlt : 2 ^ s < 2 ^ 53 := Nat.pow_lt_pow_right (by omega) (by omega)
  rw [stageAngle, mul64_two_pi, div64_cvt64 _ (isNaN64_pack64 _ _) (by decide +kernel) (Nat.two_pow_pos s) hlt,
    sign64_pack64, units64_two_pi, ← magUnits_two_pi_sub hs, roundMag_magUnits _ _ _ (Nat.two_pow_pos s)]

theorem isInf64_stageAngle {s : Nat} (hs : s ≤ 16) : isInf64 (stageAngle s) = false := by
  rw [stageAngle_eq hs]
  simp only [isInf64, abs64_pack64, twoPiMag, inf64, decide_eq_false_iff_not]
  omega

/-- 2^(s-1) times the stage angle is PI64 exactly. -/
theorem units64_stageAngle {s : Nat} (h1 : 1 ≤ s) (hs : s ≤ 16) :
    units64 (stageAngle s) * 2 ^ (s - 1) = units64 pi64 := by
  have hpi : units64 pi64 = magUnits 53 (twoPiMag - s * 2 ^ 52 + (s - 1) * 2 ^ 52) := by
    rw [units64_eq_magUnits]
    congr 1
    rw [show abs64 pi64 = 0x400921FB54442D18 from rfl, twoPiMag]
    omega
  have hfin := isInf64_stageAngle hs
  rw [stageAngle_eq hs] at hfin ⊢
  rw [units64_pack64_of_finite hfin, hpi]
  exact (magUnits_add_exponent (p := 53) (by unfold twoPiMag; omega) (s - 1)).symm

/-- Settles O16: the encoding of the stage angle is that of 2·PI64 with s taken off its exponent. -/
theorem stageAngleExact : Obligations.StageAngleExact := by
  refine ⟨rfl, fun s h1 hs => ⟨units64_stageAngle h1 hs, ?_⟩⟩
  rw [stageAngle_eq hs, sign64_pack64]

/-! ### The trig values (R175, R180, R181) -/

theorem square_lt_two_pow {k : Nat} (hk : k < 2 ^ 31) : k * k < 2 ^ 62 :=
  (Nat.mul_lt_mul'' hk hk).trans_eq (by decide)

/-- PI64 times a square k², k below 2^31, is rounded once and finite (R181). -/
theorem rounds64_pi_mul_square (d : Draw) {k : Nat} (hk : k < 2 ^ 31) :
    Rounds64 false (units64 pi64 * units64 (cvt64 (k * k))) (2 ^ 1074) (mul64 d pi64 (cvt64 (k * k))) ∧
      isInf64 (mul64 d pi64 (cvt64 (k * k))) = false := by
  have hsq := square_lt_two_pow hk
  have hfin := isInf64_cvt64 hsq
  have hrounds := rounds64_mul64 d (x := pi64) rfl rfl (isNaN64_cvt64 (k * k)) hfin
  rw [sign64_cvt64, show sign64 pi64 = false from rfl] at hrounds
  refine ⟨hrounds, hrounds.isInf64_eq_false ?_⟩
  have hunits : units64 (cvt64 (k * k)) ≤ 2 * (2 ^ 62 * 2 ^ 1074) :=
    calc units64 (cvt64 (k * k)) = units64 (cvt64 (k * k)) * 1 := (Nat.mul_one _).symm
      _ ≤ 2 * (k * k * 2 ^ 1074) := (rounds64_cvt64 (k * k)).units64_le hfin
      _ ≤ 2 * (2 ^ 62 * 2 ^ 1074) := Nat.mul_le_mul_left 2 (Nat.mul_le_mul_right _ hsq.le)
  calc units64 pi64 * units64 (cvt64 (k * k)) ≤ units64 pi64 * (2 * (2 ^ 62 * 2 ^ 1074)) :=
        Nat.mul_le_mul_left _ hunits
    _ < (2 ^ 2098 - 2 ^ 2044) * 2 ^ 1074 := by decide +kernel

/-- Settles O17: the ROM angle is the exact stage angle, and the chirp angle is its three roundings. -/
theorem trigValuesRoundOnce : Obligations.TrigValuesRoundOnce := by
  refine fun t => ⟨fun s h1 hs => ⟨stageAngle s, [2, s, 1], [3, s, 1], ?_, isInf64_stageAngle hs, ?_,
    units64_stageAngle h1 hs, rfl⟩, fun n k hn hn31 hk => ?_⟩
  · rw [stageAngle_eq hs, isNaN64_pack64]
  · rw [stageAngle_eq hs, sign64_pack64]
  · obtain ⟨hprod, hfin⟩ := rounds64_pi_mul_square [1, k, n, 2] (hk.trans hn31)
    refine ⟨cvt64 (k * k), mul64 [1, k, n, 2] pi64 (cvt64 (k * k)), chirpAngle n k, [2, k, n, 2], [3, k, n, 2],
      rounds64_cvt64 _, hprod, ?_, rfl⟩
    rw [chirpAngle, div64_cvt64 _ hprod.notNaN hfin hn (hn31.trans (by decide)), hprod.sign]
    exact rounds64_pack64 _ _ _ hn

end Sys2Proof.Machine
end

section
/-! The complex multiplier (R170 to R173): its parts do not depend on the draws where they are no NaN, it commutes
there, and its products with a conjugate and with (1.0, +0.0). -/

namespace Sys2Proof.Machine

open Sys2Proof

/-! ### The parts of a product and the draws (R162, R170) -/

/-- A sum that is no NaN has no NaN operand. -/
theorem not_nan_of_add32 {d : Draw} {a b : Word} (h : isNaN32 (add32 d a b) = false) :
    isNaN32 a = false ∧ isNaN32 b = false := by
  have hop := mt (isNaN32_add32_of_nan (d := d)) (Bool.eq_false_iff.mp h)
  rwa [not_or, Bool.not_eq_true, Bool.not_eq_true] at hop

theorem not_nan_of_sub32 {d : Draw} {a b : Word} (h : isNaN32 (sub32 d a b) = false) :
    isNaN32 a = false ∧ isNaN32 b = false :=
  isNaN32_neg32 b ▸ not_nan_of_add32 h

/-- A difference of two products that is no NaN is the same at any draws. -/
theorem sub32_mul32_draws {d d1 d2 : Draw} {a b u v : Word} (e e1 e2 : Draw)
    (h : isNaN32 (sub32 d (mul32 d1 a b) (mul32 d2 u v)) = false) :
    sub32 e (mul32 e1 a b) (mul32 e2 u v) = sub32 d (mul32 d1 a b) (mul32 d2 u v) := by
  obtain ⟨h1, h2⟩ := not_nan_of_sub32 h
  rw [mul32_draw e1 h1, mul32_draw e2 h2, sub32_draw e h]

/-- A sum of two products that is no NaN is the same at any draws. -/
theorem add32_mul32_draws {d d1 d2 : Draw} {a b u v : Word} (e e1 e2 : Draw)
    (h : isNaN32 (add32 d (mul32 d1 a b) (mul32 d2 u v)) = false) :
    add32 e (mul32 e1 a b) (mul32 e2 u v) = add32 d (mul32 d1 a b) (mul32 d2 u v) := by
  obtain ⟨h1, h2⟩ := not_nan_of_add32 h
  rw [mul32_draw e1 h1, mul32_draw e2 h2, add32_draw e h]

theorem cmul_re_draw {d : Draw} {a b : Cplx} (d' : Draw) (h : isNaN32 (cmul d a b).re = false) :
    (cmul d' a b).re = (cmul d a b).re := sub32_mul32_draws _ _ _ h

theorem cmul_im_draw {d : Draw} {a b : Cplx} (d' : Draw) (h : isNaN32 (cmul d a b).im = false) :
    (cmul d' a b).im = (cmul d a b).im := add32_mul32_draws _ _ _ h

/-- A product without NaN parts is the same at any draws. -/
theorem cmul_draw {d : Draw} {a b z : Cplx} (d' : Draw) (h : cmul d a b = z) (hre : isNaN32 z.re = false)
    (him : isNaN32 z.im = false) : cmul d' a b = z := by
  subst h
  exact Cplx.ext (cmul_re_draw d' hre) (cmul_im_draw d' him)

/-- Settles O13: the parts of the two products differ in their draws and in the order of commuting operands. -/
theorem cmulCommutes : Obligations.CmulCommutes := by
  intro d d' a b hre him
  refine Cplx.ext ?_ ?_
  · rw [← cmul_re_draw d' hre]
    simp only [cmul, mul32_comm _ a.re, mul32_comm _ a.im]
  · have hcomm : (cmul d' b a).im = add32 (5 :: d') (mul32 (3 :: d') a.re b.im) (mul32 (2 :: d') a.im b.re) := by
      rw [add32_comm, mul32_comm _ a.im, mul32_comm _ a.re]
      rfl
    rw [hcomm]
    exact (add32_mul32_draws _ _ _ him).symm

/-! ### Products with a conjugate (R172) -/

/-- Negating a factor negates a product that is no NaN. -/
theorem mul32_neg32 {d : Draw} {u v : Word} (d' : Draw) (h : isNaN32 (mul32 d u v) = false) :
    mul32 d' u (neg32 v) = neg32 (mul32 d u v) := by
  have hs : (sign32 u != sign32 (neg32 v)) = !(sign32 u != sign32 v) := by
    rw [sign32_neg32, Bool.bne_not]
  have hdraw := mul32_draw d' h
  rw [← hdraw] at h ⊢
  unfold mul32 at h ⊢
  simp only [isNaN32_neg32, isInf32_neg32, isZero32_neg32, units32_neg32, hs] at h ⊢
  split_ifs at h ⊢ with hn hi hz
  · simp at h
  · simp at h
  · exact (neg32_pack32 _ _).symm
  · exact (neg32_pack32 _ _).symm

/-- Subtracting a product is adding the product with a factor negated. -/
theorem sub32_mul32_neg32 {d d1 : Draw} {x u v : Word} (e e1 : Draw)
    (h : isNaN32 (sub32 d x (mul32 d1 u (neg32 v))) = false) :
    sub32 d x (mul32 d1 u (neg32 v)) = add32 e x (mul32 e1 u v) := by
  obtain ⟨-, hop⟩ := not_nan_of_sub32 h
  have hneg : mul32 e1 u v = neg32 (mul32 d1 u (neg32 v)) := by
    rw [← mul32_neg32 e1 hop, neg32_neg32]
  rw [hneg]
  exact (add32_draw e h).symm

/-- Settles O14: the parts are the definition's own, and negating a factor negates a product. -/
theorem cmulByConjugate : Obligations.CmulByConjugate := by
  refine ⟨fun _ => rfl, fun d d' u v => mul32_neg32 d', fun d a b => ⟨⟨_, _, _, rfl⟩, _, _, _, rfl⟩,
    fun d x y => ⟨_, _, _, rfl, fun h e1 e2 e3 => ?_⟩⟩
  have hdraws := sub32_mul32_draws (4 :: d) e2 (1 :: d) h
  calc (cmul d x (conjC y)).re = sub32 (4 :: d) (mul32 e2 x.re y.re) (mul32 (1 :: d) x.im (neg32 y.im)) := hdraws.symm
    _ = add32 e1 (mul32 e2 x.re y.re) (mul32 e3 x.im y.im) := sub32_mul32_neg32 e1 e3 (hdraws ▸ h)

/-! ### Corner cases (R173) -/

/-- A word is a zero exactly where its magnitude is 0. -/
theorem isZero32_iff_units (w : Word) : isZero32 w = true ↔ units32 w = 0 := by
  have h0 : magUnits 24 0 = 0 := rfl
  have hinj := (magUnits_strictMono 24).injective.eq_iff (a := abs32 w) (b := 0)
  rw [units32_eq_magUnits, ← h0, hinj]
  exact decide_eq_true_iff

theorem roundMag_units32 (w : Word) : roundMag 24 (units32 w) 1 = abs32 w := by
  rw [units32_eq_magUnits, ← Nat.mul_one (magUnits 24 _)]
  exact roundMag_magUnits 24 (abs32 w) 1 Nat.one_pos

theorem natAbs_value32 (w : Word) : (value32 w).natAbs = units32 w := by
  unfold value32
  split
  · rw [Int.natAbs_neg, Int.natAbs_natCast]
  · rw [Int.natAbs_natCast]

/-- A value that is not 0 has the sign of its word. -/
theorem decide_value32_neg {w : Word} (h : value32 w ≠ 0) : decide (value32 w < 0) = sign32 w := by
  unfold value32 at h ⊢
  cases hs : sign32 w with
  | true =>
    simp only [hs, if_true] at h ⊢
    exact decide_eq_true (by omega)
  | false =>
    simp only [hs, Bool.false_eq_true, if_false] at h ⊢
    exact decide_eq_false (by omega)

section
variable (d : Draw) {x : Word} (hx : isNaN32 x = false) (hxi : isInf32 x = false)
include hx hxi

/-- 1.0 times a finite word is that word. -/
theorem mul32_one : mul32 d x one32 = x := by
  have hone : recip32 (2 ^ 0) = one32 := by decide +kernel
  rw [← hone, mul32_recip32_two_pow d (by omega) hx hxi, Nat.pow_zero, roundMag_units32, pack32_sign_abs hx]

/-- +0.0 times a finite word is the zero of its sign. -/
theorem mul32_zero : mul32 d x zero32 = pack32 (sign32 x) 0 := by
  rw [mul32_of_finite d hx hxi rfl rfl, show units32 zero32 = 0 from rfl, show sign32 zero32 = false from rfl,
    Nat.mul_zero, Bool.bne_false, roundMag_zero _ _ (by positivity)]

/-- A zero added to a finite word leaves it, but for +0 added to -0. -/
theorem add32_zero (neg : Bool) :
    add32 d x (pack32 neg 0) = if x = 0x80000000 ∧ neg = false then 0x00000000 else x := by
  have hzero : value32 (pack32 neg 0) = 0 := by cases neg <;> rfl
  have hzi : isInf32 (pack32 neg 0) = false := by cases neg <;> rfl
  rw [add32_of_finite d hx hxi (isNaN32_pack32 _ _) hzi, hzero, Int.add_zero, sign32_pack32]
  by_cases h0 : value32 x = 0
  · have habs : abs32 x = 0 := by
      rw [← Int.natAbs_eq_zero, natAbs_value32, ← isZero32_iff_units] at h0
      exact of_decide_eq_true h0
    rw [if_pos h0, ← pack32_sign_abs hx, habs, sign32_pack32]
    cases sign32 x <;> cases neg <;> rfl
  · have hne : x ≠ 0x80000000 := fun h => h0 (h ▸ rfl)
    rw [if_neg h0, if_neg fun h => hne h.1, decide_value32_neg h0, natAbs_value32, roundMag_units32, pack32_sign_abs hx]

end

/-- Times (1.0, +0.0), a finite value is itself but for the signs of zeros (R173). -/
theorem cmul_oneC (d : Draw) {x : Cplx} (hre : isNaN32 x.re = false) (hrei : isInf32 x.re = false)
    (him : isNaN32 x.im = false) (himi : isInf32 x.im = false) :
    (cmul d x oneC).re = (if x.re = 0x80000000 ∧ sign32 x.im = true then 0x00000000 else x.re) ∧
      (cmul d x oneC).im = if x.im = 0x80000000 ∧ sign32 x.re = false then 0x00000000 else x.im := by
  constructor
  · simp only [cmul, oneC, sub32, mul32_one _ hre hrei, mul32_zero _ him himi, neg32_pack32, add32_zero _ hre hrei,
      Bool.not_eq_false']
  · simp only [cmul, oneC, mul32_one _ him himi, mul32_zero _ hre hrei, add32_comm _ (pack32 _ _),
      add32_zero _ him himi]

/-- A NaN in any operand part makes both parts of a product NaN (R173). -/
theorem isNaN32_cmul_of_nan (d : Draw) {a b : Cplx}
    (h : isNaN32 a.re = true ∨ isNaN32 a.im = true ∨ isNaN32 b.re = true ∨ isNaN32 b.im = true) :
    isNaN32 (cmul d a b).re = true ∧ isNaN32 (cmul d a b).im = true := by
  constructor
  · refine isNaN32_sub32_of_nan ?_
    rw [isNaN32_mul32_iff, isNaN32_mul32_iff]
    tauto
  · refine isNaN32_add32_of_nan ?_
    rw [isNaN32_mul32_iff, isNaN32_mul32_iff]
    tauto

/-- Settles O15: the examples without NaNs are evaluated at one draw, which stands for every draw. -/
theorem cmulCornerCases : Obligations.CmulCornerCases := by
  refine ⟨fun d x hre hrei him himi => cmul_oneC d hre hrei him himi, fun d => ⟨?_, ?_⟩, fun d => ?_, fun d => ?_,
    fun d a b => isNaN32_cmul_of_nan d, fun d => ?_⟩
  · have hre : (cmul [] ⟨0x7F800000, 0x00000000⟩ ⟨0x3F800000, 0x00000000⟩).re = 0x7F800000 := by decide +kernel
    exact (cmul_re_draw d (hre ▸ rfl)).trans hre
  · exact isNaN32_add32_of_nan (.inl (isNaN32_mul32_of_zero_inf _ (.inl ⟨rfl, rfl⟩)))
  · exact cmul_draw (d := []) d (by decide +kernel) rfl rfl
  · have hre : (cmul [] ⟨0x0DA24260, 0x00000000⟩ ⟨0x2EDBE6FF, 0x00000000⟩).re = 0x000116C2 := by decide +kernel
    exact (cmul_re_draw d (hre ▸ rfl)).trans hre
  · exact cmul_draw (d := []) d (by decide +kernel) rfl rfl

end Sys2Proof.Machine
end

section
/-! The commands that are one phase over X: what a ready command leaves in memory, the butterflies of STAGE (R203 to
R205) and the products of CHIRP.N and CHIRP.P (R242 to R244). -/

namespace Sys2Proof.Machine

open Sys2Proof

/-! ### A ready command -/

/-- A ready command runs to its end, and the memory is as its phases leave it (R135, R136). -/
theorem State.Ready.runs {i : Instr} {s : State} (h : s.Ready i) :
    ∃ t, Runs i s t ∧ t.mem = (applyPhases Config.trig i (phasesOf i s) (s.takeOperands i)).mem := by
  obtain ⟨hc, hh, hr⟩ := h
  obtain ⟨t, hexec, hdone, hbytes, -, hunseen⟩ := acceptedCommandsComplete i s hc hh
  refine ⟨t, ⟨hexec, hdone, hbytes, hunseen⟩, ?_⟩
  rw [exec_ok_not_raced hc hh hr, Host.Outcome.next.injEq] at hexec
  exact (congrArg State.mem hexec).symm

/-- The elements of X after a command, as its run leaves them in memory. -/
theorem Runs.xElem {i : Instr} {s t : State} (h : Runs i s t) (k : Nat) :
    t.xElem k = readC t.mem ⟨s.xre.toNat, s.xim.toNat⟩ k := by
  rw [State.xElem, h.completed.same.xre, h.completed.same.xim]

theorem takeOperands_xBases (s : State) (i : Instr) :
    (s.takeOperands i).bases .x = ⟨s.xre.toNat, s.xim.toNat⟩ := by
  simp [State.bases]

theorem takeOperands_xLength (s : State) {i : Instr} (hi : i ≠ .nop) : (s.takeOperands i).lengthOf .x = s.len := by
  simp [State.lengthOf, s.takeOperands_n_of_ne i hi]

/-- X of a ready command is two arrays that share no byte (R288). -/
theorem State.Ready.xApart {i : Instr} {s : State} (h : s.Ready i) (hi : i ≠ .nop) :
    Bases.apart ⟨s.xre.toNat, s.xim.toNat⟩ s.len.toNat :=
  (check_passed hi h.checked).xApart

/-! ### CHIRP.N and CHIRP.P (R242) -/

/-- A chirp command multiplies each element of X by its chirp value or the conjugate. -/
theorem chirp_products {i : Instr} {s : State} {neg : Bool} (h : s.Ready i) (hi : i ≠ .nop)
    (hp : phasesOf i s = [.chirpMul neg]) :
    ∃ t, Runs i s t ∧ ∀ k, k < s.len.toNat →
      IsProduct (s.xElem k)
        (if neg then conjC (chirp Config.trig s.len.toNat k) else chirp Config.trig s.len.toNat k) (t.xElem k) := by
  obtain ⟨t, ht, hmem⟩ := h.runs
  obtain ⟨hspec, -⟩ := chirpMulPass_spec Config.trig ⟨s.xre.toNat, s.xim.toNat⟩ s.len.toNat neg [s.draws, 0]
    ⟨s.dp, s.mem⟩ (h.xApart hi)
  simp only [hp, applyPhases_cons, applyPhases_nil, doPhase, State.work_mem, takeOperands_xBases,
    State.takeOperands_n_of_ne s i hi, State.takeOperands_draws, State.takeOperands_dp, State.takeOperands_mem] at hmem
  refine ⟨t, ht, fun k hk => ⟨[k, s.draws, 0], ?_⟩⟩
  rw [ht.xElem, hmem]
  exact hspec k hk

/-- Settles O48: CHIRP.N and CHIRP.P are the one phase ChirpMul, with the conjugate and without. -/
theorem chirpMultipliesElements : Obligations.ChirpMultipliesElements :=
  ⟨fun _ h => chirp_products (neg := true) h (by simp) rfl, fun _ h => chirp_products (neg := false) h (by simp) rfl⟩

/-! ### STAGE (R203, R204, R284) -/

/-- A stage that passes its check is one of the stages 1 to m of a length 2^m (R284). -/
theorem stage_range {s : State} {m k : Nat} (hc : check (.stage k) s = .ok) (hm : s.len.toNat = 2 ^ m) :
    1 ≤ k ∧ k ≤ m := by
  have hstage := (check_passed (by simp) hc).stageOk
  simp only [badStage, Bool.or_eq_false_iff, decide_eq_false_iff_not, Nat.not_lt, hm] at hstage
  obtain ⟨hne, hle⟩ := hstage
  exact ⟨Nat.one_le_iff_ne_zero.mpr hne, (Nat.pow_le_pow_iff_right (by omega)).mp hle⟩

/-- What the engine leaves in a pair is the butterfly with the rotation value of its position (R176, R204). -/
theorem isButterfly_stage (d : Draw) (ω : Cplx) (blk j : Nat) (xu xv : Cplx) :
    ∃ w, IsRotation ω j w ∧ IsButterfly xu xv w (stageU d ω blk j xu xv) (stageV d ω blk j xu xv) :=
  ⟨rotation (rotationDraws d blk) ω j, ⟨_, rfl⟩, 0 :: j :: blk :: d, 3 :: j :: blk :: d, 4 :: j :: blk :: d,
    1 :: j :: blk :: d, 2 :: j :: blk :: d, rfl, rfl⟩

/-- Settles O44: STAGE is the one phase Stage, whose pass leaves the butterfly of every pair. -/
theorem stageButterflies : Obligations.StageButterflies := by
  intro s m k h hm
  obtain ⟨hk, hkm⟩ := stage_range h.checked hm
  obtain ⟨t, ht, hmem⟩ := h.runs
  have hapart := h.xApart (by simp)
  rw [hm] at hapart
  obtain ⟨hspec, -⟩ := stagePass_spec ⟨s.xre.toNat, s.xim.toNat⟩ m k (twiddle Config.trig k) [s.draws, 0]
    ⟨s.dp, s.mem⟩ hk hkm hapart
  simp only [phasesOf, phasesStage, applyPhases_cons, applyPhases_nil, doPhase, State.work_mem, takeOperands_xBases,
    takeOperands_xLength s (i := .stage k) nofun, hm, State.setLength_draws, State.setLength_dp,
    State.setLength_mem, State.takeOperands_draws, State.takeOperands_dp, State.takeOperands_mem] at hmem
  refine ⟨hk, hkm, t, ht, fun b j hb hj => ?_⟩
  rw [← Nat.pow_div hkm (by omega)] at hb
  obtain ⟨hu, hv⟩ := hspec b j hb hj
  rw [ht.xElem, ht.xElem, hmem, hu, hv]
  exact isButterfly_stage _ _ _ _ _ _

end Sys2Proof.Machine
end

section
/-! CONJ, SCALE and BITREV (42_radix2.md): each is one pass over X, and what the pass leaves is what the command leaves
(R201, R202, R211 to R214). -/

namespace Sys2Proof.Machine

open Sys2Proof

/-! ### Ready commands -/

/-- After a command has run, a command that was ready before it still is. -/
theorem Runs.ready {i j : Instr} {s t : State} (h : Runs i s t) (hi : s.Ready i) (hj : s.Ready j) : t.Ready j where
  checked := (h.completed.same.check j).trans hj.checked
  answered := h.completed.same.holes.trans hj.answered
  unraced := by
    obtain ⟨t', hexec, -, -, hraced, -⟩ := acceptedCommandsComplete i s hi.checked hi.answered
    obtain rfl : t = t' := Host.Outcome.next.inj (h.answers.symm.trans hexec)
    exact hraced

theorem State.Ready.passed_of_radix2 {i : Instr} {s : State} (h : s.Ready i) (hi : isRadix2 i = true) :
    CheckPassed i s :=
  check_passed (by rintro rfl; cases hi) h.checked

/-- The length of a radix-2 command that passes its check is a power of two (R283). -/
theorem State.Ready.exists_pow2 {i : Instr} {s : State} (h : s.Ready i) (hi : isRadix2 i = true) :
    ∃ m, s.len.toNat = 2 ^ m :=
  have hp := h.passed_of_radix2 hi
  (isPow2_iff hp.lenPos).mp (hp.pow2 hi)

/-- A ready command whose one phase is a pass over X leaves the memory as the pass does. -/
theorem State.Ready.runs_pass {i : Instr} {p : Phase} {s : State} (pass : Draw → Bases → Nat → Work → Work)
    (h : s.Ready i) (hi : i ≠ .nop) (hphases : phasesOf i s = [p])
    (hpass : ∀ s', doPhase Config.trig i p s' =
      (s'.setLength .x).work fun d => pass d (s'.bases .x) (s'.lengthOf .x).toNat) :
    ∃ t, Runs i s t ∧
      t.mem = (pass [s.draws, 0] ⟨s.xre.toNat, s.xim.toNat⟩ s.len.toNat ⟨s.dp, s.mem⟩).mem := by
  obtain ⟨t, ht, hmem⟩ := h.runs
  simp only [hphases, applyPhases_cons, applyPhases_nil, hpass, State.work_mem, takeOperands_xBases,
    takeOperands_xLength s hi, State.setLength_draws, State.setLength_dp, State.setLength_mem,
    State.takeOperands_draws, State.takeOperands_dp, State.takeOperands_mem] at hmem
  exact ⟨t, ht, hmem⟩

/-! ### CONJ (R211) -/

theorem readC_conjPass (v : Bases) {l k : Nat} (x : Work) (hv : v.apart l) (hk : k < l) :
    readC (conjPass v l x).mem v k = ⟨(readC x.mem v k).re, neg32 (readC x.mem v k).im⟩ := by
  obtain ⟨him, hout⟩ := conjPass_spec v l x
  unfold Bases.apart at hv
  have hre : Memory.read32 (conjPass v l x).mem (v.re + 4 * k) = Memory.read32 x.mem (v.re + 4 * k) :=
    Memory.read32_congr fun c h1 h2 => hout c (by omega)
  simp only [readC, hre, him k hk]

/-- Settles O40: CONJ is the one phase Conj, which writes the imaginary array alone. -/
theorem conjNegatesImaginary : Obligations.ConjNegatesImaginary := by
  intro s h
  obtain ⟨t, ht, hmem⟩ := h.runs_pass (fun _ => conjPass) nofun rfl fun _ => rfl
  refine ⟨t, ht, fun k hk => ?_, fun c hc => ?_⟩
  · rw [ht.xElem, hmem]
    exact readC_conjPass _ _ (h.xApart nofun) hk
  · simp only [inRegions, Region.has, List.any_cons, List.any_nil, Bool.or_false, Bool.and_eq_false_iff,
      decide_eq_false_iff_not] at hc
    rw [hmem]
    exact (conjPass_spec _ _ _).2 c (by simp only; omega)

/-! ### SCALE (R213) -/

/-- Settles O41: SCALE is the one phase Scale with divisor n. -/
theorem scaleMultipliesByReciprocal : Obligations.ScaleMultipliesByReciprocal := by
  intro s h
  obtain ⟨t, ht, hmem⟩ := h.runs_pass (fun d v l => scalePass v l d) nofun rfl fun _ => rfl
  obtain ⟨hspec, -⟩ := scalePass_spec ⟨s.xre.toNat, s.xim.toNat⟩ s.len.toNat [s.draws, 0] ⟨s.dp, s.mem⟩ (h.xApart nofun)
  refine ⟨t, ht, fun k hk => ⟨[0, k, s.draws, 0], [1, k, s.draws, 0], ?_⟩⟩
  rw [ht.xElem, hmem]
  exact hspec k hk

/-! ### BITREV (R201) -/

theorem State.Ready.runs_bitrev {s : State} (h : s.Ready .bitrev) :
    ∃ t, Runs .bitrev s t ∧ t.mem = (bitRevPass ⟨s.xre.toNat, s.xim.toNat⟩ s.len.toNat ⟨s.dp, s.mem⟩).mem :=
  h.runs_pass (fun _ => bitRevPass) nofun rfl fun _ => rfl

/-- The reversal said bit by bit is rev(i) of rule R201. -/
theorem eq_revBits_of_isReversed {m i j : Nat} (h : IsReversed m i j) : j = revBits m i := by
  obtain ⟨hj, hbits⟩ := h
  refine Nat.eq_of_testBit_eq fun b => ?_
  by_cases hb : b < m
  · rw [hbits b hb, testBit_revBits m i b hb]
  · have hle : 2 ^ m ≤ 2 ^ b := Nat.pow_le_pow_right Nat.two_pos (Nat.not_lt.mp hb)
    rw [Nat.testBit_lt_two_pow (hj.trans_le hle), Nat.testBit_lt_two_pow ((revBits_lt m i).trans_le hle)]

/-- Settles O42: BITREV is the one phase BitRev, which takes the element at j from rev(j), and rev(rev(i)) is i. -/
theorem bitrevPermutes : Obligations.BitrevPermutes := by
  intro s m h hm
  obtain ⟨t, ht, hmem⟩ := h.runs_bitrev
  have hapart := h.xApart nofun
  rw [hm] at hmem hapart
  refine ⟨t, ht, fun i j hi hij => ?_⟩
  rw [ht.xElem, hmem, (bitRevPass_spec _ m _ hapart).1 j hij.1, eq_revBits_of_isReversed hij, revBits_revBits m i hi]
  rfl

/-- Memories with the same elements in a vector have the same bytes there. -/
theorem readByte_eq_of_readC_eq {m m' : Memory} {v : Bases} {l c : Nat}
    (h : ∀ k, k < l → readC m v k = readC m' v k) (hc : ¬v.outside l c) :
    Memory.readByte m c = Memory.readByte m' c := by
  have inArray : v.re ≤ c ∧ c < v.re + 4 * l ∨ v.im ≤ c ∧ c < v.im + 4 * l := by
    unfold Bases.outside at hc
    omega
  rcases inArray with ⟨hlo, hhi⟩ | ⟨hlo, hhi⟩
  · exact Memory.readByte_eq_of_read32_eq (a := v.re + 4 * ((c - v.re) / 4))
      (congrArg Cplx.re (h ((c - v.re) / 4) (by omega))) (by omega)
  · exact Memory.readByte_eq_of_read32_eq (a := v.im + 4 * ((c - v.im) / 4))
      (congrArg Cplx.im (h ((c - v.im) / 4) (by omega))) (by omega)

/-- The pass on a vector that it has permuted already restores the memory (R202). -/
theorem bitRevPass_bitRevPass {v : Bases} {m : Nat} {x y : Work} (hv : v.apart (2 ^ m)) (hwf : Memory.wf x.mem = true)
    (hy : y.mem = (bitRevPass v (2 ^ m) x).mem) : (bitRevPass v (2 ^ m) y).mem = x.mem := by
  obtain ⟨hx1, hx2⟩ := bitRevPass_spec v m x hv
  obtain ⟨hy1, hy2⟩ := bitRevPass_spec v m y hv
  refine Memory.eq_of_readByte (wf_bitRevPass v _ (hy ▸ wf_bitRevPass v _ hwf)) hwf fun c => ?_
  by_cases hc : v.outside (2 ^ m) c
  · rw [hy2 c hc, hy, hx2 c hc]
  · refine readByte_eq_of_readC_eq (fun e he => ?_) hc
    rw [hy1 e he, hy, hx1 _ (revBits_lt m e), revBits_revBits m e he]

/-- Settles O43: the second BITREV finds the same operands and permutes the permuted vector back. -/
theorem bitrevTwiceRestores : Obligations.BitrevTwiceRestores := by
  intro s h hwf
  obtain ⟨m, hm⟩ := h.exists_pow2 rfl
  obtain ⟨t, ht, htmem⟩ := h.runs_bitrev
  obtain ⟨u, hu, humem⟩ := (ht.ready h h).runs_bitrev
  have hsame := ht.completed.same
  have hapart := h.xApart nofun
  rw [hsame.xre, hsame.xim, hsame.len, hm] at humem
  rw [hm] at htmem hapart
  refine ⟨t, u, ht.answers, hu.answers, ?_, { hu.completed with same := hsame.trans hu.completed.same }⟩
  exact humem.trans (bitRevPass_bitRevPass (x := ⟨s.dp, s.mem⟩) hapart hwf htmem)

end Sys2Proof.Machine
end

section
/-! A command against its primitive commands run one at a time (R303): each of them does what its phases do inside the
long command, so the sequence ends with the same memory; FFT2.F and FFT2.I (R207 to R210). -/

namespace Sys2Proof.Machine

open Sys2Proof

/-! ### Commands that pass their check where a radix-2 command does (R133) -/

/-- A command that passes every test of rule R133 passes its check. -/
theorem CheckPassed.check {i : Instr} {s : State} (h : CheckPassed i s) (hi : i ≠ .nop) : check i s = .ok := by
  have hlen : ¬(s.len.toNat = 0 ∨ 2 ^ 31 ≤ s.len.toNat) := by
    have := h.lenPos
    have := h.lenLt
    omega
  have hpow : (isRadix2 i && !isPow2 s.len.toNat) = false := by
    cases hr : isRadix2 i with
    | false => rfl
    | true => simp [h.pow2 hr]
  have haligned : ((s.usedRegions i).any fun r => decide (r.base % 4 ≠ 0)) = false := by
    simpa using h.aligned
  have hrange : ((s.usedRegions i).any fun r => decide (Config.memSize < r.base + r.size)) = false := by
    simpa using h.inRange
  have hscratch : (onBluestein i s.len.toNat && decide (s.scrsz.toNat < 24 * paddedLength s.len.toNat)) = false := by
    simpa using h.scratchSize
  simp only [Machine.check, hi, hlen, hpow, h.stageOk, h.notLong, haligned, hrange, h.noOverlap, hscratch, if_false,
    Bool.false_eq_true]

/-- Where a radix-2 command is ready, so is any command on X alone whose stage number fits (R133). -/
theorem State.Ready.of_radix2 {i j : Instr} {s : State} (h : s.Ready i) (hi : isRadix2 i = true) (hj : j ≠ .nop)
    (hcmul : j ≠ .cmul) (hblue : onBluestein j s.len.toNat = false) (hstage : badStage j s.len.toNat = false) :
    s.Ready j := by
  have hp := h.passed_of_radix2 hi
  have hlong : s.len.toNat ≤ Config.nMax := by
    have := hp.notLong
    simp only [State.tooLongFails, onRadix2, hi, Bool.true_or, Bool.true_and, Bool.or_eq_false_iff,
      decide_eq_false_iff_not, Nat.not_lt] at this
    exact this.1
  have hused : s.usedRegions j = s.xRegions := by simp [State.usedRegions, hcmul, hblue]
  have hmem : ∀ r ∈ s.usedRegions j, r ∈ s.usedRegions i := by
    intro r hr
    rw [hused] at hr
    simp [State.usedRegions, hr]
  have hoverlap : s.overlapFails j = false := by
    have := hp.noOverlap
    simp only [State.overlapFails, Bool.or_eq_false_iff] at this
    simp [State.overlapFails, hcmul, hblue, this.1.1]
  have hpassed : CheckPassed j s :=
    { lenPos := hp.lenPos
      lenLt := hp.lenLt
      pow2 := fun _ => hp.pow2 hi
      stageOk := hstage
      notLong := by simp [State.tooLongFails, hblue, hlong]
      aligned := fun r hr => hp.aligned r (hmem r hr)
      inRange := fun r hr => hp.inRange r (hmem r hr)
      noOverlap := hoverlap
      scratchSize := fun hb => nomatch hblue.symm.trans hb }
  exact ⟨hpassed.check hj, h.answered, h.unraced⟩

/-! ### What launch and Finish report -/

/-- A state with what only launch and Finish write as another state has it: BUSY, DONE, ERRCODE, PH and the unseen
results (R130, R136). -/
def State.reportedAs (s r : State) : State :=
  { s with busy := r.busy, done := r.done, errcode := r.errcode, ph := r.ph, unseen := r.unseen }

theorem doPhase_reportedAs (tr : Config.Trig) (i : Instr) {p : Phase} (hp : p ≠ .finish) (s r : State) :
    doPhase tr i p (s.reportedAs r) = (doPhase tr i p s).reportedAs r := by
  cases p with
  | finish => exact absurd rfl hp
  | _ => rfl

/-- Only Finish depends on the command it belongs to. -/
theorem doPhase_command (tr : Config.Trig) (i j : Instr) {p : Phase} (hp : p ≠ .finish) (s : State) :
    doPhase tr i p s = doPhase tr j p s := by
  cases p with
  | finish => exact absurd rfl hp
  | _ => rfl

section
variable (tr : Config.Trig) (i j : Instr) {ps : List Phase} (hps : ∀ p ∈ ps, p ≠ .finish) (s w : State)
include hps

theorem applyPhases_reportedAs : applyPhases tr i ps (s.reportedAs w) = (applyPhases tr i ps s).reportedAs w := by
  induction ps generalizing s with
  | nil => rfl
  | cons p ps ih =>
    rw [applyPhases_cons, doPhase_reportedAs tr i (hps p List.mem_cons_self),
      ih fun q hq => hps q (List.mem_cons_of_mem _ hq), applyPhases_cons]

theorem applyPhases_command : applyPhases tr i ps s = applyPhases tr j ps s := by
  induction ps generalizing s with
  | nil => rfl
  | cons p ps ih =>
    rw [applyPhases_cons, doPhase_command tr i j (hps p List.mem_cons_self),
      ih fun q hq => hps q (List.mem_cons_of_mem _ hq), applyPhases_cons]

/-- Phases report nothing. -/
theorem reportedAs_applyPhases : s.reportedAs (applyPhases tr i ps w) = s.reportedAs w := by
  obtain ⟨hbusy, hdone, hcode, -, hph⟩ := applyPhases_status tr i hps w
  simp only [State.reportedAs, hbusy, hdone, hcode, hph, applyPhases_unseen tr i hps]

end

theorem takeOperands_reportedAs (s r : State) (i : Instr) :
    (s.reportedAs r).takeOperands i = (s.takeOperands i).reportedAs r := by
  unfold State.takeOperands
  split <;> rfl

/-- A ready command leaves what its phases leave, and reports its completion. -/
theorem Runs.eq_reportedAs {i : Instr} {s t : State} (h : Runs i s t) (hs : s.Ready i) :
    t = (applyPhases Config.trig i (phasesOf i s) (s.takeOperands i)).reportedAs t := by
  obtain rfl := Host.Outcome.next.inj (h.answers.symm.trans (exec_ok_not_raced hs.checked hs.answered hs.unraced))
  rfl

/-! ### The operands of a command inside another (R42) -/

/-- The operands of a command are already in n and M (R42, R132). -/
structure State.Holds (s : State) (i : Instr) : Prop where
  n : i ≠ .nop → s.n = s.len
  mlen : i ≠ .nop → onBluestein i s.len.toNat = true → s.mlen = BitVec.ofNat 32 (paddedLength s.len.toNat)

theorem State.Holds.takeOperands {s : State} {i : Instr} (h : s.Holds i) : s.takeOperands i = s := by
  unfold State.takeOperands
  split
  · rfl
  · rename_i hi
    rw [ite_eq_right_iff.mpr fun hb => (h.mlen hi hb).symm]
    exact congrArg (fun n => { s with n := n }) (h.n hi).symm

theorem State.Holds.congr {s t : State} {i : Instr} (h : s.Holds i) (hst : SameOperands s t) : t.Holds i where
  n hi := by rw [hst.n, hst.len, h.n hi]
  mlen hi hb := by
    rw [hst.len] at hb
    rw [hst.mlen, hst.len, h.mlen hi hb]

/-- A command that has taken its operands holds those of a command that uses M only if it does. -/
theorem holds_takeOperands {i j : Instr} (s : State) (hi : i ≠ .nop)
    (hblue : onBluestein j s.len.toNat = true → onBluestein i s.len.toNat = true) : (s.takeOperands i).Holds j where
  n _ := by rw [s.takeOperands_n_of_ne i hi, State.takeOperands_len]
  mlen _ hb := by
    rw [State.takeOperands_len] at hb ⊢
    exact s.takeOperands_mlen_of_bluestein i hi (hblue hb)

/-! ### The primitive commands beside the long command (R303) -/

/-- `w` inside a long command and `s` between two of the commands it is made of agree on all but what is reported and
the unit's internal registers. -/
def Abreast (w s : State) : Prop := SameOutside w (s.reportedAs w)

theorem abreast_takeOperands (s : State) (i : Instr) : Abreast (s.takeOperands i) s := by
  constructor
  · constructor <;> simp [State.reportedAs]
  all_goals simp [State.reportedAs]

/-- A primitive command, run on its own, does what its phases do inside the long command. -/
theorem Abreast.run {w s t : State} {c : Instr} (i : Instr) (h : Abreast w s) (hw : w.Holds c) (hc : s.Ready c)
    (ht : Runs c s t) : Abreast (applyPhases Config.trig i (phasesOf c w) w) t := by
  have hps := phasesOf_ne_finish c w
  have hphases : phasesOf c (s.reportedAs w) = phasesOf c w := phasesOf_congr h.len c
  have halone : t.reportedAs (applyPhases Config.trig i (phasesOf c w) w) =
      applyPhases Config.trig c (phasesOf c (s.reportedAs w)) ((s.reportedAs w).takeOperands c) := by
    rw [reportedAs_applyPhases Config.trig i hps, takeOperands_reportedAs,
      applyPhases_reportedAs Config.trig c (phasesOf_ne_finish c _), ht.eq_reportedAs hc]
    rfl
  have hinside : applyPhases Config.trig i (phasesOf c w) w =
      applyPhases Config.trig c (phasesOf c w) (w.takeOperands c) := by
    rw [hw.takeOperands, applyPhases_command Config.trig i c hps]
  unfold Abreast
  rw [halone, hinside]
  exact h.applyPhasesOf c

/-- Ready commands run one at a time complete, abreast of a long command that runs their phases in order. -/
theorem Abreast.runSequence {w s : State} (i c : Instr) (cs : List Instr) (h : Abreast w s)
    (hw : ∀ d ∈ c :: cs, w.Holds d) (hs : ∀ d ∈ c :: cs, s.Ready d) :
    ∃ u, runSequence (c :: cs) s = some u ∧ Completed s u .ok ∧
      Abreast (applyPhases Config.trig i ((c :: cs).flatMap (phasesOf · w)) w) u := by
  have hc := hs c List.mem_cons_self
  obtain ⟨t, ht, -⟩ := hc.runs
  have hstep := h.run i (hw c List.mem_cons_self) hc ht
  have hsame := applyPhases_same Config.trig i (phasesOf c w) w
  have hphases : ∀ d, phasesOf d (applyPhases Config.trig i (phasesOf c w) w) = phasesOf d w := phasesOf_congr hsame.len
  rw [List.flatMap_cons, applyPhases_append, Machine.runSequence, ht.answers]
  match cs with
  | [] => exact ⟨t, rfl, ht.completed, hstep⟩
  | d :: ds =>
    obtain ⟨u, hrun, hu, habreast⟩ := hstep.runSequence i d ds
      (fun e he => (hw e (List.mem_cons_of_mem _ he)).congr hsame)
      (fun e he => ht.ready hc (hs e (List.mem_cons_of_mem _ he)))
    simp only [hphases] at habreast
    exact ⟨u, hrun, { hu with same := ht.completed.same.trans hu.same }, habreast⟩

theorem Cplx.sameUpToNaN_refl (z : Cplx) : Cplx.sameUpToNaN z z := ⟨.inl rfl, .inl rfl⟩

/-- A command whose phases are those of shorter commands gives their result when they are run one at a time: the runs
take the same draws, so that even the bits of NaNs agree. -/
theorem State.Ready.runs_as_sequence {i c : Instr} {cs : List Instr} {s : State} (h : s.Ready i) (hi : i ≠ .nop)
    (hs : ∀ d ∈ c :: cs, s.Ready d ∧ (onBluestein d s.len.toNat = true → onBluestein i s.len.toNat = true))
    (hphases : phasesOf i s = (c :: cs).flatMap (phasesOf · s)) :
    ∃ t u, Runs i s t ∧ runSequence (c :: cs) s = some u ∧ u.errcode = .ok ∧ u.done = true ∧
      BytesKept s u (s.rwRegions i) ∧ ∀ k, Cplx.sameUpToNaN (t.xElem k) (u.xElem k) := by
  obtain ⟨t, ht, htmem⟩ := h.runs
  obtain ⟨u, hrun, hu, habreast⟩ := (abreast_takeOperands s i).runSequence i c cs
    (fun d hd => holds_takeOperands s hi (hs d hd).2) fun d hd => (hs d hd).1
  have hmem : u.mem = t.mem := by
    simp only [phasesOf_takeOperands, ← hphases] at habreast
    exact habreast.mem.trans htmem.symm
  have helem : ∀ k, u.xElem k = t.xElem k := by
    intro k
    rw [ht.xElem, State.xElem, hu.same.xre, hu.same.xim, hmem]
  refine ⟨t, u, ht, hrun, hu.errcode, hu.done, fun a ha => ?_, fun k => ?_⟩
  · rw [hmem]
    exact ht.bytes a ha
  · rw [helem]
    exact Cplx.sameUpToNaN_refl _

/-! ### FFT2.F and FFT2.I (R207 to R210) -/

/-- BITREV and the stages up to m have the phases of the forward transform of length 2^m (R207). -/
theorem flatMap_phasesOf_forward (s : State) (m : Nat) :
    (Instr.bitrev :: (List.range m).map (fun k => .stage (k + 1))).flatMap (phasesOf · s) =
      forwardPhases .x (2 ^ m) := by
  simp only [forwardPhases, Nat.log2_two_pow, List.flatMap_cons, phasesOf, phasesBitrev, List.singleton_append,
    List.flatMap_map, phasesStage]
  exact congrArg _ (List.flatMap_pure_eq_map _ _)

/-- Settles O45: FFT2.F has the phases of its primitive commands, each of which is ready where FFT2.F is. -/
theorem forwardTransformIsItsStages : Obligations.ForwardTransformIsItsStages := by
  intro s m h hm
  have hready : ∀ d ∈ Instr.bitrev :: (List.range m).map (fun k => .stage (k + 1)),
      s.Ready d ∧ (onBluestein d s.len.toNat = true → onBluestein .fft2F s.len.toNat = true) := by
    intro d hd
    simp only [List.mem_cons, List.mem_map, List.mem_range] at hd
    rcases hd with rfl | ⟨k, hk, rfl⟩
    · exact ⟨h.of_radix2 rfl nofun nofun rfl rfl, id⟩
    · have hle : 2 ^ (k + 1) ≤ 2 ^ m := Nat.pow_le_pow_right Nat.two_pos hk
      exact ⟨h.of_radix2 rfl nofun nofun rfl (by simp [badStage, hm, hle]), id⟩
  have hphases : phasesOf .fft2F s = forwardPhases .x (2 ^ m) := hm ▸ rfl
  obtain ⟨t, u, ht, hrun, hcode, hdone, hbytes, helem⟩ := h.runs_as_sequence nofun hready
    (hphases.trans (flatMap_phasesOf_forward s m).symm)
  exact ⟨t, u, ht, hrun, hcode, hdone, hbytes, fun k _ => helem k⟩

/-- Settles O46: FFT2.I has the phases of CONJ, FFT2.F, CONJ and SCALE, each of which is ready where FFT2.I is. -/
theorem inverseTransformIsConjugated : Obligations.InverseTransformIsConjugated := by
  intro s h
  have hready : ∀ d ∈ [Instr.conj, .fft2F, .conj, .scale],
      s.Ready d ∧ (onBluestein d s.len.toNat = true → onBluestein .fft2I s.len.toNat = true) := by
    intro d hd
    simp only [List.mem_cons, List.not_mem_nil, or_false] at hd
    rcases hd with rfl | rfl | rfl | rfl <;> exact ⟨h.of_radix2 rfl nofun nofun rfl rfl, id⟩
  obtain ⟨t, u, ht, hrun, hcode, hdone, hbytes, helem⟩ := h.runs_as_sequence nofun hready rfl
  exact ⟨t, u, ht, hrun, hcode, hdone, hbytes, fun k _ => helem k⟩

end Sys2Proof.Machine
end

section
/-! The padded length (R250), CMUL (R241), and commands that run the phases of other commands: DFT.F and DFT.I on their
path (R262 to R264), BLUE.I as a sequence (R259). -/

namespace Sys2Proof.Machine

open Sys2Proof

/-! ### The padded length (R250, R316) -/

/-- The padded length is 2^(m+1) in the whole line of R316's table: 2n - 1 is above 2^m there and no greater than
2^(m+1). -/
theorem paddedLength_eq_two_pow_succ {m n : Nat} (hm : 1 ≤ m) (hlo : 2 ^ (m - 1) + 1 ≤ n) (hhi : n ≤ 2 ^ m) :
    paddedLength n = 2 ^ (m + 1) := by
  have hdouble : 2 ^ m = 2 * 2 ^ (m - 1) := by rw [← Nat.pow_succ', Nat.succ_eq_add_one, Nat.sub_add_cancel hm]
  have hle := le_paddedLength n
  refine Nat.le_antisymm (paddedLength_le ?_) ?_
  · rw [Nat.pow_succ]
    omega
  · rw [paddedLength_eq_two_pow n] at hle ⊢
    exact Nat.pow_le_pow_right Nat.two_pos ((Nat.pow_lt_pow_iff_right Nat.one_lt_two).mp (by omega))

/-- Settles O35: the least power of two from the bounds on M, and a mirror index M - k is at least n since M is at least
2n - 1. -/
theorem paddedLengthLeast : Obligations.PaddedLengthLeast := by
  refine ⟨fun n _ => ⟨⟨_, paddedLength_eq_two_pow n⟩, le_paddedLength n, fun _ => paddedLength_le⟩, rfl,
    fun _ _ => paddedLength_eq_two_pow_succ, fun n k _ hk => ?_⟩
  have := le_paddedLength n
  omega

/-! ### CMUL (R241) -/

theorem State.Ready.passed {i : Instr} {s : State} (h : s.Ready i) (hi : i ≠ .nop) : CheckPassed i s :=
  check_passed hi h.checked

/-- Settles O47: CMUL is the one phase PointMul over X, and the check admits Y only where no word of it is written before
it is read. -/
theorem cmulMultipliesElements : Obligations.CmulMultipliesElements := by
  intro s h
  have hp := h.passed nofun
  have hself := hp.selfReadable nofun (.refl _)
  have hother := hp.yReadableBy (.refl _)
  have hybases : (s.takeOperands .cmul).bases .y = ⟨s.yre.toNat, s.yim.toNat⟩ := rfl
  rw [takeOperands_xBases, takeOperands_xLength s (i := .cmul) nofun] at hself hother
  rw [hybases] at hother
  obtain ⟨t, ht, hmem⟩ := h.runs
  obtain ⟨hspec, -⟩ := pointMulPass_spec _ _ _ s.len.toNat [s.draws, 0] ⟨s.dp, s.mem⟩ (h.xApart nofun) hself hother
  simp only [phasesOf, phasesCmul, applyPhases_cons, applyPhases_nil, doPhase, State.work_mem, takeOperands_xBases,
    takeOperands_xLength s (i := .cmul) nofun, hybases, State.takeOperands_draws, State.takeOperands_dp,
    State.takeOperands_mem] at hmem
  refine ⟨t, ht, fun k hk => ⟨[k, s.draws, 0], ?_⟩⟩
  rw [ht.xElem, hmem]
  exact hspec k hk

/-! ### Where one command is ready, so is another (R133) -/

/-- A command whose operands are among those of a ready one, on no path that the ready one is not on, is ready. -/
theorem State.Ready.of_operands {i j : Instr} {s : State} (h : s.Ready i) (hi : i ≠ .nop) (hj : j ≠ .nop)
    (hcmul : j ≠ .cmul) (hpow2 : isRadix2 j = true → isPow2 s.len.toNat = true)
    (hradix2 : onRadix2 j s.len.toNat = true → onRadix2 i s.len.toNat = true)
    (hblue : onBluestein j s.len.toNat = true → onBluestein i s.len.toNat = true)
    (hstage : badStage j s.len.toNat = false) : s.Ready j := by
  have hp := h.passed hi
  have hused : ∀ r ∈ s.usedRegions j, r ∈ s.usedRegions i := by
    intro r hr
    simp only [State.usedRegions, hcmul, if_false, List.append_nil, List.mem_append] at hr ⊢
    rcases hr with hr | hr
    · exact .inl (.inl hr)
    · by_cases hb : onBluestein j s.len.toNat = true
      · rw [if_pos hb] at hr
        rw [if_pos (hblue hb)]
        exact .inr hr
      · rw [if_neg hb] at hr
        cases hr
  have hlong : s.tooLongFails j = false := by
    have := hp.notLong
    simp only [State.tooLongFails, Bool.or_eq_false_iff, Bool.and_eq_false_imp] at this ⊢
    exact ⟨fun hr => this.1 (hradix2 hr), fun hb => this.2 (hblue hb)⟩
  have hoverlap : s.overlapFails j = false := by
    have := hp.noOverlap
    simp only [State.overlapFails, hcmul, decide_false, Bool.false_and, Bool.or_eq_false_iff,
      Bool.and_eq_false_imp] at this ⊢
    exact ⟨⟨this.1.1, trivial⟩, fun hb => this.2 (hblue hb)⟩
  have hpassed : CheckPassed j s :=
    { lenPos := hp.lenPos
      lenLt := hp.lenLt
      pow2 := hpow2
      stageOk := hstage
      notLong := hlong
      aligned := fun r hr => hp.aligned r (hused r hr)
      inRange := fun r hr => hp.inRange r (hused r hr)
      noOverlap := hoverlap
      scratchSize := fun hb => hp.scratchSize (hblue hb) }
  exact ⟨hpassed.check hj, h.answered, h.unraced⟩

/-! ### BLUE.I (R259) -/

/-- Settles O50: BLUE.I has the phases of CONJ, BLUE.F, CONJ and SCALE, each of which is ready where BLUE.I is. -/
theorem inverseBluesteinIsConjugated : Obligations.InverseBluesteinIsConjugated := by
  intro s h
  have hready : ∀ d ∈ [Instr.conj, .blueF, .conj, .scale],
      s.Ready d ∧ (onBluestein d s.len.toNat = true → onBluestein .blueI s.len.toNat = true) := by
    intro d hd
    simp only [List.mem_cons, List.not_mem_nil, or_false] at hd
    rcases hd with rfl | rfl | rfl | rfl <;>
      exact ⟨h.of_operands nofun nofun nofun nofun nofun (fun _ => rfl) rfl, fun _ => rfl⟩
  have hphases : phasesOf .blueI s = [Instr.conj, .blueF, .conj, .scale].flatMap (phasesOf · s) := by
    simp [phasesOf, phasesBlueI, bluesteinInversePhases, phasesConj, phasesBlueF, phasesScale]
  obtain ⟨t, u, ht, hrun, hcode, hdone, hbytes, helem⟩ := h.runs_as_sequence nofun hready hphases
  exact ⟨t, u, ht, hrun, hcode, hdone, hbytes, fun k _ => helem k⟩

/-! ### DFT.F and DFT.I (R262 to R264) -/

/-- A command with the phases of a ready one, whose operands and path are the same, ends in the same state. -/
theorem State.Ready.runs_alike {i j : Instr} {s : State} (h : s.Ready i) (hi : i ≠ .nop) (hj : j ≠ .nop)
    (hcmul : j ≠ .cmul) (hpow2 : isRadix2 j = true → isPow2 s.len.toNat = true)
    (hradix2 : onRadix2 j s.len.toNat = onRadix2 i s.len.toNat)
    (hblue : onBluestein j s.len.toNat = onBluestein i s.len.toNat) (hstage : badStage j s.len.toNat = false)
    (hphases : phasesOf j s = phasesOf i s) : ∃ t, Runs i s t ∧ exec j s = .next t := by
  have hjs : s.Ready j := h.of_operands hi hj hcmul hpow2 hradix2.symm.trans hblue.symm.trans hstage
  have htake : s.takeOperands j = s.takeOperands i := by simp only [State.takeOperands, hi, hj, if_false, hblue]
  have hregions : s.rwRegions j = s.rwRegions i := by
    simp only [State.rwRegions, hi, hj, h.checked, hjs.checked, hblue]
  obtain ⟨t, ht, -⟩ := h.runs
  refine ⟨t, ht, Eq.trans ?_ ht.answers⟩
  rw [exec_ok_not_raced h.checked h.answered h.unraced, exec_ok_not_raced hjs.checked hjs.answered hjs.unraced, hphases,
    htake, hregions, applyPhases_command Config.trig j i (phasesOf_ne_finish i s)]

/-- DFT takes the radix-2 path exactly where n is a power of two (R262). -/
theorem path_of_isDft {i : Instr} (hi : isDft i = true) (n : Nat) :
    onRadix2 i n = isPow2 n ∧ onBluestein i n = !isPow2 n := by
  cases i with
  | dftF | dftI => exact ⟨rfl, rfl⟩
  | _ => cases hi

theorem path_of_isRadix2 {i : Instr} (hi : isRadix2 i = true) (n : Nat) :
    onRadix2 i n = true ∧ onBluestein i n = false := by
  cases i with
  | fft2F | fft2I | bitrev | stage _ => exact ⟨rfl, rfl⟩
  | _ => cases hi

theorem path_of_isBlue {i : Instr} (hi : isBlue i = true) (n : Nat) :
    isRadix2 i = false ∧ onRadix2 i n = false ∧ onBluestein i n = true := by
  cases i with
  | blueF | blueI => exact ⟨rfl, rfl, rfl⟩
  | _ => cases hi

section
variable {i j : Instr} {s : State} (h : s.Ready i) (hi : isDft i = true)
include h hi

/-- DFT of a power of two is the radix-2 command with its phases. -/
theorem State.Ready.runs_radix2 {m : Nat} (hm : s.len.toNat = 2 ^ m) (hj : isRadix2 j = true)
    (hstage : badStage j s.len.toNat = false) (hphases : isPow2 s.len.toNat = true → phasesOf j s = phasesOf i s) :
    ∃ t, Runs i s t ∧ exec j s = .next t := by
  have hn : isPow2 s.len.toNat = true := hm ▸ isPow2_two_pow m
  obtain ⟨iradix2, iblue⟩ := path_of_isDft hi s.len.toNat
  obtain ⟨jradix2, jblue⟩ := path_of_isRadix2 hj s.len.toNat
  refine h.runs_alike (by rintro rfl; cases hi) (by rintro rfl; cases hj) (by rintro rfl; cases hj) (fun _ => hn) ?_ ?_
    hstage (hphases hn)
  · rw [jradix2, iradix2, hn]
  · rw [jblue, iblue, hn, Bool.not_true]

/-- DFT of any other length is the Bluestein command with its phases. -/
theorem State.Ready.runs_bluestein (hm : ¬∃ m, s.len.toNat = 2 ^ m) (hj : isBlue j = true)
    (hstage : badStage j s.len.toNat = false) (hphases : isPow2 s.len.toNat = false → phasesOf j s = phasesOf i s) :
    ∃ t, Runs i s t ∧ exec j s = .next t := by
  have hnop : i ≠ .nop := by rintro rfl; cases hi
  have hn : isPow2 s.len.toNat = false := Bool.eq_false_iff.mpr (mt (isPow2_iff (h.passed hnop).lenPos).mp hm)
  obtain ⟨iradix2, iblue⟩ := path_of_isDft hi s.len.toNat
  obtain ⟨jnot, jradix2, jblue⟩ := path_of_isBlue hj s.len.toNat
  refine h.runs_alike hnop (by rintro rfl; cases hj) (by rintro rfl; cases hj) (fun hr => nomatch jnot.symm.trans hr) ?_
    ?_ hstage (hphases hn)
  · rw [jradix2, iradix2, hn]
  · rw [jblue, iblue, hn, Bool.not_false]

end

/-- Settles O51: on its path DFT has the operands and the phases of that path's command, so both runs take the same
draws. -/
theorem dftDispatchesOnPowerOfTwo : Obligations.DftDispatchesOnPowerOfTwo :=
  ⟨fun _ _ h hm => h.runs_radix2 rfl hm rfl rfl fun hn => by simp [phasesOf, phasesDftF, phasesFft2F, hn],
    fun _ h hm => h.runs_bluestein rfl hm rfl rfl fun hn => by simp [phasesOf, phasesDftF, phasesBlueF, hn],
    fun _ _ h hm => h.runs_radix2 rfl hm rfl rfl fun hn => by simp [phasesOf, phasesDftI, phasesFft2I, hn],
    fun _ h hm => h.runs_bluestein rfl hm rfl rfl fun hn => by simp [phasesOf, phasesDftI, phasesBlueI, hn]⟩

end Sys2Proof.Machine
end

section
/-! BLUE.F through its memories (R250 to R258): a transform of a scratch buffer is the radix-2 command run on that
buffer, and the controller's own phases leave what their pseudocode says. -/

namespace Sys2Proof.Machine

open Sys2Proof

/-! ### A radix-2 command on another vector -/

/-- A state whose X is a vector of given bases and length. -/
def State.withX (s : State) (v : Bases) (l : Nat) : State :=
  { s with len := BitVec.ofNat 32 l, xre := BitVec.ofNat 32 v.re, xim := BitVec.ofNat 32 v.im }

/-- A vector that the check of a radix-2 command admits (R133). -/
structure Bases.Admissible (v : Bases) (l : Nat) : Prop where
  pow2 : ∃ k, l = 2 ^ k
  short : l ≤ Config.nMax
  alignedRe : v.re % 4 = 0
  alignedIm : v.im % 4 = 0
  rangeRe : v.re + 4 * l ≤ Config.memSize
  rangeIm : v.im + 4 * l ≤ Config.memSize
  apart : v.apart l

section
variable {v : Bases} {l : Nat} (h : v.Admissible l) (s : State)
include h

theorem Bases.Admissible.pos : 1 ≤ l := by
  obtain ⟨k, rfl⟩ := h.pow2
  exact Nat.one_le_two_pow

theorem Bases.Admissible.withX_len : (s.withX v l).len.toNat = l := by
  have := h.short
  simp only [Config.nMax, Config.log2Nmax] at this
  rw [State.withX, BitVec.toNat_ofNat, Nat.mod_eq_of_lt (by omega)]

theorem Bases.Admissible.withX_bases :
    (s.withX v l).xre.toNat = v.re ∧ (s.withX v l).xim.toNat = v.im := by
  have := h.pos
  have hre := h.rangeRe
  have him := h.rangeIm
  simp only [Config.memSize, Config.addrW] at hre him
  simp only [State.withX, BitVec.toNat_ofNat]
  exact ⟨Nat.mod_eq_of_lt (by omega), Nat.mod_eq_of_lt (by omega)⟩

/-- A radix-2 command that passes the tests of its stage number is ready on an admissible vector. -/
theorem Bases.Admissible.ready {c : Instr} (hc : isRadix2 c = true) (hstage : badStage c l = false)
    (hholes : s.holes = []) (hraced : s.raced = false) : (s.withX v l).Ready c := by
  have hlen := h.withX_len s
  obtain ⟨hre, him⟩ := h.withX_bases s
  have hshort := h.short
  have hcmul : c ≠ .cmul := by rintro rfl; cases hc
  obtain ⟨-, hblue⟩ := path_of_isRadix2 hc l
  have hused : (s.withX v l).usedRegions c = [⟨v.re, 4 * l⟩, ⟨v.im, 4 * l⟩] := by
    simp [State.usedRegions, State.xRegions, hcmul, hlen, hblue, hre, him]
  have hoverlap : (s.withX v l).overlapFails c = false := by
    have := h.apart
    unfold Bases.apart at this
    simp only [State.overlapFails, State.xOverlap, hlen, hre, him, hcmul, hblue, decide_false, Bool.false_and,
      Bool.or_false, Region.overlaps_eq_false]
    omega
  have hpassed : CheckPassed c (s.withX v l) :=
    { lenPos := by rw [hlen]; exact h.pos
      lenLt := by
        simp only [Config.nMax, Config.log2Nmax] at hshort
        omega
      pow2 := fun _ => by rw [hlen]; exact (isPow2_iff h.pos).mpr h.pow2
      stageOk := by rw [hlen]; exact hstage
      notLong := by simp [State.tooLongFails, hlen, hblue, hshort]
      aligned := by simp [hused, h.alignedRe, h.alignedIm]
      inRange := by simp [hused, h.rangeRe, h.rangeIm]
      noOverlap := hoverlap
      scratchSize := fun hb => by rw [hlen, hblue] at hb; cases hb }
  exact ⟨hpassed.check (by rintro rfl; cases hc), hholes, hraced⟩

end

/-- A phase on the vector `v` and the same phase on X. -/
inductive PhaseOnX (v : Vec) : Phase → Phase → Prop where
  | conj : PhaseOnX v (.conj v) (.conj .x)
  | bitRev : PhaseOnX v (.bitRev v) (.bitRev .x)
  | stage (g : Nat) : PhaseOnX v (.stage v g) (.stage .x g)
  | scale : PhaseOnX v (.scale v) (.scale .x)

/-- `u` has as X the vector `v` of `w`, and a phase works on the same memory, registers and draws in both. -/
structure StateOnX (v : Vec) (w u : State) : Prop where
  bases : u.bases .x = w.bases v
  length : u.lengthOf .x = w.lengthOf v
  dp : u.dp = w.dp
  mem : u.mem = w.mem
  draws : u.draws = w.draws

section
variable {v : Vec} {w u : State} (tr : Config.Trig) (i j : Instr)

/-- The phase on X does what the phase on `v` does. -/
theorem StateOnX.doPhase {p q : Phase} (h : StateOnX v w u) (hpq : PhaseOnX v p q) :
    StateOnX v (doPhase tr i p w) (doPhase tr j q u) := by
  have hwork : (Machine.doPhase tr j q u).dp = (Machine.doPhase tr i p w).dp ∧
      (Machine.doPhase tr j q u).mem = (Machine.doPhase tr i p w).mem ∧
      (Machine.doPhase tr j q u).draws = (Machine.doPhase tr i p w).draws := by
    cases hpq <;> simp [Machine.doPhase, h.bases, h.length, h.dp, h.mem, h.draws]
  obtain ⟨hdp, hmem, hdraws⟩ := hwork
  have hw := doPhase_same tr i p w
  have hu := doPhase_same tr j q u
  exact ⟨by rw [hu.bases, hw.bases, h.bases], by rw [hu.lengthOf, hw.lengthOf, h.length], hdp, hmem, hdraws⟩

theorem StateOnX.applyPhases {ps qs : List Phase} (h : StateOnX v w u) (hpq : List.Forall₂ (PhaseOnX v) ps qs) :
    StateOnX v (applyPhases tr i ps w) (applyPhases tr j qs u) := by
  induction hpq generalizing w u with
  | nil => exact h
  | cons hp _ ih => exact ih (h.doPhase tr i j hp)

end

theorem forwardPhases_onX (v : Vec) (l : Nat) : List.Forall₂ (PhaseOnX v) (forwardPhases v l) (forwardPhases .x l) := by
  refine .cons .bitRev ?_
  rw [List.forall₂_map_left_iff, List.forall₂_map_right_iff, List.forall₂_same]
  exact fun k _ => .stage (k + 1)

theorem inversePhases_onX (v : Vec) (l : Nat) : List.Forall₂ (PhaseOnX v) (inversePhases v l) (inversePhases .x l) :=
  .cons .conj (List.rel_append (forwardPhases_onX v l) (.cons .conj (.cons .scale .nil)))

/-- Phases on an admissible vector inside a command leave the memory that the radix-2 command with those phases
leaves when it is run on that vector. -/
theorem runsOn_applyPhases {i c : Instr} {v : Vec} {ps : List Phase} {w : State}
    (hv : (w.bases v).Admissible (w.lengthOf v).toNat) (hholes : w.holes = []) (hraced : w.raced = false)
    (hc : isRadix2 c = true) (hstage : badStage c (w.lengthOf v).toNat = false)
    (hps : ∀ u : State, u.len.toNat = (w.lengthOf v).toNat → List.Forall₂ (PhaseOnX v) ps (phasesOf c u)) :
    RunsOn c (w.bases v) (w.lengthOf v).toNat w.mem (applyPhases Config.trig i ps w).mem := by
  have hready := hv.ready w hc hstage hholes hraced
  have hlen := hv.withX_len w
  obtain ⟨hre, him⟩ := hv.withX_bases w
  have hnop : c ≠ .nop := by rintro rfl; cases hc
  have honX : StateOnX v w ((w.withX (w.bases v) (w.lengthOf v).toNat).takeOperands c) :=
    { bases := by rw [takeOperands_xBases, hre, him]
      length := by rw [takeOperands_xLength _ hnop]; exact BitVec.eq_of_toNat_eq hlen
      dp := State.takeOperands_dp _ c
      mem := State.takeOperands_mem _ c
      draws := State.takeOperands_draws _ c }
  obtain ⟨t, ht, hmem⟩ := hready.runs
  exact ⟨w.withX (w.bases v) (w.lengthOf v).toNat, t, rfl, hlen, hre, him, hready, ht.answers,
    hmem.trans (honX.applyPhases Config.trig i c (hps _ hlen)).mem⟩

/-! ### The controller's own phases -/

theorem inRegions_pair {a b l c : Nat} :
    inRegions [⟨a, 4 * l⟩, ⟨b, 4 * l⟩] c = false ↔ Bases.outside ⟨a, b⟩ l c := by
  simp only [inRegions, Region.has, Bases.outside, List.any_cons, List.any_nil, Bool.or_false, Bool.or_eq_false_iff,
    Bool.and_eq_false_iff, decide_eq_false_iff_not]
  omega

/-- After Zero an element of a scratch buffer is zero (R251). -/
theorem readC_zeroPass {scr m : Nat} (x : Work) {v : Bases} {k j e : Nat} (hv : v = ⟨scr + 4 * k, scr + 4 * j⟩)
    (hk : k + e < 6 * m) (hj : j + e < 6 * m) : readC (zeroPass scr m x).mem v e = ⟨0, 0⟩ := by
  obtain ⟨hzero, -⟩ := zeroPass_spec scr m x
  have hre := hzero _ hk
  have him := hzero _ hj
  rw [Nat.mul_add, ← Nat.add_assoc] at hre him
  rw [readC, hv, hre, him]
  rfl

section
variable {R : Nat → Prop} {w : State} (h : ScratchIn R w) (tr : Config.Trig) (i : Instr)
include h

/-- Zero leaves X (R251, R288). -/
theorem ScratchIn.readX_zero {e : Nat} (he : e < w.n.toNat) :
    readC (doPhase tr i .zero w).mem (w.bases .x) e = readC w.mem (w.bases .x) e := by
  obtain ⟨-, hout⟩ := zeroPass_spec w.scr.toNat w.mlen.toNat ⟨w.dp, w.mem⟩
  have hre := h.clearRe
  have him := h.clearIm
  refine readC_congr fun c hc => hout c ?_
  simp only [State.bases] at hc
  omega

/-- Zero and ChirpFill build A and B (R251, R252). -/
theorem ScratchIn.fill :
    (∀ e, e < w.mlen.toNat →
      if e < w.n.toNat then
        IsProduct (readC w.mem (w.bases .x) e) (conjC (chirp tr w.n.toNat e))
          (readC (applyPhases tr i [.zero, .chirpFill] w).mem (w.bases .a) e)
      else readC (applyPhases tr i [.zero, .chirpFill] w).mem (w.bases .a) e = ⟨0, 0⟩) ∧
    ∀ e, e < w.mlen.toNat →
      readC (applyPhases tr i [.zero, .chirpFill] w).mem (w.bases .b) e =
        if e < w.n.toNat then chirp tr w.n.toNat e
        else if w.mlen.toNat - w.n.toNat < e then chirp tr w.n.toNat (w.mlen.toNat - e) else ⟨0, 0⟩ := by
  obtain ⟨ha, hb, -⟩ := h.vec
  obtain ⟨hA, hB, -⟩ := chirpFillPass_spec tr (w.bases .x) (w.bases .a) (w.bases .b) w.n.toNat w.mlen.toNat
    [(doPhase tr i .zero w).draws, 0] ⟨(doPhase tr i .zero w).dp, (doPhase tr i .zero w).mem⟩ h.lenPos h.longEnough
    ha.apart hb.apart h.aClear h.aClearX h.bClearX
  have hzero := doPhase_same tr i .zero w
  have hfill : (applyPhases tr i [.zero, .chirpFill] w).mem = (chirpFillPass tr (w.bases .x) (w.bases .a) (w.bases .b)
      w.n.toNat w.mlen.toNat [(doPhase tr i .zero w).draws, 0]
      ⟨(doPhase tr i .zero w).dp, (doPhase tr i .zero w).mem⟩).mem := by
    rw [← hzero.bases, ← hzero.bases, ← hzero.bases, ← hzero.n, ← hzero.mlen]
    rfl
  rw [hfill]
  refine ⟨fun e he => ?_, fun e he => ?_⟩
  · rw [hA e he]
    split
    · rename_i hen
      rw [h.readX_zero tr i hen]
      exact ⟨_, rfl⟩
    · exact readC_zeroPass ⟨w.dp, w.mem⟩ (k := 0) (j := w.mlen.toNat) rfl (by omega) (by omega)
  · rw [hB e he]
    congr 2
    exact readC_zeroPass ⟨w.dp, w.mem⟩ (k := 2 * w.mlen.toNat) (j := 3 * w.mlen.toNat)
      (by simp only [State.bases, Bases.mk.injEq]; omega) (by omega) (by omega)

/-- PointMul puts the products of A and B into C and changes nothing else (R254). -/
theorem ScratchIn.pointMul :
    (∀ e, e < w.mlen.toNat →
      IsProduct (readC w.mem (w.bases .a) e) (readC w.mem (w.bases .b) e)
        (readC (doPhase tr i (.pointMul .c .a .b) w).mem (w.bases .c) e)) ∧
    ∀ c, (w.bases .c).outside w.mlen.toNat c →
      Memory.readByte (doPhase tr i (.pointMul .c .a .b) w).mem c = Memory.readByte w.mem c := by
  obtain ⟨-, -, hc⟩ := h.vec
  obtain ⟨hspec, hout⟩ := pointMulPass_spec (w.bases .c) (w.bases .a) (w.bases .b) w.mlen.toNat [w.draws, 0]
    ⟨w.dp, w.mem⟩ hc.apart h.abReadable.1 h.abReadable.2
  exact ⟨fun e he => ⟨_, hspec e he⟩, hout⟩

/-- Extract puts the products of C and the conjugate chirp into X and changes nothing else (R256). -/
theorem ScratchIn.extract (hx : VecIn R w .x) :
    (∀ e, e < w.n.toNat →
      IsProduct (readC w.mem (w.bases .c) e) (conjC (chirp tr w.n.toNat e))
        (readC (doPhase tr i .extract w).mem (w.bases .x) e)) ∧
    ∀ c, (w.bases .x).outside w.n.toNat c →
      Memory.readByte (doPhase tr i .extract w).mem c = Memory.readByte w.mem c := by
  obtain ⟨hspec, hout⟩ := extractPass_spec tr (w.bases .x) (w.bases .c) w.n.toNat [w.draws, 0] ⟨w.dp, w.mem⟩ hx.apart
    h.cReadable
  exact ⟨fun e he => ⟨_, hspec e he⟩, hout⟩

end

/-! ### BLUE.F (R257, R258) -/

/-- `w` is a state inside the run of BLUE.F from `s`: its operands are those taken at Check (R42), and no race is
pending. -/
structure BlueOperands (s w : State) : Prop where
  operands : SameOperands (s.takeOperands .blueF) w
  raced : w.raced = false

theorem BlueOperands.applyPhases {s w : State} (h : BlueOperands s w) (tr : Config.Trig) (i : Instr) {ps : List Phase}
    (hps : ∀ p ∈ ps, p ≠ .finish) : BlueOperands s (applyPhases tr i ps w) where
  operands := h.operands.trans (applyPhases_same tr i ps w)
  raced := by
    obtain ⟨-, -, -, hraced, -⟩ := applyPhases_status tr i hps w
    exact hraced.trans h.raced

section
variable {s w : State} (h : BlueOperands s w)
include h

theorem BlueOperands.n : w.n = s.len := by rw [h.operands.n, s.takeOperands_n_of_ne .blueF nofun]

theorem BlueOperands.scr : w.scr = s.scr := by rw [h.operands.scr, s.takeOperands_scr]

theorem BlueOperands.xBases : w.bases .x = ⟨s.xre.toNat, s.xim.toNat⟩ := by
  rw [h.operands.bases, takeOperands_xBases]

variable (hs : s.Ready .blueF)
include hs

theorem BlueOperands.mlen : w.mlen.toNat = paddedLength s.len.toNat := by
  rw [h.operands.mlen, (hs.passed nofun).mlen nofun rfl]

/-- The bases of the scratch buffers are those of rule R250's list. -/
theorem BlueOperands.buffers :
    w.bases .a = buffer s.scr.toNat (paddedLength s.len.toNat) 0 ∧
      w.bases .b = buffer s.scr.toNat (paddedLength s.len.toNat) 8 ∧
      w.bases .c = buffer s.scr.toNat (paddedLength s.len.toNat) 16 := by
  simp [State.bases, buffer, h.scr, h.mlen hs]

theorem BlueOperands.scratchIn : ScratchIn (inRw s .blueF) w :=
  (hs.passed nofun).scratchIn nofun hs.checked rfl h.operands

theorem BlueOperands.lengthOf_scratch {v : Vec} (hv : v.inScratch = true) :
    (w.lengthOf v).toNat = paddedLength s.len.toNat := by
  cases v with
  | x | y => cases hv
  | a | b | c => exact h.mlen hs

/-- Each buffer is a vector that the radix-2 commands take (R250, R253, R255). -/
theorem BlueOperands.admissible {v : Vec} (hv : v.inScratch = true) : (w.bases v).Admissible (w.lengthOf v).toNat := by
  have hp := hs.passed nofun
  have hshort : w.mlen.toNat ≤ Config.nMax := by
    have := hp.notLong
    rw [h.mlen hs]
    simpa [State.tooLongFails, onBluestein, isBlue, onRadix2, isRadix2, isDft] using this
  have haligned : w.scr.toNat % 4 = 0 := by
    rw [h.scr]
    exact hp.aligned s.scratchRegion (by simp [State.usedRegions, onBluestein, isBlue])
  have hrange : w.scr.toNat + 24 * w.mlen.toNat ≤ Config.memSize := by
    rw [h.scr, h.mlen hs]
    exact hp.scratchRange rfl
  have hpow2 : ∃ k, w.mlen.toNat = 2 ^ k := ⟨_, (h.mlen hs).trans (paddedLength_eq_two_pow _)⟩
  cases v with
  | x | y => cases hv
  | a | b | c =>
    refine ⟨hpow2, hshort, ?_, ?_, ?_, ?_, ?_⟩ <;> simp only [State.bases, State.lengthOf, Bases.apart] <;> omega

theorem BlueOperands.holes : w.holes = [] :=
  h.operands.holes.trans ((s.takeOperands_holes .blueF).trans hs.answered)

/-- The transform of a buffer is FFT2.F run on it (R253). -/
theorem BlueOperands.runsOn_forward {v : Vec} (hv : v.inScratch = true) (i : Instr) :
    RunsOn .fft2F (w.bases v) (paddedLength s.len.toNat) w.mem
      (Machine.applyPhases Config.trig i (forwardPhases v (paddedLength s.len.toNat)) w).mem := by
  rw [← h.lengthOf_scratch hs hv]
  exact runsOn_applyPhases (h.admissible hs hv) (h.holes hs) h.raced rfl rfl fun _ hlen => hlen ▸ forwardPhases_onX v _

/-- The inverse transform of a buffer is FFT2.I run on it (R255). -/
theorem BlueOperands.runsOn_inverse {v : Vec} (hv : v.inScratch = true) (i : Instr) :
    RunsOn .fft2I (w.bases v) (paddedLength s.len.toNat) w.mem
      (Machine.applyPhases Config.trig i (inversePhases v (paddedLength s.len.toNat)) w).mem := by
  rw [← h.lengthOf_scratch hs hv]
  exact runsOn_applyPhases (h.admissible hs hv) (h.holes hs) h.raced rfl rfl fun _ hlen => hlen ▸ inversePhases_onX v _

end

/-- BLUE.F of `s` after Zero and ChirpFill. -/
def State.blueFilled (s : State) : State :=
  applyPhases Config.trig .blueF [.zero, .chirpFill] (s.takeOperands .blueF)

/-- BLUE.F of `s` after the transform of A. -/
def State.blueAfterA (s : State) : State :=
  applyPhases Config.trig .blueF (forwardPhases .a (paddedLength s.len.toNat)) s.blueFilled

/-- BLUE.F of `s` after the transform of B. -/
def State.blueAfterB (s : State) : State :=
  applyPhases Config.trig .blueF (forwardPhases .b (paddedLength s.len.toNat)) s.blueAfterA

/-- BLUE.F of `s` after PointMul. -/
def State.blueAfterProduct (s : State) : State := doPhase Config.trig .blueF (.pointMul .c .a .b) s.blueAfterB

/-- BLUE.F of `s` after the inverse transform of C. -/
def State.blueAfterC (s : State) : State :=
  applyPhases Config.trig .blueF (inversePhases .c (paddedLength s.len.toNat)) s.blueAfterProduct

/-- The phases of BLUE.F are those steps and Extract (R257). -/
theorem applyPhases_blueF (s : State) :
    applyPhases Config.trig .blueF (phasesOf .blueF s) (s.takeOperands .blueF) =
      doPhase Config.trig .blueF .extract s.blueAfterC := by
  simp only [phasesOf, phasesBlueF, bluesteinPhases, applyPhases_append]
  rfl

section
variable {s : State} (hs : s.Ready .blueF)
include hs

theorem State.Ready.blueOperands : BlueOperands s (s.takeOperands .blueF) :=
  ⟨.refl _, (s.takeOperands_raced .blueF).trans hs.unraced⟩

theorem State.Ready.blueOperands_filled : BlueOperands s s.blueFilled :=
  hs.blueOperands.applyPhases Config.trig .blueF (by simp)

theorem State.Ready.blueOperands_afterA : BlueOperands s s.blueAfterA :=
  hs.blueOperands_filled.applyPhases Config.trig .blueF (forwardPhases_ne_finish _ _)

theorem State.Ready.blueOperands_afterB : BlueOperands s s.blueAfterB :=
  hs.blueOperands_afterA.applyPhases Config.trig .blueF (forwardPhases_ne_finish _ _)

theorem State.Ready.blueOperands_afterProduct : BlueOperands s s.blueAfterProduct :=
  hs.blueOperands_afterB.applyPhases Config.trig .blueF (ps := [.pointMul .c .a .b]) (by simp)

theorem State.Ready.blueOperands_afterC : BlueOperands s s.blueAfterC :=
  hs.blueOperands_afterProduct.applyPhases Config.trig .blueF (inversePhases_ne_finish _ _)

/-- The transform of A is FFT2.F run on A (R253). -/
theorem State.Ready.runsOn_transformA :
    RunsOn .fft2F (buffer s.scr.toNat (paddedLength s.len.toNat) 0) (paddedLength s.len.toNat) s.blueFilled.mem
      s.blueAfterA.mem := by
  have h := hs.blueOperands_filled
  obtain ⟨hbuffer, -⟩ := h.buffers hs
  exact hbuffer ▸ h.runsOn_forward hs (v := .a) rfl .blueF

/-- The transform of B is FFT2.F run on B (R253). -/
theorem State.Ready.runsOn_transformB :
    RunsOn .fft2F (buffer s.scr.toNat (paddedLength s.len.toNat) 8) (paddedLength s.len.toNat) s.blueAfterA.mem
      s.blueAfterB.mem := by
  have h := hs.blueOperands_afterA
  obtain ⟨-, hbuffer, -⟩ := h.buffers hs
  exact hbuffer ▸ h.runsOn_forward hs (v := .b) rfl .blueF

/-- The inverse transform of C is FFT2.I run on C (R255). -/
theorem State.Ready.runsOn_transformC :
    RunsOn .fft2I (buffer s.scr.toNat (paddedLength s.len.toNat) 16) (paddedLength s.len.toNat) s.blueAfterProduct.mem
      s.blueAfterC.mem := by
  have h := hs.blueOperands_afterProduct
  obtain ⟨-, -, hbuffer⟩ := h.buffers hs
  exact hbuffer ▸ h.runsOn_inverse hs (v := .c) rfl .blueF

end

/-- Settles O49: the memories are those of the run after each step; each transform of a buffer is the radix-2 command
run on it, and the other steps are the specifications of the controller's phases. -/
theorem bluesteinSequence : Obligations.BluesteinSequence := by
  rintro s n m hs rfl rfl
  obtain ⟨t, ht, hmem⟩ := hs.runs
  rw [applyPhases_blueF] at hmem
  have hstart := hs.blueOperands
  have hB := hs.blueOperands_afterB
  have hC := hs.blueOperands_afterC
  have hx := (hs.passed nofun).xIn nofun hs.checked hC.operands
  obtain ⟨startA, startB, -⟩ := hstart.buffers hs
  obtain ⟨bufA, bufB, bufC⟩ := hB.buffers hs
  obtain ⟨-, -, endC⟩ := hC.buffers hs
  obtain ⟨fillA, fillB⟩ := (hstart.scratchIn hs).fill Config.trig .blueF
  obtain ⟨products, productFrame⟩ := (hB.scratchIn hs).pointMul Config.trig .blueF
  obtain ⟨extracted, extractFrame⟩ := (hC.scratchIn hs).extract Config.trig .blueF hx
  simp only [startA, startB, hstart.n, hstart.mlen hs, hstart.xBases, State.takeOperands_mem] at fillA fillB
  simp only [bufA, bufB, bufC, hB.mlen hs] at products productFrame
  simp only [endC, hC.n, hC.xBases, ← hmem] at extracted extractFrame
  refine ⟨t, s.blueFilled.mem, s.blueAfterA.mem, s.blueAfterB.mem, s.blueAfterProduct.mem, s.blueAfterC.mem, ht, fillA,
    fillB, hs.runsOn_transformA, hs.runsOn_transformB, products, fun c hc => productFrame c ?_, hs.runsOn_transformC,
    fun k hk => ?_, fun c hc => extractFrame c (inRegions_pair.mp hc)⟩
  · simp only [inRegions, Region.has, List.any_cons, List.any_nil, Bool.or_false, Bool.and_eq_false_iff,
      decide_eq_false_iff_not] at hc
    simp only [Bases.outside, buffer]
    omega
  · rw [ht.xElem]
    exact extracted k hk

end Sys2Proof.Machine
end

section
/-! Exceptions and completion: the interrupt line (R295), the check as the report of the lowest failing code (R133, R282
to R290), and the Idle unit (R304). -/

namespace Sys2Proof.Machine

open Sys2Proof

/-! ### The Idle unit (R304) -/

theorem unitStep_of_idle (t : Config.Trig) {s : State} (h : s.ph = .idle) : unitStep t s = s := by
  simp only [unitStep, h]

theorem unitRun_of_idle {s : State} (h : s.ph = .idle) : unitRun s = .next s := by
  simp only [unitRun, h]

/-- Settles O57: with no event due the step is the unit's run, and an Idle unit has no phase to run. -/
theorem idleUnitStays : Obligations.IdleUnitStays := fun _ hidle hin =>
  ⟨(step_of_no_inputs hin).trans (unitRun_of_idle hidle), unitStep_of_idle Config.trig hidle⟩

/-! ### The interrupt line (R295) -/

/-- A word of rule R97 is reported by the first unit step, whatever the phase (R281). -/
theorem unitStep_of_illegalWord (t : Config.Trig) {s : State} {p : Phase} {rest : List Phase} (hph : s.ph = .run p rest)
    (hw : IllegalWord s.cmd) : unitStep t s = s.complete .illegalCmd := by
  obtain ⟨e, he⟩ := decodeWord_of_illegalWord hw
  simp only [unitStep, hph, he, State.completeIllegal]

/-- Completion raises DONE, so that IRQ is the interrupt enable (R136, R295). -/
@[simp] theorem State.complete_irq (s : State) (code : ErrCode) : (s.complete code).irq = s.doneIe := Bool.and_true _

theorem Completed.irq {s t : State} {code : ErrCode} (h : Completed s t code) : t.irq = s.doneIe := by
  rw [State.irq, h.done, h.same.doneIe, Bool.and_true]

/-- An acknowledgement lowers IRQ by bit 1 of the word (R126, R295). -/
@[simp] theorem State.acknowledge_irq (s : State) (v : Word) : (s.acknowledge v).irq = (s.irq && !v.getLsbD 1) :=
  (Bool.and_assoc s.doneIe s.done _).symm

/-- Settles O28: IRQ is computed from DONE_IE and DONE, and each of these operations says what it does to the two. -/
theorem interruptLine : Obligations.InterruptLine := by
  refine ⟨fun _ => rfl, rfl, fun i s hh => ?_, fun s p rest hph hw => ?_, fun s v => ?_,
    fun s v => ⟨_, writeAt_status s v, s.acknowledge_irq v⟩, fun s c hbusy => ?_, fun s v off hbusy hguarded => ?_⟩
  · obtain ⟨t, hexec, hdone⟩ := exec_completes i hh
    exact ⟨t, hexec, hdone.irq⟩
  · rw [unitStep_of_illegalWord Config.trig hph hw, State.complete_irq]
  · obtain ⟨t, hwrite, -, hirq⟩ := interruptEnableWrite s v
    exact ⟨t, hwrite, hirq⟩
  · obtain ⟨t, hwrite, -, -, hirq⟩ := launchEffect s c hbusy
    exact ⟨t, hwrite, hirq⟩
  · refine ⟨s.dropWrite, ?_, rfl⟩
    rw [writeAt_aligned (guarded_aligned (of_decide_eq_true hguarded)), writeRegister_eq_drop hbusy hguarded]

/-! ### The classes of commands and the padded length (R250, R283, R285, R289) -/

theorem isRadix2_iff (i : Instr) : isRadix2 i = true ↔ IsRadix2Command i := by
  cases i <;> simp [isRadix2, IsRadix2Command]

theorem isBlue_iff (i : Instr) : isBlue i = true ↔ i = .blueF ∨ i = .blueI := by
  cases i <;> simp [isBlue]

theorem isDft_iff (i : Instr) : isDft i = true ↔ i = .dftF ∨ i = .dftI := by
  cases i <;> simp [isDft]

theorem badStage_iff (i : Instr) (n : Nat) : badStage i n = true ↔ ∃ k, i = .stage k ∧ (k = 0 ∨ n < 2 ^ k) := by
  cases i <;> simp [badStage]

theorem isPow2_eq_false_iff {n : Nat} (hn : 1 ≤ n) : isPow2 n = false ↔ ¬∃ k, n = 2 ^ k := by
  rw [← isPow2_iff hn, Bool.not_eq_true]

theorem onBluestein_iff {n : Nat} (hn : 1 ≤ n) (i : Instr) : onBluestein i n = true ↔ TakesBluestein i n := by
  rw [onBluestein, Bool.or_eq_true, Bool.and_eq_true, Bool.not_eq_true', isBlue_iff, isDft_iff, isPow2_eq_false_iff hn,
    TakesBluestein, or_assoc]

theorem onRadix2_iff {n : Nat} (hn : 1 ≤ n) (i : Instr) : onRadix2 i n = true ↔ TakesRadix2 i n := by
  rw [onRadix2, Bool.or_eq_true, Bool.and_eq_true, isRadix2_iff, isDft_iff, isPow2_iff hn, TakesRadix2]

/-- The definition of M determines it (R250). -/
theorem isPaddedLength_iff (n m : Nat) : IsPaddedLength n m ↔ m = paddedLength n := by
  constructor
  · rintro ⟨⟨k, rfl⟩, hle, hleast⟩
    have hpow := paddedLength_eq_two_pow n
    refine Nat.le_antisymm ?_ (paddedLength_le hle)
    rw [hpow]
    exact hleast _ (hpow ▸ le_paddedLength n)
  · rintro rfl
    exact ⟨⟨_, paddedLength_eq_two_pow n⟩, le_paddedLength n, fun _ => paddedLength_le⟩

theorem exists_isPaddedLength_iff (n : Nat) (P : Nat → Prop) :
    (∃ m, IsPaddedLength n m ∧ P m) ↔ P (paddedLength n) := by
  simp only [isPaddedLength_iff, exists_eq_left]

/-! ### Ranges (R66, R286 to R288) -/

/-- Two ranges that are not empty overlap exactly when they share a byte (R133). -/
theorem overlaps_iff_shareByte {p q : Nat} (hp : 0 < p) (hq : 0 < q) (a b : Nat) :
    Region.overlaps ⟨a, p⟩ ⟨b, q⟩ = true ↔ ShareByte a p b q := by
  simp only [Region.overlaps, Bool.and_eq_true, decide_eq_true_eq]
  constructor
  · intro h
    exact ⟨max a b, by omega⟩
  · rintro ⟨c, hc⟩
    omega

theorem mem_usedRegions {s : State} {i : Instr} {r : Region} :
    r ∈ s.usedRegions i ↔
      r ∈ s.xRegions ∨ (i = .cmul ∧ r ∈ s.yRegions) ∨ (onBluestein i s.len.toNat = true ∧ r = s.scratchRegion) := by
  simp only [State.usedRegions, List.mem_append, List.mem_ite_nil_right, List.mem_singleton, or_assoc]

section
variable {i : Instr} {s : State} (hn : 1 ≤ s.len.toNat)
include hn

/-- The ranges of rules R286 and R287 are the regions of rule R133. -/
theorem mem_usedRegions_iff_uses (hi : i ≠ .nop) (r : Region) : r ∈ s.usedRegions i ↔ Uses s i r.base r.size := by
  obtain ⟨base, size⟩ := r
  simp only [mem_usedRegions, Uses, onBluestein_iff hn, State.xRegions, State.yRegions, State.scratchRegion,
    List.mem_cons, List.not_mem_nil, or_false, Region.mk.injEq, exists_isPaddedLength_iff, or_and_right, or_assoc, hi,
    ne_eq, not_false_eq_true, true_and]

/-- A test of rule R133 on every region of a command finds one of the ranges that the command uses. -/
theorem any_usedRegions_iff (hi : i ≠ .nop) (P : Nat → Nat → Prop) [∀ base size, Decidable (P base size)] :
    ((s.usedRegions i).any fun r => decide (P r.base r.size)) = true ↔
      ∃ base size, Uses s i base size ∧ P base size := by
  simp only [List.any_eq_true, decide_eq_true_iff, mem_usedRegions_iff_uses hn hi]
  exact ⟨fun ⟨r, hr⟩ => ⟨r.base, r.size, hr⟩, fun ⟨base, size, h⟩ => ⟨⟨base, size⟩, h⟩⟩

/-! ### The tests of rule R133 are the causes of rules R283 to R289 -/

theorem notPow2_iff_fails : (isRadix2 i && !isPow2 s.len.toNat) = true ↔ Fails i s .notPow2 := by
  rw [Bool.and_eq_true, Bool.not_eq_true', isRadix2_iff, isPow2_eq_false_iff hn, Fails]

theorem tooLong_iff_fails : s.tooLongFails i = true ↔ Fails i s .tooLong := by
  rw [State.tooLongFails, Bool.or_eq_true, Bool.and_eq_true, Bool.and_eq_true, decide_eq_true_iff, decide_eq_true_iff,
    onRadix2_iff hn, onBluestein_iff hn, Fails, exists_isPaddedLength_iff, Config.nMax, Config.log2Nmax]

theorem xOverlap_iff :
    s.xOverlap = true ↔ ShareByte s.xre.toNat (4 * s.len.toNat) s.xim.toNat (4 * s.len.toNat) :=
  overlaps_iff_shareByte (Nat.mul_pos four_pos hn) (Nat.mul_pos four_pos hn) _ _

theorem yOverlap_iff :
    s.yOverlap = true ↔
      ShareByte s.yre.toNat (4 * s.len.toNat) s.yim.toNat (4 * s.len.toNat) ∨
        ∃ x y, (x = s.xre.toNat ∨ x = s.xim.toNat) ∧ (y = s.yre.toNat ∨ y = s.yim.toNat) ∧ y ≠ x ∧
          ShareByte y (4 * s.len.toNat) x (4 * s.len.toNat) := by
  have hsize : 0 < 4 * s.len.toNat := Nat.mul_pos four_pos hn
  simp only [State.yOverlap, State.xRegions, State.yRegions, List.any_cons, List.any_nil, Bool.or_false,
    Bool.or_eq_true, Bool.and_eq_true, bne_iff_ne, overlaps_iff_shareByte hsize hsize, or_and_right, exists_or,
    exists_and_left, exists_eq_left, and_comm, or_assoc, or_left_comm]

theorem scratchOverlap_iff :
    s.scratchOverlap = true ↔
      ∃ x, (x = s.xre.toNat ∨ x = s.xim.toNat) ∧
        ShareByte s.scr.toNat (24 * paddedLength s.len.toNat) x (4 * s.len.toNat) := by
  have hsize : 0 < 4 * s.len.toNat := Nat.mul_pos four_pos hn
  have hscratch : 0 < 24 * paddedLength s.len.toNat := Nat.mul_pos (by decide) (paddedLength_pos _)
  simp only [State.scratchOverlap, State.scratchRegion, State.xRegions, List.any_cons, List.any_nil, Bool.or_false,
    Bool.or_eq_true, overlaps_iff_shareByte hscratch hsize, or_and_right, exists_or, exists_eq_left]

theorem overlap_iff_fails (hi : i ≠ .nop) : s.overlapFails i = true ↔ Fails i s .overlap := by
  simp only [State.overlapFails, Bool.or_eq_true, Bool.and_eq_true, decide_eq_true_iff, xOverlap_iff hn,
    yOverlap_iff hn, scratchOverlap_iff hn, onBluestein_iff hn, Fails, ne_eq, hi, not_false_eq_true, true_and, and_or_left,
    or_assoc, isPaddedLength_iff, exists_and_left, exists_eq_left]

theorem allocFail_iff_fails :
    (onBluestein i s.len.toNat && decide (s.scrsz.toNat < 24 * paddedLength s.len.toNat)) = true ↔
      Fails i s .allocFail := by
  rw [Bool.and_eq_true, decide_eq_true_iff, onBluestein_iff hn, Fails, exists_isPaddedLength_iff]

end

/-! ### The lowest-numbered failing code (R290) -/

/-- No code below a number fails. -/
def NoneBelow (i : Instr) (s : State) (k : Nat) : Prop := ∀ c : ErrCode, c.toNat < k → ¬Fails i s c

/-- The code that rule R290 reports: the lowest-numbered one whose cause holds, OK when none does. -/
def LowestCode (i : Instr) (s : State) (c : ErrCode) : Prop :=
  if c = .ok then ∀ c', ¬Fails i s c' else Fails i s c ∧ NoneBelow i s c.toNat

theorem ErrCode.toNat_injective : Function.Injective ErrCode.toNat := by
  intro a b h
  cases a <;> cases b <;> cases h <;> rfl

/-- The causes of rules R282 to R289 begin at INVALID_LENGTH. -/
theorem noneBelow_invalidLength (i : Instr) (s : State) : NoneBelow i s ErrCode.invalidLength.toNat := by
  intro c hc
  cases c with
  | ok | illegalCmd => exact id
  | _ => exact absurd hc (by decide)

theorem NoneBelow.succ {i : Instr} {s : State} {c : ErrCode} (h : NoneBelow i s c.toNat) (hc : ¬Fails i s c) :
    NoneBelow i s (c.toNat + 1) := by
  intro c' hlt
  rcases Nat.lt_succ_iff_lt_or_eq.mp hlt with hlt | heq
  · exact h c' hlt
  · exact ErrCode.toNat_injective heq ▸ hc

theorem NoneBelow.lowestCode_ok {i : Instr} {s : State} (h : NoneBelow i s 10) : LowestCode i s .ok := by
  rw [LowestCode, if_pos rfl]
  exact fun c => h c (Nat.lt_succ_of_le c.toNat_le)

/-- One test in the order of rule R133: it answers its code where the cause holds, and leaves the answer to the later
tests where it does not. -/
theorem lowestCode_test {i : Instr} {s : State} {p : Prop} [Decidable p] {c rest : ErrCode} (hc : c ≠ .ok)
    (hp : p ↔ Fails i s c) (hbelow : NoneBelow i s c.toNat)
    (hrest : ¬p → NoneBelow i s (c.toNat + 1) → LowestCode i s rest) : LowestCode i s (if p then c else rest) := by
  split
  case isTrue h =>
    rw [LowestCode, if_neg hc]
    exact ⟨hp.mp h, hbelow⟩
  case isFalse h => exact hrest h (hbelow.succ (mt hp.mpr h))

/-- Two codes cannot both be the lowest. -/
theorem LowestCode.unique {i : Instr} {s : State} {a b : ErrCode} (ha : LowestCode i s a) (hb : LowestCode i s b) :
    a = b := by
  unfold LowestCode at ha hb
  split at ha <;> split at hb
  case isTrue.isTrue ha' hb' => rw [ha', hb']
  case isTrue.isFalse => exact absurd hb.1 (ha b)
  case isFalse.isTrue => exact absurd ha.1 (hb a)
  case isFalse.isFalse =>
    rcases Nat.lt_trichotomy a.toNat b.toNat with hlt | heq | hlt
    · exact absurd ha.1 (hb.2 a hlt)
    · exact ErrCode.toNat_injective heq
    · exact absurd hb.1 (ha.2 b hlt)

/-- NOP has no cause of error (R140). -/
theorem not_fails_nop (s : State) (c : ErrCode) : ¬Fails .nop s c := by
  cases c <;> simp [Fails, Uses, IsRadix2Command, TakesRadix2, TakesBluestein]

/-- The check is a chain of tests in the order of the codes (R133, R290): past the test of the length, each test is the
cause of its code. -/
theorem lowestCode_check (i : Instr) (s : State) : LowestCode i s (check i s) := by
  by_cases hi : i = .nop
  · rw [hi, check_nop, LowestCode, if_pos rfl]
    exact not_fails_nop s
  unfold check
  rw [if_neg hi]
  refine lowestCode_test nofun (by simp [Fails, hi]) (noneBelow_invalidLength i s) fun hlen h2 => ?_
  have hn : 1 ≤ s.len.toNat := by omega
  refine lowestCode_test nofun (notPow2_iff_fails hn) h2 fun _ h3 => ?_
  refine lowestCode_test nofun (badStage_iff i _) h3 fun _ h4 => ?_
  refine lowestCode_test nofun (tooLong_iff_fails hn) h4 fun _ h5 => ?_
  refine lowestCode_test nofun (any_usedRegions_iff hn hi fun base _ => base % 4 ≠ 0) h5 fun _ h6 => ?_
  refine lowestCode_test nofun (any_usedRegions_iff hn hi fun base size => Config.memSize < base + size) h6
    fun _ h7 => ?_
  refine lowestCode_test nofun (overlap_iff_fails hn hi) h7 fun _ h8 => ?_
  exact lowestCode_test nofun (allocFail_iff_fails hn) h8 fun _ h9 => h9.lowestCode_ok

/-- Settles O34: the check answers the lowest failing code, of which there is one; the Check phase stores ILLEGAL_CMD or
the code of the check. -/
theorem checkReportsLowestCode : Obligations.CheckReportsLowestCode := by
  refine ⟨fun i s c => ⟨?_, fun h => (lowestCode_check i s).unique h⟩, fun s hph hw => ?_, fun i s hph hd hc => ?_,
    fun s hlen _ => ?_, fun s hlen _ _ => ?_⟩
  · rintro rfl
    exact lowestCode_check i s
  · rw [unitStep_of_illegalWord Config.trig hph hw, State.complete_errcode]
  · rw [unitStep_of_check Config.trig hph hd, beginCommand_error hc, State.finishCommand_errcode]
  · simp [check, hlen, isRadix2, isPow2]
  · have hpad : paddedLength 40000 = 2 ^ 17 :=
      paddedLength_eq_two_pow_succ (m := 16) (by decide) (by decide) (by decide)
    simp [check, hlen, isRadix2, badStage, State.tooLongFails, onBluestein, isBlue, hpad, Config.nMax, Config.log2Nmax]

end Sys2Proof.Machine
end

section
/-! The reset event (R310 to R312): the registers read as after reset, and memory changes at most in the read-write
regions of the command that reset abandons. -/

namespace Sys2Proof.Machine

open Sys2Proof

/-- A unit that is not BUSY has no running command, and so no regions of one (R66). -/
theorem State.runningRw_of_not_busy {s : State} (h : s.busy = false) : s.runningRw = [] := by
  simp [State.runningRw, h]

/-- No register shows a field that reset keeps: the memory, its holes, the pending events, the host's data and the
model's own records (R311). -/
theorem State.resetUnit_readRegister (s : State) (off : Nat) :
    s.resetUnit.readRegister off = State.reset.readRegister off := by
  unfold State.readRegister
  split <;> rfl

/-- Free bytes after reset lie in the regions of the abandoned command (R312). -/
theorem State.resetUnit_bytesKept (s : State) : BytesKept s s.resetUnit s.runningRw :=
  fun _ hout => Memory.readByte_havoc [s.draws, 6] s.mem s.runningRw hout

/-- With no command to abandon, reset leaves memory (R311). -/
theorem State.resetUnit_mem_of_not_busy {s : State} (h : s.busy = false) : s.resetUnit.mem = s.mem := by
  simp [State.resetUnit, State.runningRw_of_not_busy h, Memory.havoc]

/-- Settles O19: the event answers the reset unit, which takes every register from the reset state and frees bytes in
the regions of a running command only. -/
theorem resetEventRestores : Obligations.ResetEventRestores := fun s =>
  ⟨s.resetUnit, rfl, s.resetUnit_readRegister, rfl, rfl, rfl, rfl, s.resetUnit_bytesKept,
    State.resetUnit_mem_of_not_busy, rfl, rfl⟩

end Sys2Proof.Machine
end

section
/-! Host accesses to memory that the platform refuses (R62; log entries 10 and 27): the other branch of the rules
`hostWrite_mem` and `hostRead_mem`. -/

namespace Sys2Proof.Machine

open Sys2Proof

theorem hostWrite_mem_unanswered {s : State} {a : Nat} {bytes : List Byte}
    (h : s.answers ⟨a, bytes.length, true⟩ = false) :
    s.hostWrite (.mem a) bytes = .fault (.hostAccessUnanswered a) := by
  simp [State.hostWrite, Target.resolve_mem, State.hostWriteMemory, h]

theorem hostRead_mem_unanswered {s : State} {a len : Nat} (h : s.answers ⟨a, len, false⟩ = false) :
    s.hostRead (.mem a) len = .fault (.hostAccessUnanswered a) := by
  simp [State.hostRead, Target.resolve_mem, State.hostReadMemory, h]

/-- Settles O33: a memory target resolves to itself, and an access that is not answered, past the top of memory or with
a byte in a hole, takes the fault branch. -/
theorem unansweredHostAccessFaults : Obligations.UnansweredHostAccessFaults := fun _ _ _ _ =>
  ⟨hostWrite_mem_unanswered, hostRead_mem_unanswered⟩

end Sys2Proof.Machine
end
